-- ==== Sys2Proof/Word.lean ====
section
/-! DEFINITION. The byte and the binary64 word: the plain types the registers of the frame pipeline hold
(spec/00_scope.md R13, R15). -/

namespace Sys2Proof

/-- R13: 8 bits, unsigned 0..255. -/
abbrev Byte := BitVec 8

/-- R15, R25: the 64 bits of an IEEE 754 binary64 value (sign, 11 exponent bits, 52 fraction bits). -/
abbrev F64 := BitVec 64

/-- R101, R105: three colour components in (R, G, B) order. -/
structure Color where
  r : Byte
  g : Byte
  b : Byte
deriving DecidableEq, Repr

/-- R27, R69: the six bytes of the wire header, `HDR[0]` to `HDR[5]`. -/
structure Header where
  b0 : Byte
  b1 : Byte
  b2 : Byte
  b3 : Byte
  b4 : Byte
  b5 : Byte
deriving DecidableEq, Repr

end Sys2Proof
end

