-- ==== Sys2Proof/Config.lean ====
section
/-! DEFINITION. What is fixed for one machine and what the spec leaves open: the turns of the three agents
(spec/00_scope.md R8, spec/43_loop.md R185) and the free values. A free value is a constant with no body:
nothing is known of it, so what is proved holds whatever it is. The numeric parameters of R13 are in
Sys2Proof/Machine/Params.lean, and the free value Config.tieDraw, whose type speaks of the exact brightness, in
Sys2Proof/Machine/ExactBrightness.lean. -/

namespace Sys2Proof

/-- R185, R210: what the host can do between two steps of the block. -/
inductive HostStep where
  | assertReset                                      -- drive `rst` to 1
  | releaseReset                                     -- drive `rst` to 0
  | setConfig (n : BitVec 17) (magic : BitVec 24)    -- drive `cfg_n` and `cfg_magic` (R41)
  | setTime (t : BitVec 64)                          -- drive `now_sec` (R40)
deriving DecidableEq, Repr

/-- R8: which agent takes the step: the block's sequencer, the channel (`CH.TX`, R64), or the host. -/
inductive Turn where
  | sequencer
  | channelTx
  | host (h : HostStep)
deriving DecidableEq, Repr, Inhabited

/-- FREE VALUE (log 1). R65, R185: the agent that takes step number `n`, where State fixes no turn ahead. -/
opaque Config.turn : Nat → Turn

/-- FREE VALUE (log 2). R149, U4: the number of bytes the channel is ready for at write attempt number `n`, where State
fixes none ahead; SEND cuts it to the bytes that remain, so that any count in `[0, rem]` is possible. -/
opaque Config.accepted : Nat → Nat

/-- FREE VALUE (log 5). R28, U1: what the frame-buffer byte at an address holds before anything has written it. -/
opaque Config.fbUnwritten : Nat → Byte

/-- FREE VALUE (log 13). The brightness of a stage input that is not finite: R108 gives one for finite values only. -/
opaque Config.brightNonFinite : F64 → Byte

/-- FREE VALUE (log 11). `hue_i` at step number `n` where the stage's index names no pixel: R102 gives it for an index
in 0..N-1 only. -/
opaque Config.hueNoPixel : Nat → BitVec 22

/-- FREE VALUE (log 11). `φ_i` at step number `n` where the stage's index names no pixel (R101, R107). -/
opaque Config.phaseNoPixel : Nat → F64

/-- FREE VALUE (log 12). The rate of a counter at time `t` when `t` is not after the start time: R155 and R159 give
it for a positive divisor only. -/
opaque Config.rateCorner (count t tStart : BitVec 64) : BitVec 64

/-- R12, U14: the channel's number of stop bits, an open environment parameter that no rule of the block reads. -/
opaque Config.chanStopBits : Nat

/-- R12: the channel's line rate in baud; no rule of the block reads it. -/
def Config.chanBaud : Nat := 115200

/-- R12: the channel's data bits per character; no rule of the block reads it. -/
def Config.chanDataBits : Nat := 8

/-- R12: whether a character has a parity bit; no rule of the block reads it. -/
def Config.chanParity : Bool := false

/-- R12: whether the line control is local only; no rule of the block reads it. -/
def Config.chanLocalLineControl : Bool := true

/-- R12: whether the line has flow control; no rule of the block reads it. -/
def Config.chanFlowControl : Bool := false

end Sys2Proof
end

