-- ==== Sys2Proof/Syntax.lean ====
section
/-! DEFINITION. The operations of the block (spec/30_encoding.md R83, spec/opcode_table.json): one constructor per
row. No operation word carries an operand (R90), so no constructor has a field. -/

namespace Sys2Proof

/-- R83: the thirteen operation words. -/
inductive Instr where
  | init       -- 0x00 INIT: reset step (R140, R231)
  | gen        -- 0x08 GEN: one whole frame (R112)
  | genHue     -- 0x09 GEN.HUE: stage 1 (R102)
  | genWheel   -- 0x0A GEN.WHEEL: stage 2 (R103, R105)
  | genPhase   -- 0x0B GEN.PHASE: stage 3 (R107)
  | genBright  -- 0x0C GEN.BRIGHT: stage 4 (R108, R109)
  | genScale   -- 0x0D GEN.SCALE: stage 5 (R111)
  | adv        -- 0x10 ADV: animation-state advance (R115)
  | drain      -- 0x18 DRAIN: wait for the channel to empty (R147)
  | send       -- 0x20 SEND: one write attempt (R149)
  | stats      -- 0x28 STATS: statistics update and report check (R156)
  | statsAcc   -- 0x29 STATS.ACC: counter accumulation (R154)
  | statsRpt   -- 0x2A STATS.RPT: once-per-second report (R155)
deriving DecidableEq, Repr

/-- R91: an operation is written by its mnemonic, with no operands. -/
def Instr.mnemonic (i : Instr) : String :=
  match i with
  | .init => "INIT"
  | .gen => "GEN"
  | .genHue => "GEN.HUE"
  | .genWheel => "GEN.WHEEL"
  | .genPhase => "GEN.PHASE"
  | .genBright => "GEN.BRIGHT"
  | .genScale => "GEN.SCALE"
  | .adv => "ADV"
  | .drain => "DRAIN"
  | .send => "SEND"
  | .stats => "STATS"
  | .statsAcc => "STATS.ACC"
  | .statsRpt => "STATS.RPT"

end Sys2Proof
end

