-- ==== Sys2Proof/WellFormed.lean ====
section
/-! DEFINITION. What is well formed: an operation word (spec/30_encoding.md R83, R84), a byte that holds one, and a
configuration (spec/00_scope.md R10). An `Instr` has no field (R90), so every term of it is well formed; the checks
are on the words and on the pixel count. -/

namespace Sys2Proof

/-- R84: the stage tags that `SEQ = seq` admits, as a bound: `STG < stageBound seq`; 0 for the reserved codes. -/
def stageBound (seq : BitVec 3) : Nat :=
  match seq.toNat with
  | 1 => 6
  | 5 => 3
  | 6 => 0
  | 7 => 0
  | _ => 1

/-- R83, R84: a 6-bit value is an operation word exactly when it is not reserved. -/
def wordWellFormed (w : BitVec 6) : Bool :=
  decide ((w.extractLsb' 0 3).toNat < stageBound (w.extractLsb' 3 3))

/-- R85: an operation word is 6 bits; a byte holds one when its two upper bits are 0 and the word is not reserved. -/
def byteWellFormed (b : Byte) : Bool :=
  decide (b.toNat < 64) && wordWellFormed (b.setWidth 6)

/-- R90: no operation has an operand field, so there is nothing an `Instr` could hold that is out of range. -/
def Instr.wellFormed (_ : Instr) : Bool := true

/-- R10, R21: the admitted pixel counts. -/
def pixelCountWellFormed (n : BitVec 17) : Bool := decide (n.toNat ≤ 65536)

end Sys2Proof
end

