-- ==== Sys2Proof/Decode.lean ====
section
/-! DEFINITION. The decoder from operation words to operations, and the encoder, both written from the map of
spec/30_encoding.md R82 to R84. The block fetches no instruction from memory (R80): the word is the sequencer's own
`{SEQ, STG}`. -/

namespace Sys2Proof

/-- Why a word is no operation. -/
inductive DecodeError where
  | reservedSeq (seq : BitVec 3)                     -- R84: `SEQ` = 110 or 111
  | reservedStage (seq : BitVec 3) (stg : BitVec 3)  -- R84: a stage tag that `SEQ` does not have
  | upperBits (b : Byte)                             -- R85: a byte whose two upper bits are not 0
  | noByte                                           -- no byte to decode
deriving DecidableEq, Repr

/-- R82: `OPW[5:3]`. -/
def opwSeq (w : BitVec 6) : BitVec 3 := w.extractLsb' 3 3

/-- R82: `OPW[2:0]`. -/
def opwStg (w : BitVec 6) : BitVec 3 := w.extractLsb' 0 3

/-- R82: the operation word of a `SEQ` code and a stage tag. -/
def opword (seq stg : BitVec 3) : BitVec 6 := seq ++ stg

/-- R83, R84: the operation of a 6-bit word, or the clause of R84 that reserves it. -/
def decodeWord (w : BitVec 6) : Except DecodeError Instr :=
  match (opwSeq w).toNat, (opwStg w).toNat with
  | 0, 0 => .ok .init
  | 1, 0 => .ok .gen
  | 1, 1 => .ok .genHue
  | 1, 2 => .ok .genWheel
  | 1, 3 => .ok .genPhase
  | 1, 4 => .ok .genBright
  | 1, 5 => .ok .genScale
  | 2, 0 => .ok .adv
  | 3, 0 => .ok .drain
  | 4, 0 => .ok .send
  | 5, 0 => .ok .stats
  | 5, 1 => .ok .statsAcc
  | 5, 2 => .ok .statsRpt
  | 6, _ => .error (.reservedSeq (opwSeq w))
  | 7, _ => .error (.reservedSeq (opwSeq w))
  | _, _ => .error (.reservedStage (opwSeq w) (opwStg w))

/-- R85 (log 21): one byte holds one operation word, in its six lower bits. -/
def decodeBytes (bs : List Byte) : Except DecodeError (Instr × List Byte) :=
  match bs with
  | [] => .error .noByte
  | b :: rest =>
    if b.toNat < 64 then
      match decodeWord (b.setWidth 6) with
      | .ok i => .ok (i, rest)
      | .error e => .error e
    else .error (.upperBits b)

/-- R83: the `SEQ` field of an operation's word. -/
def Instr.seqField (i : Instr) : BitVec 3 :=
  match i with
  | .init => 0b000
  | .gen => 0b001
  | .genHue => 0b001
  | .genWheel => 0b001
  | .genPhase => 0b001
  | .genBright => 0b001
  | .genScale => 0b001
  | .adv => 0b010
  | .drain => 0b011
  | .send => 0b100
  | .stats => 0b101
  | .statsAcc => 0b101
  | .statsRpt => 0b101

/-- R83: the `STG` field of an operation's word. -/
def Instr.stgField (i : Instr) : BitVec 3 :=
  match i with
  | .init => 0b000
  | .gen => 0b000
  | .genHue => 0b001
  | .genWheel => 0b010
  | .genPhase => 0b011
  | .genBright => 0b100
  | .genScale => 0b101
  | .adv => 0b000
  | .drain => 0b000
  | .send => 0b000
  | .stats => 0b000
  | .statsAcc => 0b001
  | .statsRpt => 0b010

/-- R82, R83: the operation word of an operation. -/
def encode (i : Instr) : BitVec 6 := opword i.seqField i.stgField

/-- The bytes of the low `nbits` bits of `w`, the least significant byte first. -/
def tableBytes (nbits w : Nat) : List Byte :=
  (List.range ((nbits + 7) / 8)).map fun j => BitVec.ofNat 8 (w / 2 ^ (8 * j))

/-- The operation the decoder reads from a table word of `nbits` bits: one byte, bits 7 and 6 zero. -/
def decodeTableWord (nbits w : Nat) : Option Instr :=
  match decodeBytes (tableBytes nbits w) with
  | .ok (i, _) => some i
  | .error _ => none

end Sys2Proof
end

