-- ==== Sys2Proof/Machine/State.lean ====
section
/-! DEFINITION. The state of the frame pipeline (spec/10_state.md R20 to R43), its ports, the channel agent
(spec/20_memory.md R64), the reasons a step can stop, and the state after the reset step. -/

namespace Sys2Proof.Machine

/-- R205: the closed list of the reasons for which the model refuses a configuration or a state. -/
inductive RefuseReason where
  | pixelCount      -- reason 1: a pixel count above 65536
  | reservedCode    -- reason 2: `SEQ` or the operation word is a reserved code
  | hueRange        -- reason 3: `HUE_BASE` ≥ 1536
  | phaseNotFinite  -- reason 4: `PHASE` is infinite or not a number
  | offsetRange     -- reason 5: `OFF` > L, or `OFF` = L in SEND
deriving DecidableEq, Repr

/-- The `rst` line (R38, R230; log 8): not asserted; asserted; or released with its INIT still to execute. -/
inductive ResetLine where
  | idle
  | asserted
  | released
deriving DecidableEq, Repr

/-- R38: the input ports that the host drives. The two that the channel drives are functions of the state:
`State.txReady` and `State.txIdle` in Flags.lean. -/
structure Ports where
  rst      : ResetLine
  cfgN     : BitVec 17
  cfgMagic : BitVec 24
  nowSec   : BitVec 64
deriving DecidableEq, Repr

/-- R64: the channel agent: the bytes accepted and not yet on the line, oldest first, and the bytes put on the line,
in order. -/
structure Channel where
  pending : List Byte
  wire    : List Byte
deriving DecidableEq, Repr

/-- R158: one report event. -/
structure Report where
  fps : BitVec 64
  bps : BitVec 64
deriving DecidableEq, Repr

/-- The MODEL's own fields (log 10): the operand and the results of the stages of R101 and R154, so that a stage's
operation word has a meaning of its own. No whole operation reads them. -/
structure Stage where
  pix       : Nat        -- the pixel index i
  hueIdx    : BitVec 22  -- `hue_i`
  raw       : Color
  phi       : F64        -- φ_i
  bright    : Byte       -- `b_i`
  accFrames : BitVec 64  -- STAT_FRAMES'
  accBytes  : BitVec 64  -- STAT_BYTES'
deriving DecidableEq, Repr

/-- The stage fields at reset (log 10). -/
def Stage.zero : Stage :=
  { pix := 0, hueIdx := 0, raw := { r := 0, g := 0, b := 0 }, phi := 0, bright := 0, accFrames := 0, accBytes := 0 }

/-- The MODEL's own fields (log 1, log 2): the environment's choices fixed ahead, oldest first, and the numbers of the
step and of the write attempt, the arguments of the free values that stand in where nothing is fixed ahead or stated
(log 11). -/
structure Env where
  turns    : List Turn
  accepts  : List Nat
  tick     : Nat
  attempts : Nat
deriving DecidableEq, Repr

/-- R60: a byte memory, as address and byte pairs; its canonical form is `Memory.wf`. -/
abbrev Memory := List Host.Cell

/-- The state of the machine. R20 lists the block's own state; R38 the ports; R64 the channel. -/
structure State where
  -- configuration registers (R21, R22)
  cfgN       : BitVec 17
  cfgMagic   : BitVec 24
  -- animation registers (R23, R25)
  hueBase    : BitVec 11
  phase      : F64
  -- header and frame buffer (R27, R28)
  hdr        : Header
  fb         : Memory
  -- sequencer (R29, R30); the stage tag of R82 is the model's own field (log 10)
  seq        : BitVec 3
  stg        : BitVec 3
  off        : BitVec 18
  -- statistics and report registers (R31 to R35)
  statFrames : BitVec 64
  statBytes  : BitVec 64
  tStart     : BitVec 64
  tLast      : BitVec 64
  rptFps     : BitVec 64
  rptBps     : BitVec 64
  -- the sticky mark REFUSED, with its reason (R205)
  refused    : Option RefuseReason
  -- `rpt_valid` (R39) and the report events, oldest first (R158)
  rptValid   : Bool
  reports    : List Report
  -- ports and channel
  ports      : Ports
  chan       : Channel
  -- the model's own fields
  stage      : Stage
  env        : Env
deriving DecidableEq, Repr

/-- Why a step stops with a fault: there is no such reason, because no operation has a fault outcome (R200). -/
inductive Fault where
deriving DecidableEq, Repr

/-- Why a step has no meaning. -/
inductive Refusal where
  /-- Raised by the arm of an operation that has no meaning yet. Safe: nothing can be proved of such a step. -/
  | notModelled (mnemonic : String)
deriving DecidableEq, Repr

/-- The outcome of an operation or of a step. -/
abbrev Result := Host.Outcome State Fault Refusal

/-- R43: the state after the reset step has executed, on the port values of the spec's own reset vector
(spec/95_test_vectors.md 2.8: `cfg_n` = 25, `cfg_magic` = 0x416461, `now_sec` = 100; log 6, log 7), with a clean
channel (R66). -/
def State.reset : State :=
  { cfgN := 25
    cfgMagic := 0x416461
    hueBase := 0
    phase := 0
    hdr := { b0 := 0x41, b1 := 0x64, b2 := 0x61, b3 := 0x00, b4 := 0x18, b5 := 0x4D }
    fb := []
    seq := 0b001
    stg := 0b000
    off := 0
    statFrames := 0
    statBytes := 0
    tStart := 100
    tLast := 100
    rptFps := 0
    rptBps := 0
    refused := none
    rptValid := false
    reports := []
    ports := { rst := .idle, cfgN := 25, cfgMagic := 0x416461, nowSec := 100 }
    chan := { pending := [], wire := [] }
    stage := Stage.zero
    env := { turns := [], accepts := [], tick := 0, attempts := 0 } }

end Sys2Proof.Machine
end

