-- ==== Sys2Proof/Machine/Params.lean ====
section
/-! DEFINITION. The numeric parameters of spec/00_scope.md R13 and the codes of spec/30_encoding.md R81, each under its
own name (U19; log 17). -/

namespace Sys2Proof.Machine

/-- R13 `HUE_PERIOD`. -/
def huePeriod : Nat := 1536
/-- R13 `HUE_STEP_PIXEL`. -/
def hueStepPixel : Nat := 40
/-- R13 `HUE_STEP_FRAME`. -/
def hueStepFrame : Nat := 5
/-- R13 `PHASE_STEP_PIXEL`: the binary64 value nearest 0.3. -/
def phaseStepPixel : F64 := 0x3FD3333333333333
/-- R13 `PHASE_STEP_FRAME`: the binary64 value nearest 0.03. -/
def phaseStepFrame : F64 := 0x3F9EB851EB851EB8
/-- R13 `CK_CONST`. -/
def ckConst : Byte := 0x55
/-- R13 `HDR_LEN`. -/
def hdrLen : Nat := 6
/-- R13, R109 `BRIGHT_TIE_BAND` is 1 / `tieBandInv` (log 4). -/
def tieBandInv : Nat := 2 ^ 20
/-- R10: the largest admitted pixel count. -/
def maxPixels : Nat := 65536
/-- R60: the number of frame-buffer addresses of the largest instance. -/
def fbSize : Nat := 196608
/-- R111: the divisor of the scaling stage. -/
def scaleDiv : Nat := 255

/-- R81. -/
def seqInit : BitVec 3 := 0b000
/-- R81. -/
def seqGen : BitVec 3 := 0b001
/-- R81. -/
def seqAdv : BitVec 3 := 0b010
/-- R81. -/
def seqDrain : BitVec 3 := 0b011
/-- R81. -/
def seqSend : BitVec 3 := 0b100
/-- R81. -/
def seqStats : BitVec 3 := 0b101

end Sys2Proof.Machine
end

