-- ==== Sys2Proof/Machine/Float.lean ====
section
/-! DEFINITION. Binary64 arithmetic on finite values (spec/00_scope.md R15, log 14): each operation computes the exact
result on integers and rounds it once, to nearest, ties to even. A finite value is held as the integer
`mag` in units of 2^-1074, with its sign. -/

namespace Sys2Proof.Machine

/-- The sign bit. -/
def F64.sign (x : F64) : Bool := x.getLsbD 63

/-- The biased exponent, bits 62..52. -/
def F64.expo (x : F64) : Nat := x.toNat / 2 ^ 52 % 2048

/-- The fraction, bits 51..0. -/
def F64.frac (x : F64) : Nat := x.toNat % 2 ^ 52

/-- R26: neither an infinity nor a NaN. -/
def F64.finite (x : F64) : Bool := F64.expo x != 2047

/-- The magnitude of a finite value in units of 2^-1074. -/
def F64.mag (x : F64) : Nat :=
  if F64.expo x = 0 then F64.frac x else (2 ^ 52 + F64.frac x) * 2 ^ (F64.expo x - 1)

/-- `n / d` rounded to the nearest integer, ties to the even one. -/
def roundDivEven (n d : Nat) : Nat :=
  if 2 * (n % d) < d then n / d
  else if d < 2 * (n % d) then n / d + 1
  else n / d + n / d % 2

/-- The exponent of the last place of the binary64 value nearest `a / 2^k`, above that of the smallest subnormal. -/
def lastPlace (a k : Nat) : Nat := Nat.log2 a + 1022 - k

/-- R15 `fl`, on a non-negative value `a / 2^k`: the low 63 bits of the nearest binary64 value. -/
def roundMag (a k : Nat) : Nat :=
  if a = 0 then 0
  else min (lastPlace a k * 2 ^ 52 + roundDivEven (a * 2 ^ 1074) (2 ^ (k + lastPlace a k))) 0x7FF0000000000000

/-- A value from its sign and its low 63 bits. -/
def F64.ofSignMag (neg : Bool) (m : Nat) : F64 := BitVec.ofNat 64 ((if neg then 2 ^ 63 else 0) + m)

/-- R15 `fl(i)` of a natural number. -/
def F64.ofNat (n : Nat) : F64 := F64.ofSignMag false (roundMag n 0)

/-- The value with its sign changed. -/
def F64.neg (x : F64) : F64 := x ^^^ 0x8000000000000000

/-- R15 `⊕`: an exact zero of operands of different sign is +0.0. -/
def F64.add (x y : F64) : F64 :=
  if F64.sign x = F64.sign y then F64.ofSignMag (F64.sign x) (roundMag (F64.mag x + F64.mag y) 1074)
  else if F64.mag y < F64.mag x then F64.ofSignMag (F64.sign x) (roundMag (F64.mag x - F64.mag y) 1074)
  else if F64.mag x < F64.mag y then F64.ofSignMag (F64.sign y) (roundMag (F64.mag y - F64.mag x) 1074)
  else 0

/-- R15 `⊖`. -/
def F64.sub (x y : F64) : F64 := F64.add x (F64.neg y)

/-- R15 `⊗`. -/
def F64.mul (x y : F64) : F64 :=
  F64.ofSignMag (F64.sign x != F64.sign y) (roundMag (F64.mag x * F64.mag y) 2148)

end Sys2Proof.Machine
end

