-- ==== Sys2Proof/Machine/ExactBrightness.lean ====
section
/-! DEFINITION. The exact real brightness of spec/41_generator.md R108, the band of R109 around a half-integer, and the
draw that R109 makes within it: a free value that exists for a phase within the exact band and for no other (log 3). -/

namespace Sys2Proof.Machine

/-- R15 `real(v)`: the exact value of a finite binary64. -/
def F64.value (x : F64) : ℚ := (if F64.sign x then -1 else 1) * (F64.mag x : ℚ) / 2 ^ 1074

/-- R108: `x = ((0.5 + 0.5 sin(real(φ)))^3) · 255`, an exact real. -/
noncomputable def brightExact (φ : F64) : ℝ := (1 / 2 + 1 / 2 * Real.sin (F64.value φ : ℝ)) ^ 3 * 255

/-- R109: the distance of a real from the half-integer of its unit interval. -/
noncomputable def tieDistance (x : ℝ) : ℝ := |x - ((⌊x⌋ : ℝ) + 1 / 2)|

/-- R109: `BRIGHT_TIE_BAND`. -/
noncomputable def tieBand : ℝ := 1 / (tieBandInv : ℝ)

/-- R109: a draw for the brightness of a phase: the upper or the lower neighbour. It carries the proof that `x` of the
phase is within the band, so that outside it there is none. -/
structure TieDraw (φ : F64) where
  up     : Bool
  inBand : tieDistance (brightExact φ) ≤ tieBand

end Sys2Proof.Machine

namespace Sys2Proof

/-- FREE VALUE (log 3). R109, U2: which neighbour the brightness of a phase within the band is; `none` stands for the
rounded one, and is the only value outside the band. A function of the phase, as D6 and U2 hold `bright`. -/
opaque Config.tieDraw (φ : F64) : Option (Machine.TieDraw φ)

end Sys2Proof
end

