-- ==== Sys2Proof/Machine/Brightness.lean ====
section
/-! DEFINITION. The cubic brightness of spec/41_generator.md R108 and R109 (log 3): the sine of the exact value of a
finite phase, computed in fixed point by halving the angle and doubling it back, and the rounding with its band.
The error of the computed sine is far below the band's width (Sys2Proof/Laws/Sine.lean). -/

namespace Sys2Proof.Machine

/-- How often the angle `a` · 2^-1074 is halved; with `2^m` a bound of the angle, the halved angle is at most 2^-(2m+122). -/
def sinHalvings (a : Nat) : Nat := 3 * (Nat.log2 a - 1073) + 122

/-- The fraction bits of the fixed-point sine of the angle `a` · 2^-1074. -/
def sinBits (a : Nat) : Nat := 2 * sinHalvings a + 126

/-- `n` doublings of the angle of a point (cosine, sine) held with `p` fraction bits. -/
def doubleAngle (p : Nat) (n : Nat) (z : Int × Int) : Int × Int :=
  match n with
  | 0 => z
  | k + 1 =>
    let w := doubleAngle p k z
    ((w.1 * w.1 - w.2 * w.2) / 2 ^ p, 2 * w.1 * w.2 / 2 ^ p)

/-- The halved angle with `sinBits a` fraction bits. -/
def halfAngle (a : Nat) : Nat := a * 2 ^ sinBits a / 2 ^ (1074 + sinHalvings a)

/-- The cosine and sine of the halved angle, to second order. -/
def smallAngle (a : Nat) : Int × Int :=
  (((2 ^ sinBits a - halfAngle a * halfAngle a / 2 ^ (sinBits a + 1) : Nat) : Int), (halfAngle a : Int))

/-- The sine of the angle `a` · 2^-1074, with `sinBits a` fraction bits. -/
def sinFixed (a : Nat) : Int := (doubleAngle (sinBits a) (sinHalvings a) (smallAngle a)).2

/-- `2^sinBits` · (1 + sin φ), of a finite φ. -/
def onePlusSin (x : F64) : Nat :=
  (2 ^ sinBits (F64.mag x) + (if F64.sign x then -sinFixed (F64.mag x) else sinFixed (F64.mag x)) : Int).toNat

/-- R108: the numerator of `x_i` = ((1/2 + 1/2 sin φ)^3) · 255. -/
def brightNum (x : F64) : Nat := 255 * onePlusSin x ^ 3

/-- R108: the denominator of `x_i`. -/
def brightDen (x : F64) : Nat := 2 ^ (3 * sinBits (F64.mag x) + 3)

/-- R109: whether `n / d` is so near a half-integer that the exact value it stands for may be within `BRIGHT_TIE_BAND`:
the band widened by 2^-100, the allowance for the error of the computed sine. Where it is not, the exact value is outside
the band (log 3). -/
def nearTie (n d : Nat) : Bool :=
  decide ((max (2 * (n % d)) d - min (2 * (n % d)) d) * tieBandInv * 2 ^ 100 ≤ 2 * d * (2 ^ 100 + tieBandInv))

/-- R108 `round(n / d)` = `floor(n / d + 1/2)`. -/
def roundHalfUp (n d : Nat) : Nat := (2 * n + d) / (2 * d)

/-- R109: `n / d` rounded, or, near a tie, the neighbour that a draw chooses. -/
def roundTie (n d : Nat) (draw : Option Bool) : Nat :=
  if nearTie n d then
    match draw with
    | some up => n / d + up.toNat
    | none => roundHalfUp n d
  else roundHalfUp n d

/-- R109: the brightness of a finite phase under a draw. -/
def brightDrawn (x : F64) (draw : Option (TieDraw x)) : Byte :=
  BitVec.ofNat 8 (roundTie (brightNum x) (brightDen x) (draw.map TieDraw.up))

/-- R108, R109: the brightness multiplier of a phase. -/
def bright (x : F64) : Byte :=
  if F64.finite x then brightDrawn x (Config.tieDraw x) else Config.brightNonFinite x

end Sys2Proof.Machine
end

