-- ==== Sys2Proof/Machine/Pixel.lean ====
section
/-! DEFINITION. The five stages of the generator as functions (spec/41_generator.md R101 to R111). -/

namespace Sys2Proof.Machine

/-- R102: `hue_i = HUE_BASE + 40 i`, not reduced, in 22 bits. -/
def hueIndex (base : BitVec 11) (i : Nat) : BitVec 22 := BitVec.ofNat 22 (base.toNat + hueStepPixel * i)

/-- R103: the sextant `(h >> 8) mod 6`. -/
def sextant (h : BitVec 22) : Nat := (h >>> 8).toNat % 6

/-- R103: the fraction `h & 255`, "rising". -/
def rising (h : BitVec 22) : Byte := h.setWidth 8

/-- R103: `255 - lo`, "falling". -/
def falling (h : BitVec 22) : Byte := 255 - rising h

/-- R105: the raw colour of a hue index. -/
def wheel (h : BitVec 22) : Color :=
  match sextant h with
  | 0 => { r := 255, g := rising h, b := 0 }
  | 1 => { r := falling h, g := 255, b := 0 }
  | 2 => { r := 0, g := 255, b := rising h }
  | 3 => { r := 0, g := falling h, b := 255 }
  | 4 => { r := rising h, g := 0, b := 255 }
  | _ => { r := 255, g := 0, b := falling h }

/-- R107: `φ_i = PHASE ⊕ (fl(i) ⊗ fl(0.3))`. -/
def pixelPhase (phase : F64) (i : Nat) : F64 := F64.add phase (F64.mul (F64.ofNat i) phaseStepPixel)

/-- R111: one component, `(raw_j · b) div 255`. -/
def scaleByte (raw b : Byte) : Byte := BitVec.ofNat 8 (raw.toNat * b.toNat / scaleDiv)

/-- R111: the three components. -/
def scaleColor (raw : Color) (b : Byte) : Color :=
  { r := scaleByte raw.r b, g := scaleByte raw.g b, b := scaleByte raw.b b }

/-- R61: component `j` of a colour: 0 red, 1 green, 2 blue. -/
def colorByte (c : Color) (j : Nat) : Byte := if j = 0 then c.r else if j = 1 then c.g else c.b

/-- R112: the final colour of pixel `i`. -/
def pixelColor (base : BitVec 11) (phase : F64) (i : Nat) : Color :=
  scaleColor (wheel (hueIndex base i)) (bright (pixelPhase phase i))

/-- R115: the hue base of the next frame. -/
def nextHue (base : BitVec 11) : BitVec 11 := BitVec.ofNat 11 ((base.toNat + hueStepFrame) % huePeriod)

/-- R115: the phase of the next frame. -/
def nextPhase (phase : F64) : F64 := F64.sub phase phaseStepFrame

end Sys2Proof.Machine
end

