-- ==== Sys2Proof/Machine/Operands.lean ====
section
/-! DEFINITION. What the operations read: the byte memory, the wire view and the configuration (spec/20_memory.md R60 to
R62, spec/30_encoding.md R87, R90). Every operand of every operation is fixed state; there are no operand forms. -/

namespace Sys2Proof.Machine

/-- R10, R145: the pixel count as a number. -/
def State.pixels (s : State) : Nat := s.cfgN.toNat

/-- R62, R145: `L = 6 + 3N`. -/
def State.frameLen (s : State) : Nat := hdrLen + 3 * s.pixels

/-- R149: `rem = L - OFF`. -/
def State.remaining (s : State) : Nat := s.frameLen - s.off.toNat

/-- What a memory lists at an address; nothing, where nothing has written. -/
def Memory.read (m : Memory) (a : Nat) : Option Byte :=
  match m with
  | [] => none
  | c :: r => if c.1 = a then some c.2 else Memory.read r a

/-- R16 `FB[a]`; a byte nothing has written holds a free value (R28, U1; log 5). -/
def State.fbByte (s : State) (a : Nat) : Byte := (Memory.read s.fb a).getD (Config.fbUnwritten a)

/-- R62: byte `o` of the header. -/
def Header.byte (h : Header) (o : Nat) : Byte :=
  match o with
  | 0 => h.b0
  | 1 => h.b1
  | 2 => h.b2
  | 3 => h.b3
  | 4 => h.b4
  | _ => h.b5

/-- R62: `W(o)`, of an offset `o < L`. -/
def State.wireByte (s : State) (o : Nat) : Byte :=
  if o < hdrLen then Header.byte s.hdr o else s.fbByte (o - hdrLen)

/-- R62: the wire view; an offset from `L` on does not exist. -/
def State.wireAt (s : State) (o : Nat) : Option Byte :=
  if o < s.frameLen then some (s.wireByte o) else none

/-- R149: the bytes `W(o)`, `W(o+1)`, .., `W(o+k-1)`. -/
def State.wireBytes (s : State) (o k : Nat) : List Byte := (List.range k).map fun j => s.wireByte (o + j)

/-- R144: the wire frame of the current frame. -/
def State.wireFrame (s : State) : List Byte := s.wireBytes 0 s.frameLen

/-- R87, R140: the count field, `(N - 1) mod 65536`; for N = 0 this is 0xFFFF (C1). -/
def countField (n : BitVec 17) : BitVec 16 := BitVec.ofNat 16 (n.toNat + 65535)

/-- R87, R140: the header of a pixel count and a magic word (R22: `CFG_MAGIC[0]` is bits 23..16). -/
def buildHeader (n : BitVec 17) (magic : BitVec 24) : Header :=
  let c := countField n
  { b0 := magic.extractLsb' 16 8
    b1 := magic.extractLsb' 8 8
    b2 := magic.extractLsb' 0 8
    b3 := c.extractLsb' 8 8
    b4 := c.extractLsb' 0 8
    b5 := c.extractLsb' 8 8 ^^^ c.extractLsb' 0 8 ^^^ ckConst }

/-- R65, U4: the number of bytes the channel is ready for at the next write attempt: the count fixed ahead, or a free
one (log 2). No step but an attempt changes it. -/
def State.channelCount (s : State) : Nat :=
  match s.env.accepts with
  | [] => Config.accepted s.env.attempts
  | k :: _ => k

/-- R149: the count k of a write attempt, within `[0, rem]`. -/
def State.acceptCount (s : State) : Nat := min s.channelCount s.remaining

end Sys2Proof.Machine
end

