-- ==== Sys2Proof/Machine/Flags.lean ====
section
/-! DEFINITION. Conditions. The block has no flag and no condition code (spec/10_state.md R36), so no operation computes
one; here are the ports that are conditions of the state (R38, R39) and the tests the operations make. -/

namespace Sys2Proof.Machine

/-- R38, R64: `tx_idle` is 1 exactly when CH_PENDING is empty. -/
def State.txIdle (s : State) : Bool := s.chan.pending.isEmpty

/-- R39: `tx_valid` is 1 exactly while `SEQ` = SEND and `OFF` < L. -/
def State.txValid (s : State) : Bool := decide (s.seq = seqSend ∧ s.off.toNat < s.frameLen)

/-- R38, R39: `tx_ready` at transfer `j` of the SEND step from this state, the transfers numbered from 0: 1 exactly when
the channel is ready for more than `j` bytes (log 2). -/
def State.txReadyAt (s : State) (j : Nat) : Bool := decide (j < s.channelCount)

/-- R38: `tx_ready` for the byte on offer, the first that the SEND step from this state would transfer (log 2). -/
def State.txReady (s : State) : Bool := s.txReadyAt 0

/-- R39: `tx_data`, which is `W(OFF)` while `tx_valid` is 1. DESIGN CHOICE (log 24): while `tx_valid` is 0, where R38 and
R39 give the port no value, it carries no byte. -/
def State.txData (s : State) : Option Byte := if s.txValid then s.wireAt s.off.toNat else none

/-- R155: the report test, `now_sec` > `T_LAST`. -/
def State.reportDue (s : State) : Bool := decide (s.tLast < s.ports.nowSec)

/-- R205: reasons 1 and 3 to 5 of a state without a meaning, in the rule's order; reason 2 is the sequencer's. -/
def State.refusalReason (s : State) : Option RefuseReason :=
  if maxPixels < s.pixels then some .pixelCount
  else if huePeriod ≤ s.hueBase.toNat then some .hueRange
  else if F64.finite s.phase = false then some .phaseNotFinite
  else if s.frameLen < s.off.toNat then some .offsetRange
  else none

/-- R155: a reported rate, `count div e` with `e = t - T_START`; where `e` is not positive (no run reaches it, R159)
the spec states no quotient (log 12). -/
def reportRate (count t tStart : BitVec 64) : BitVec 64 :=
  if tStart < t then count / (t - tStart) else Config.rateCorner count t tStart

end Sys2Proof.Machine
end

