-- ==== Sys2Proof/Machine/Ops.lean ====
section
/-! DEFINITION. The named operations over memory, registers, channel and ports that the meanings are made of. The block
takes no exception and returns from none (spec/60_exceptions.md R200, R208, R209); its one shared way out of an
operation is the refusal of R205, `State.refuse`. -/

namespace Sys2Proof.Machine

/-- R16 `FB[a] <- v`; the list stays sorted by address. -/
def Memory.write (m : Memory) (a : Nat) (v : Byte) : Memory :=
  match m with
  | [] => [(a, v)]
  | c :: r =>
    if a < c.1 then (a, v) :: c :: r
    else if a = c.1 then (a, v) :: r
    else c :: Memory.write r a v

/-- The canonical form: addresses strictly rising and within the frame buffer's 18-bit space (R60). An unlisted
address lists no value, so no entry can equal what it reads as. -/
abbrev Memory.wf (m : Memory) : Prop := m.Pairwise (fun x y => x.1 < y.1) ∧ ∀ c ∈ m, c.1 < fbSize

/-- R61, R111: the three bytes of pixel `i`. -/
def Memory.writePixel (m : Memory) (i : Nat) (c : Color) : Memory :=
  Memory.write (Memory.write (Memory.write m (3 * i) c.r) (3 * i + 1) c.g) (3 * i + 2) c.b

/-- R112: pixels 0 to `n - 1` of a frame. -/
def Memory.writeFrame (m : Memory) (base : BitVec 11) (phase : F64) (n : Nat) : Memory :=
  match n with
  | 0 => m
  | k + 1 => Memory.writePixel (Memory.writeFrame m base phase k) k (pixelColor base phase k)

/-- R16 `seq <- S`: the next operation is the whole operation `S`. -/
def State.goto (s : State) (q : BitVec 3) : State := { s with seq := q, stg := 0 }

/-- R205: set the sticky mark and change nothing else (log 9). -/
def State.refuse (s : State) (r : RefuseReason) : State := { s with refused := some r }

/-- R112: the frame buffer after the generator. -/
def State.setFb (s : State) (m : Memory) : State := { s with fb := m }

/-- R115: the animation registers. -/
def State.setAnimation (s : State) (h : BitVec 11) (p : F64) : State := { s with hueBase := h, phase := p }

/-- R30: the send offset. -/
def State.setOff (s : State) (o : Nat) : State := { s with off := BitVec.ofNat 18 o }

/-- R16 `emit`: bytes handed to the channel, in order (R64 accept). -/
def State.emit (s : State) (bs : List Byte) : State :=
  { s with chan := { s.chan with pending := s.chan.pending ++ bs } }

/-- R149: this attempt is over: the count fixed ahead for it is used up, and the attempt is counted (log 2). -/
def State.popAccept (s : State) : State :=
  { s with env := { s.env with accepts := s.env.accepts.tail, attempts := s.env.attempts + 1 } }

/-- R154: the two counters. -/
def State.setCounters (s : State) (frames bytes : BitVec 64) : State :=
  { s with statFrames := frames, statBytes := bytes }

/-- R154: STAT_FRAMES'. -/
def State.nextFrames (s : State) : BitVec 64 := s.statFrames + 1

/-- R154: STAT_BYTES'. -/
def State.nextBytes (s : State) : BitVec 64 := s.statBytes + BitVec.ofNat 64 s.frameLen

/-- R155, R158: the report on the counters `frames` and `bytes`, with its event; no report where none is due. -/
def State.report (s : State) (frames bytes : BitVec 64) : State :=
  let t := s.ports.nowSec
  if s.reportDue then
    let fps := reportRate frames t s.tStart
    let bps := reportRate bytes t s.tStart
    { s with rptFps := fps, rptBps := bps, tLast := t, rptValid := true,
             reports := s.reports ++ [{ fps := fps, bps := bps }] }
  else { s with rptValid := false }

/-- A stage is done: its results are kept and its tag is cleared (log 10). -/
def State.setStage (s : State) (st : Stage) : State := { s with stage := st, stg := 0 }

/-- The pixel index after pixel `i` of `n`: the loop of R112 begins again after the last one (log 11). -/
def nextPixel (i n : Nat) : Nat := if i + 1 < n then i + 1 else 0

/-- R205: an operation on a state without a meaning refuses; on any other it goes on (log 9). -/
def State.admitted (s : State) (go : Result) : Result :=
  match s.refusalReason with
  | some r => .next (s.refuse r)
  | none => go

/-- R102: `hue_i` of the stage's pixel; where the index names no pixel, a free value (log 11). -/
def State.stageHue (s : State) : BitVec 22 :=
  if s.stage.pix < s.pixels then hueIndex s.hueBase s.stage.pix else Config.hueNoPixel s.env.tick

/-- R107: `φ_i` of the stage's pixel; where the index names no pixel, a free value (log 11). -/
def State.stagePhase (s : State) : F64 :=
  if s.stage.pix < s.pixels then pixelPhase s.phase s.stage.pix else Config.phaseNoPixel s.env.tick

/-- R111: the frame buffer with the stage's scaled pixel stored; where the index names no pixel, `FB` has no byte of it
to store to (R60, R61; log 11). -/
def State.stageFb (s : State) : Memory :=
  if s.stage.pix < s.pixels then Memory.writePixel s.fb s.stage.pix (scaleColor s.stage.raw s.stage.bright) else s.fb

/-- R231: every register after the reset step, for an admitted configuration. While `rst` is asserted `SEQ` stays INIT
(R230, R181); when it has been released the INIT it called for is done (log 8). -/
def State.initialised (s : State) : State :=
  { s with
    cfgN := s.ports.cfgN
    cfgMagic := s.ports.cfgMagic
    hdr := buildHeader s.ports.cfgN s.ports.cfgMagic
    hueBase := 0
    phase := 0
    off := 0
    statFrames := 0
    statBytes := 0
    tStart := s.ports.nowSec
    tLast := s.ports.nowSec
    rptFps := 0
    rptBps := 0
    rptValid := false
    refused := none
    seq := if s.ports.rst = .asserted then seqInit else seqGen
    stg := 0
    stage := Stage.zero }

/-- A released reset has had its INIT (R230; log 8). -/
def State.initDone (s : State) : State :=
  { s with ports := { s.ports with rst := if s.ports.rst = .released then .idle else s.ports.rst } }

/-- R64 (b): the channel puts its oldest pending byte on the line; with none pending there is no such step. -/
def State.transmit (s : State) : State :=
  match s.chan.pending with
  | [] => s
  | b :: rest => { s with chan := { pending := rest, wire := s.chan.wire ++ [b] } }

/-- R185, R210, R230: a step of the host. While `rst` is asserted, `SEQ` is INIT. -/
def State.hostStep (s : State) (h : HostStep) : State :=
  match h with
  | .assertReset => State.goto { s with ports := { s.ports with rst := .asserted } } seqInit
  | .releaseReset =>
    { s with ports := { s.ports with rst := if s.ports.rst = .asserted then .released else s.ports.rst } }
  | .setConfig n magic => { s with ports := { s.ports with cfgN := n, cfgMagic := magic } }
  | .setTime t => { s with ports := { s.ports with nowSec := t } }

/-- R185: the agent that takes this step (log 1). -/
def State.turn (s : State) : Turn :=
  match s.env.turns with
  | [] => Config.turn s.env.tick
  | t :: _ => t

/-- A step begins: its turn is used up, the step is counted, and `rpt_valid` of the step before it ends (R39). -/
def State.beginStep (s : State) : State :=
  { s with rptValid := false, env := { s.env with turns := s.env.turns.tail, tick := s.env.tick + 1 } }

/-- R207, R230: the operation word executed: INIT while a reset is asserted or has its INIT to execute, else
`{SEQ, STG}` (R82). -/
def State.fetchWord (s : State) : BitVec 6 :=
  if s.ports.rst = .idle then s.seq ++ s.stg else 0

/-- R205: whether the sequencer takes no step: REFUSED is set and no reset has come. -/
def State.halted (s : State) : Bool := s.refused.isSome && decide (s.ports.rst = .idle)

/-- The state whose next step is the sequencer's and executes the operation word `w`. -/
def State.placeWord (s : State) (w : BitVec 6) : State :=
  { s with
    seq := w.extractLsb' 3 3
    stg := w.extractLsb' 0 3
    refused := none
    ports := { s.ports with rst := .idle }
    env := { s.env with turns := Turn.sequencer :: s.env.turns } }

end Sys2Proof.Machine
end

