-- ==== Sys2Proof/Machine/Generator.lean ====
section
/-! DEFINITION. The meanings of the generator family: GEN, its five stages, and ADV (spec/41_generator.md). -/

namespace Sys2Proof.Machine

/-- R112, R113 GEN: one whole frame. -/
def execGen (s : State) : Result :=
  s.admitted <| .next <| (s.setFb (Memory.writeFrame s.fb s.hueBase s.phase s.pixels)).goto seqAdv

/-- R102 GEN.HUE. -/
def execGenHue (s : State) : Result :=
  s.admitted <| .next <| s.setStage { s.stage with hueIdx := s.stageHue }

/-- R103, R105 GEN.WHEEL. -/
def execGenWheel (s : State) : Result :=
  s.admitted <| .next <| s.setStage { s.stage with raw := wheel s.stage.hueIdx }

/-- R107 GEN.PHASE. -/
def execGenPhase (s : State) : Result :=
  s.admitted <| .next <| s.setStage { s.stage with phi := s.stagePhase }

/-- R108, R109 GEN.BRIGHT. -/
def execGenBright (s : State) : Result :=
  s.admitted <| .next <| s.setStage { s.stage with bright := bright s.stage.phi }

/-- R111 GEN.SCALE: scale and store pixel i; the next pixel's index follows (log 11). -/
def execGenScale (s : State) : Result :=
  s.admitted <| .next <|
    (s.setFb s.stageFb).setStage { s.stage with pix := nextPixel s.stage.pix s.pixels }

/-- R115 ADV. -/
def execAdv (s : State) : Result :=
  s.admitted <| .next <| (s.setAnimation (nextHue s.hueBase) (nextPhase s.phase)).goto seqDrain

end Sys2Proof.Machine
end

