-- ==== Sys2Proof/Machine/Transmitter.lean ====
section
/-! DEFINITION. The meanings of the transmitter family: INIT, DRAIN, SEND, STATS and its two stages
(spec/42_transmitter.md; INIT also spec/70_reset_and_hazards.md R231). -/

namespace Sys2Proof.Machine

/-- R140, R231 INIT: refuse a pixel count above 65536 with nothing else done; else load and reset every register. -/
def execInit (s : State) : Result :=
  if maxPixels < s.ports.cfgN.toNat then .next (s.initDone.refuse .pixelCount)
  else .next s.initialised.initDone

/-- R147 DRAIN: complete when the channel is idle, else hold. -/
def execDrain (s : State) : Result :=
  s.admitted <| .next <| if s.txIdle then (s.setOff 0).goto seqSend else s

/-- R149 SEND: one write attempt of `k` bytes. -/
def execSend (s : State) : Result :=
  s.admitted <|
    if s.off.toNat = s.frameLen then .next (s.refuse .offsetRange)
    else
      let k := s.acceptCount
      .next <| (((s.emit (s.wireBytes s.off.toNat k)).setOff (s.off.toNat + k)).popAccept).goto
        (if s.off.toNat + k = s.frameLen then seqStats else seqSend)

/-- R156 STATS: accumulate, then report on the updated counters, in one step. -/
def execStats (s : State) : Result :=
  s.admitted <| .next <| ((s.setCounters s.nextFrames s.nextBytes).report s.nextFrames s.nextBytes).goto seqGen

/-- R154 STATS.ACC: the updated counters. -/
def execStatsAcc (s : State) : Result :=
  s.admitted <| .next <| s.setStage { s.stage with accFrames := s.nextFrames, accBytes := s.nextBytes }

/-- R155 STATS.RPT: the report on the counters STATS.ACC has updated. -/
def execStatsRpt (s : State) : Result :=
  s.admitted <| .next <| (s.report s.stage.accFrames s.stage.accBytes).setStage s.stage

end Sys2Proof.Machine
end

