-- ==== Sys2Proof/Machine/Dispatch.lean ====
section
/-! DEFINITION. exec: one arm per operation (spec/30_encoding.md R83). -/

namespace Sys2Proof.Machine

def exec (i : Instr) (s : State) : Host.Outcome State Fault Refusal :=
  match i with
  | .init => Sys2Proof.Machine.execInit s
  | .gen => Sys2Proof.Machine.execGen s
  | .genHue => Sys2Proof.Machine.execGenHue s
  | .genWheel => Sys2Proof.Machine.execGenWheel s
  | .genPhase => Sys2Proof.Machine.execGenPhase s
  | .genBright => Sys2Proof.Machine.execGenBright s
  | .genScale => Sys2Proof.Machine.execGenScale s
  | .adv => Sys2Proof.Machine.execAdv s
  | .drain => Sys2Proof.Machine.execDrain s
  | .send => Sys2Proof.Machine.execSend s
  | .stats => Sys2Proof.Machine.execStats s
  | .statsAcc => Sys2Proof.Machine.execStatsAcc s
  | .statsRpt => Sys2Proof.Machine.execStatsRpt s

end Sys2Proof.Machine
end

