-- ==== Sys2Proof/Machine/Sequencer.lean ====
section
/-! DEFINITION. A step of the machine: the turn of one agent (spec/00_scope.md R8, spec/43_loop.md R180 to R185). -/

namespace Sys2Proof.Machine

/-- R29, R181, R205: the sequencer's step: the operation its word names; a reserved word refuses (reason 2); a refused
block takes no step. -/
def sequencerStep (s : State) : Result :=
  if s.halted then .next s
  else
    match decodeWord s.fetchWord with
    | .ok i => exec i s
    | .error _ => .next (s.refuse .reservedCode)

/-- R8, R185: the step of the agent whose turn it is; no agent's step happens inside another's. -/
def agentStep (s : State) : Result :=
  match s.turn with
  | .sequencer => sequencerStep s.beginStep
  | .channelTx => .next s.beginStep.transmit
  | .host h => .next (s.beginStep.hostStep h)

/-- The state that runs the table word `w` at its next step; a word that is more than six bits is cut to its byte, and
a byte with an upper bit set names a reserved code (log 19). -/
def State.placeTableWord (s : State) (w : Nat) : State :=
  if w % 256 < 64 then s.placeWord (BitVec.ofNat 6 w) else s.placeWord 0x3F

end Sys2Proof.Machine
end

