-- ==== Sys2Proof/Machine/Step.lean ====
section
/-! DEFINITION. step, and the placing of an operation word where the next step executes it. -/

namespace Sys2Proof.Machine

/-- R7, R8: one step of the machine. -/
def step : State → Host.Outcome State Fault Refusal := Sys2Proof.Machine.agentStep

/-- The state with the table word `w` as the sequencer's next operation word (log 19). -/
def State.withFetchWord (s : State) (_nbits w : Nat) : State := s.placeTableWord w

end Sys2Proof.Machine
end

