-- ==== Sys2Proof/Safety.lean ====
section
/-! DEFINITION. The terms in which claims speak: correct rounding (spec/00_scope.md R15), the states with a
meaning (spec/60_exceptions.md R205), the invariant of a run from reset, the bytes handed to the channel, and the named
premises of the spec (R66, R212). The exact brightness is in Sys2Proof/Machine/ExactBrightness.lean. -/

namespace Sys2Proof.Machine

/-- R15: `z` is `fl(q)`: a finite value that no finite value is nearer to `q` than, and whose last bit is 0 where
another finite value is as near. -/
def F64.IsRounded (z : F64) (q : ℚ) : Prop :=
  F64.finite z = true ∧
  ∀ w : F64, F64.finite w = true →
    |F64.value z - q| ≤ |F64.value w - q| ∧
    (|F64.value w - q| = |F64.value z - q| → F64.value w ≠ F64.value z → z.getLsbD 0 = false)

/-- The least magnitude that rounding to nearest, ties to even, takes beyond the largest finite value (log 14). -/
def F64.overflow : ℚ := 2 ^ 1024 - 2 ^ 970

/-- R15: what an operation gives for the exact result `q`: `fl(q)`, wherever that is a finite value, as it is of every
`q` below the overflow threshold. -/
def F64.RoundsTo (z : F64) (q : ℚ) : Prop :=
  (|q| < F64.overflow → F64.finite z = true) ∧ (F64.finite z = true → F64.IsRounded z q)

/-- R205: a state none of the reasons 1 and 3 to 5 refuses. -/
abbrev State.Legal (s : State) : Prop :=
  s.pixels ≤ maxPixels ∧ s.hueBase.toNat < huePeriod ∧ F64.finite s.phase = true ∧ s.off.toNat ≤ s.frameLen

/-- R64, R65: every byte handed to the channel and kept, in order: those on the line, then those pending. -/
def State.handed (s : State) : List Byte := s.chan.wire ++ s.chan.pending

/-- R66 `ChannelCleanAtStart`. -/
abbrev ChannelCleanAtStart (s : State) : Prop := s.chan.pending = [] ∧ s.chan.wire = []

/-- What holds after the reset step and after every step from a state in which it holds. -/
structure State.Inv (s : State) : Prop where
  /-- the frame buffer's list is in its canonical form (R60) -/
  fbWf : Memory.wf s.fb
  /-- R21, R24, R26, R30: the registers hold legal values -/
  legal : s.Legal
  /-- R29, R84: `SEQ` is one of the six operations -/
  seqLegal : s.seq.toNat < 6
  /-- R82: the sequencer executes whole operations -/
  wholeOp : s.stg = 0
  /-- R149: `OFF` = L is never held in SEND -/
  sendOpen : s.seq = seqSend → s.off.toNat < s.frameLen
  /-- R156: STATS is reached with every byte of the frame accepted -/
  statsFull : s.seq = seqStats → s.off.toNat = s.frameLen
  /-- R141, R142 (a): the header is the one of the configuration -/
  header : s.hdr = buildHeader s.cfgN s.cfgMagic
  /-- R159: `T_LAST` ≥ `T_START` -/
  times : s.tStart ≤ s.tLast
  /-- R154: every frame counted adds L bytes, modulo 2^64 -/
  counted : s.statBytes = s.statFrames * BitVec.ofNat 64 s.frameLen
  /-- R205: reasons 2 to 5 never arise -/
  mark : s.refused = none ∨ s.refused = some .pixelCount
  /-- R230: while `rst` is asserted, and until its INIT has executed, `SEQ` is INIT -/
  resetSeq : s.ports.rst ≠ .idle → s.seq = seqInit
  /-- R151: the bytes of the current frame accepted so far are the last ones handed over -/
  delivered : s.seq = seqSend ∨ s.seq = seqStats → s.wireBytes 0 s.off.toNat <:+ s.handed

/-- Operations one after another, up to the first that does not answer a next state. -/
def runOps (is : List Instr) (s : State) : Result :=
  match is with
  | [] => .next s
  | i :: rest =>
    match exec i s with
    | .next t => runOps rest t
    | .fault f => .fault f
    | .refused r => .refused r

/-- R101: the five stages of one pixel, in order. -/
def pixelStages : List Instr := [.genHue, .genWheel, .genPhase, .genBright, .genScale]

/-- R101, R112: the stages of `n` pixels, one pixel after another. -/
def frameStages (n : Nat) : List Instr := (List.replicate n pixelStages).flatten

/-- R142 (c): the check a receiver makes of header bytes 3 to 5. -/
def receiverAccepts (b3 b4 b5 : Byte) : Prop := b3 ^^^ b4 ^^^ b5 = 0x55

/-- R112, R144: the payload of a frame, pixel by pixel in (R, G, B) order. -/
def framePayload (base : BitVec 11) (phase : F64) (n : Nat) : List Byte :=
  (List.range n).flatMap fun i =>
    [(pixelColor base phase i).r, (pixelColor base phase i).g, (pixelColor base phase i).b]

/-- R86, R144: the wire frame that comes `j` frames after `s` begins to generate one. -/
def State.frameAfter (s : State) (j : Nat) : List Byte :=
  [s.hdr.b0, s.hdr.b1, s.hdr.b2, s.hdr.b3, s.hdr.b4, s.hdr.b5] ++
    framePayload (nextHue^[j] s.hueBase) (nextPhase^[j] s.phase) s.pixels

/-- R185: the environment's choice for the next step: whose turn it is, and the count a write attempt finds. -/
def State.choose (s : State) (t : Turn) (k : Nat) : State :=
  { s with env := { s.env with turns := [t], accepts := [k] } }

/-- R9, R185: an infinite run under the environment's choices. -/
def IsRun (r : Nat → State) (t : Nat → Turn) (k : Nat → Nat) : Prop :=
  ∀ n, step ((r n).choose (t n) (k n)) = .next (r (n + 1))

/-- R212 `SequencerFair`: the sequencer eventually takes its next step. -/
def SequencerFair (t : Nat → Turn) : Prop := ∀ n, ∃ m, n ≤ m ∧ t m = .sequencer

/-- R212 `ChannelFair`: (a) a block in SEND eventually has an attempt of one byte or more, (b) a channel that holds a
byte eventually transmits. -/
def ChannelFair (r : Nat → State) (t : Nat → Turn) (k : Nat → Nat) : Prop :=
  (∀ n, (r n).seq = seqSend → ∃ m, n ≤ m ∧ ((r m).seq ≠ seqSend ∨ (t m = .sequencer ∧ 1 ≤ k m))) ∧
  (∀ n, (r n).chan.pending ≠ [] → ∃ m, n ≤ m ∧ t m = .channelTx)

end Sys2Proof.Machine
end

