-- ==== Sys2Proof/Certificates/Slice0/Obligations.lean ====
section
/-! DEFINITION. The statements for the provers, one `def Obligations.<Name> : Prop` each; OBLIGATIONS.json lists them with
the rules of spec/ they rest on. Where a statement speaks of a field that is the model's own, its docstring names the
log entry. -/

open Sys2Proof Sys2Proof.Machine

/-! ## Operation words (spec/30_encoding.md) -/

/-- R83: the operation map: each of the thirteen words, written out as the rule's bits, is read as its operation. The last
clause is the model's choice and not R83's (log 21): a table word is read from one byte, the word in its low six bits. -/
def Obligations.OperationMapIsDecoded : Prop :=
  decodeWord 0b000000 = .ok .init ∧ decodeWord 0b001000 = .ok .gen ∧ decodeWord 0b001001 = .ok .genHue ∧
  decodeWord 0b001010 = .ok .genWheel ∧ decodeWord 0b001011 = .ok .genPhase ∧ decodeWord 0b001100 = .ok .genBright ∧
  decodeWord 0b001101 = .ok .genScale ∧ decodeWord 0b010000 = .ok .adv ∧ decodeWord 0b011000 = .ok .drain ∧
  decodeWord 0b100000 = .ok .send ∧ decodeWord 0b101000 = .ok .stats ∧ decodeWord 0b101001 = .ok .statsAcc ∧
  decodeWord 0b101010 = .ok .statsRpt ∧ decodeTableWord 8 0x20 = some .send

/-- R82, R83: decoding and encoding agree in both directions: an operation's word is read as that operation, and no
other word is. -/
def Obligations.DecodeEncodeAgree : Prop :=
  ∀ (i : Instr) (w : BitVec 6), decodeWord w = .ok i ↔ w = encode i

/-- R84: the reserved words, clause by clause, are exactly those that decode to no operation. -/
def Obligations.ReservedWordsAreNoOperation : Prop :=
  ∀ seq stg : BitVec 3,
    (∃ e, decodeWord (opword seq stg) = .error e) ↔
      (6 ≤ seq.toNat ∨
       ((seq.toNat = 0 ∨ seq.toNat = 2 ∨ seq.toNat = 3 ∨ seq.toNat = 4) ∧ stg.toNat ≠ 0) ∨
       (seq.toNat = 1 ∧ 6 ≤ stg.toNat) ∨
       (seq.toNat = 5 ∧ 3 ≤ stg.toNat))

/-! ## The step -/

/-- A step of the sequencer runs the operation its word names: the word is `{SEQ, STG}`, or INIT's while a reset is
asserted or waits for its INIT. Around the operation the step uses up the turn, counts the step and ends `rpt_valid`
of the step before (logs 1, 8, 10, 15). -/
def Obligations.StepRunsTheDecodedOperation : Prop :=
  ∀ (s : State) (i : Instr), s.turn = .sequencer → (s.refused = none ∨ s.ports.rst ≠ .idle) →
    decodeWord (if s.ports.rst = .idle then opword s.seq s.stg else 0) = .ok i →
    step s = exec i { s with
      rptValid := false
      env := { s.env with turns := s.env.turns.tail, tick := s.env.tick + 1 } }

/-- R205, reason 2: a sequencer that meets a reserved operation word sets the sticky mark and changes nothing else but
what every step changes (logs 1, 9, 15). -/
def Obligations.ReservedCodeIsRefused : Prop :=
  ∀ (s : State) (e : DecodeError), s.turn = .sequencer → s.refused = none → s.ports.rst = .idle →
    decodeWord (opword s.seq s.stg) = .error e →
    step s = .next { s with
      refused := some .reservedCode
      rptValid := false
      env := { s.env with turns := s.env.turns.tail, tick := s.env.tick + 1 } }

/-- R205: a refused block takes no further step until a reset: the sequencer's turn passes with no register, memory byte
or channel byte changed (logs 1, 8, 9, 15). -/
def Obligations.RefusedBlockTakesNoStep : Prop :=
  ∀ s : State, s.turn = .sequencer → s.refused ≠ none → s.ports.rst = .idle →
    step s = .next { s with
      rptValid := false
      env := { s.env with turns := s.env.turns.tail, tick := s.env.tick + 1 } }

/-- R205, reasons 1 and 3 to 5: every operation but INIT, on a state whose registers have no meaning, sets the mark and
changes nothing else; and so does SEND with every byte accepted. The rule names the reasons; that each operation looks at all of them is the model's reading
(log 9). -/
def Obligations.StatesWithoutMeaningAreRefused : Prop :=
  ∀ (i : Instr) (s : State), i ≠ .init →
    (65536 < s.cfgN.toNat → exec i s = .next { s with refused := some .pixelCount }) ∧
    (s.cfgN.toNat ≤ 65536 → 1536 ≤ s.hueBase.toNat → exec i s = .next { s with refused := some .hueRange }) ∧
    (s.cfgN.toNat ≤ 65536 → s.hueBase.toNat < 1536 → F64.expo s.phase = 2047 →
      exec i s = .next { s with refused := some .phaseNotFinite }) ∧
    (s.cfgN.toNat ≤ 65536 → s.hueBase.toNat < 1536 → F64.expo s.phase ≠ 2047 → 6 + 3 * s.cfgN.toNat < s.off.toNat →
      exec i s = .next { s with refused := some .offsetRange }) ∧
    (i = .send → s.Legal → s.off.toNat = 6 + 3 * s.cfgN.toNat → exec i s = .next { s with refused := some .offsetRange })

/-- R207, R230, R231: while `rst` is asserted, or has been released with its INIT still to execute, a sequencer step
executes INIT whatever `SEQ` held. With an admitted pixel count every register of R231 takes its value; `SEQ` stays at
INIT while `rst` is asserted, and goes to GEN with the line idle when it has been released; `FB`, the channel (R188,
R233), the report events and the other ports are as they were. Any other pixel count is refused with no register
written. Asserting `rst` puts `SEQ` to INIT and changes no other register. (That the line has three values and when its
INIT executes is the model's, log 8; so are the turn, the stage fields and tag, `rpt_valid` in every step, and the mark's
reason, logs 1, 9, 10, 15, 23.) -/
def Obligations.ResetTakesPriority : Prop :=
  (∀ s : State, s.turn = .sequencer → s.ports.rst ≠ .idle → s.ports.cfgN.toNat ≤ 65536 →
    step s = .next { s with
      cfgN := s.ports.cfgN, cfgMagic := s.ports.cfgMagic, hdr := buildHeader s.ports.cfgN s.ports.cfgMagic
      hueBase := 0, phase := 0x0000000000000000, off := 0, statFrames := 0, statBytes := 0
      tStart := s.ports.nowSec, tLast := s.ports.nowSec, rptFps := 0, rptBps := 0, rptValid := false, refused := none
      seq := if s.ports.rst = .asserted then 0b000 else 0b001
      stg := 0, stage := Stage.zero
      ports := { s.ports with rst := if s.ports.rst = .asserted then .asserted else .idle }
      env := { s.env with turns := s.env.turns.tail, tick := s.env.tick + 1 } }) ∧
  (∀ s : State, s.turn = .sequencer → s.ports.rst ≠ .idle → 65536 < s.ports.cfgN.toNat →
    step s = .next { s with
      refused := some .pixelCount, rptValid := false
      ports := { s.ports with rst := if s.ports.rst = .asserted then .asserted else .idle }
      env := { s.env with turns := s.env.turns.tail, tick := s.env.tick + 1 } }) ∧
  (∀ s : State, s.turn = .host .assertReset →
    step s = .next { s with
      seq := 0b000, stg := 0, rptValid := false
      ports := { s.ports with rst := .asserted }
      env := { s.env with turns := s.env.turns.tail, tick := s.env.tick + 1 } })

/-- R64 (b), R65: the channel's own step puts the oldest pending byte on the line, and with no byte pending it has none;
nothing else changes, but that `rpt_valid` of the step before ends (R39; that it ends in the channel's step too is the
model's reading, log 15), and the turn and the count of steps are the model's (logs 1, 16). -/
def Obligations.ChannelTransmitsTheOldestByte : Prop :=
  ∀ s : State, s.turn = .channelTx →
    (∀ b rest, s.chan.pending = b :: rest →
      step s = .next { s with
        chan := { pending := rest, wire := s.chan.wire ++ [b] }
        rptValid := false
        env := { s.env with turns := s.env.turns.tail, tick := s.env.tick + 1 } }) ∧
    (s.chan.pending = [] →
      step s = .next { s with
        rptValid := false
        env := { s.env with turns := s.env.turns.tail, tick := s.env.tick + 1 } })

/-! ## Reset and the header -/

/-- R43: the values after the reset step, in terms of the ports, whatever the ports hold. The port values themselves
are the model's choice (log 6) and are not stated. -/
def Obligations.ValuesAfterReset : Prop :=
  State.reset.cfgN = State.reset.ports.cfgN ∧ State.reset.cfgMagic = State.reset.ports.cfgMagic ∧
  State.reset.hdr = buildHeader State.reset.cfgN State.reset.cfgMagic ∧ State.reset.hueBase = 0 ∧
  State.reset.phase = 0x0000000000000000 ∧ State.reset.seq = 0b001 ∧ State.reset.off = 0 ∧
  State.reset.statFrames = 0 ∧ State.reset.statBytes = 0 ∧ State.reset.tStart = State.reset.ports.nowSec ∧
  State.reset.tLast = State.reset.ports.nowSec ∧ State.reset.rptFps = 0 ∧ State.reset.rptBps = 0 ∧
  State.reset.rptValid = false ∧ State.reset.txValid = false ∧ State.reset.refused = none ∧
  ChannelCleanAtStart State.reset

/-- R43, R231: the reset state is what INIT leaves when `rst` has just been released, from any state with the reset state's
other ports and environment, an unwritten frame buffer, no report event and a clean channel, whatever its registers
held. The port values are the model's (logs 6, 7); so are the released line that INIT leaves idle (log 8), the stage
fields and the tag it puts to 0 (logs 10, 23), the report events and the environment it keeps (logs 1, 2, 15, 23), and
the frame buffer that lists nothing (log 5). -/
def Obligations.ResetIsWhatInitLeaves : Prop :=
  ∀ s : State, s.ports = { State.reset.ports with rst := .released } → s.fb = [] → s.reports = [] →
    ChannelCleanAtStart s → s.env = State.reset.env → exec .init s = .next State.reset

/-- R231: INIT. A pixel count above 65536 is refused: the mark is set and no register is written. Any other is loaded with
the magic word, and every register of the rule takes its value; FB, the channel and the ports the host drives are left
as they are. The model's own (not R231's): a reset line just released is idle after INIT, and `SEQ` stays INIT while it
is still asserted (log 8); the mark holds its reason (log 9); `rpt_valid` ends and the report events are kept
(logs 15, 23). -/
def Obligations.InitLoadsAndResets : Prop :=
  (∀ s : State, 65536 < s.ports.cfgN.toNat →
    exec .init s = .next { s with
      refused := some .pixelCount
      ports := { s.ports with rst := if s.ports.rst = .released then .idle else s.ports.rst } }) ∧
  (∀ s : State, s.ports.cfgN.toNat ≤ 65536 →
    ∃ t, exec .init s = .next t ∧
      t.cfgN = s.ports.cfgN ∧ t.cfgMagic = s.ports.cfgMagic ∧
      t.hdr = buildHeader s.ports.cfgN s.ports.cfgMagic ∧
      t.hueBase = 0 ∧ t.phase = 0x0000000000000000 ∧ t.off = 0 ∧ t.statFrames = 0 ∧ t.statBytes = 0 ∧
      t.tStart = s.ports.nowSec ∧ t.tLast = s.ports.nowSec ∧ t.rptFps = 0 ∧ t.rptBps = 0 ∧
      t.refused = none ∧ t.rptValid = false ∧ t.seq = (if s.ports.rst = .asserted then 0b000 else 0b001) ∧
      t.fb = s.fb ∧ t.chan = s.chan ∧ t.reports = s.reports ∧
      t.ports = { s.ports with rst := if s.ports.rst = .released then .idle else s.ports.rst })

/-- R140: the header INIT builds: the magic word's bytes, the count `(N - 1) mod 65536` in big-endian order, and the
XOR of its two bytes with 0x55. -/
def Obligations.InitBuildsTheHeader : Prop :=
  ∀ s : State, s.ports.cfgN.toNat ≤ 65536 →
    ∃ t, exec .init s = .next t ∧
      t.hdr.b0 = s.ports.cfgMagic.extractLsb' 16 8 ∧ t.hdr.b1 = s.ports.cfgMagic.extractLsb' 8 8 ∧
      t.hdr.b2 = s.ports.cfgMagic.extractLsb' 0 8 ∧
      (256 * t.hdr.b3.toNat + t.hdr.b4.toNat : ℤ) = ((s.ports.cfgN.toNat : ℤ) - 1) % 65536 ∧
      t.hdr.b5 = t.hdr.b3 ^^^ t.hdr.b4 ^^^ 0x55

/-- R89: a receiver recovers N from bytes 3 and 4 as `{byte3, byte4} + 1`, for 1 ≤ N ≤ 65536. -/
def Obligations.ReceiverRecoversThePixelCount : Prop :=
  ∀ (n : BitVec 17) (m : BitVec 24), 1 ≤ n.toNat → n.toNat ≤ 65536 →
    256 * (buildHeader n m).b3.toNat + (buildHeader n m).b4.toNat + 1 = n.toNat

/-- R143: the header of N = 0 is the header of N = 65536, with FF FF 55 after the magic word, and no other two admitted
pixel counts share a header.
(An inference the spec draws itself.) -/
def Obligations.HeaderOfNoPixelsIsThatOfTheMost : Prop :=
  (∀ (n k : BitVec 17) (m : BitVec 24), n.toNat ≤ 65536 → k.toNat ≤ 65536 →
    (buildHeader n m = buildHeader k m ↔
      n = k ∨ (n.toNat = 0 ∧ k.toNat = 65536) ∨ (n.toNat = 65536 ∧ k.toNat = 0))) ∧
  (∀ m : BitVec 24, (buildHeader 0 m).b3 = 0xFF ∧ (buildHeader 0 m).b4 = 0xFF ∧ (buildHeader 0 m).b5 = 0x55)

/-- R142 (c): of a header received with errors `e3`, `e4`, `e5` in bytes 3 to 5, the receiver's check accepts exactly
those whose errors cancel in every bit position.
(An inference the spec draws itself.) -/
def Obligations.ChecksumMissesExactlyCancellingErrors : Prop :=
  ∀ (n : BitVec 17) (m : BitVec 24) (e3 e4 e5 : Byte),
    receiverAccepts ((buildHeader n m).b3 ^^^ e3) ((buildHeader n m).b4 ^^^ e4) ((buildHeader n m).b5 ^^^ e5) ↔
      e3 ^^^ e4 ^^^ e5 = 0

/-- R141: no operation but INIT writes `HDR`, and no step of any agent does but the sequencer's with INIT. -/
def Obligations.OnlyInitWritesTheHeader : Prop :=
  (∀ (i : Instr) (s t : State), i ≠ .init → exec i s = .next t → t.hdr = s.hdr) ∧
  (∀ s t : State, step s = .next t → t.hdr ≠ s.hdr →
    s.turn = .sequencer ∧ decodeWord (if s.ports.rst = .idle then opword s.seq s.stg else 0) = .ok .init)

/-! ## The generator -/

/-- R103, R105: the raw colour of a hue index: sextant `(h >> 8) mod 6`, rising `h & 255`, falling `255 - lo`. -/
def Obligations.WheelColours : Prop :=
  ∀ h : BitVec 22,
    let sx := h.toNat / 256 % 6
    let lo := h.toNat % 256
    ((wheel h).r.toNat, (wheel h).g.toNat, (wheel h).b.toNat) =
      if sx = 0 then (255, lo, 0)
      else if sx = 1 then (255 - lo, 255, 0)
      else if sx = 2 then (0, 255, lo)
      else if sx = 3 then (0, 255 - lo, 255)
      else if sx = 4 then (lo, 0, 255)
      else (255, 0, 255 - lo)

/-- R104: the wheel depends on the hue index modulo 1536 alone, and the incremental hue `h_0 = HUE_BASE`,
`h_(i+1) = (h_i + 40) mod 1536` gives the same colours.
(An inference the spec draws itself.) -/
def Obligations.WheelHasPeriod1536 : Prop :=
  (∀ h : ℕ, h / 256 % 6 = h % 1536 / 256 ∧ h % 256 = h % 1536 % 256) ∧
  (∀ h : BitVec 22, wheel h = wheel (BitVec.ofNat 22 (h.toNat % 1536))) ∧
  (∀ (base : BitVec 11) (i : ℕ), base.toNat < 1536 → i < 65536 →
    wheel (hueIndex base i) = wheel (BitVec.ofNat 22 ((fun h : ℕ => (h + 40) % 1536)^[i] base.toNat)))

/-- R106: the wheel as a table of 1536 entries: (a) in every entry one component is 255 and one is 0; (b) an entry and the
next, cyclically, are equal at a sextant edge and else differ by 1 in exactly one component, and no other two entries
are equal; (c) the entries at the sextant starts.
(An inference the spec draws itself.) -/
def Obligations.WheelIsSaturatedAndContinuous : Prop :=
  (∀ h < 1536,
    let w := fun k : ℕ => wheel (BitVec.ofNat 22 k)
    ((w h).r = 255 ∨ (w h).g = 255 ∨ (w h).b = 255) ∧ ((w h).r = 0 ∨ (w h).g = 0 ∨ (w h).b = 0) ∧
    (h % 256 = 255 → w ((h + 1) % 1536) = w h) ∧
    (h % 256 ≠ 255 →
      |((w (h + 1)).r.toNat : ℤ) - (w h).r.toNat| + |((w (h + 1)).g.toNat : ℤ) - (w h).g.toNat| +
        |((w (h + 1)).b.toNat : ℤ) - (w h).b.toNat| = 1) ∧
    (∀ g < 1536, w g = w h →
      g = h ∨ (h % 256 = 255 ∧ g = (h + 1) % 1536) ∨ (g % 256 = 255 ∧ h = (g + 1) % 1536))) ∧
  wheel 0 = ⟨255, 0, 0⟩ ∧ wheel 256 = ⟨255, 255, 0⟩ ∧ wheel 512 = ⟨0, 255, 0⟩ ∧ wheel 768 = ⟨0, 255, 255⟩ ∧
  wheel 1024 = ⟨0, 0, 255⟩ ∧ wheel 1280 = ⟨255, 0, 255⟩

/-- R15: the model's binary64 operations are correctly rounded, for all finite operands: the result is finite wherever
the exact result is below the overflow threshold (log 14), and a finite result is the nearest finite value to the exact
result, ties to even. -/
def Obligations.FloatOperationsAreCorrectlyRounded : Prop :=
  ∀ x y : F64, F64.finite x = true → F64.finite y = true →
    F64.RoundsTo (F64.add x y) (F64.value x + F64.value y) ∧
    F64.RoundsTo (F64.sub x y) (F64.value x - F64.value y) ∧
    F64.RoundsTo (F64.mul x y) (F64.value x * F64.value y)

/-- R13: `PHASE_STEP_PIXEL` and `PHASE_STEP_FRAME` are the binary64 values nearest 0.3 and 0.03. -/
def Obligations.PhaseStepsAreNearest : Prop :=
  F64.IsRounded phaseStepPixel (3 / 10) ∧ F64.IsRounded phaseStepFrame (3 / 100)

/-- R107: the phase of a pixel: the product `i · 0.3` rounded, then the sum rounded, both in binary64, with a finite
result; pixel 0 has the frame's phase itself, unless that is -0.0. -/
def Obligations.PixelPhaseIsRoundedTwice : Prop :=
  ∀ (phase : F64) (i : ℕ), F64.finite phase = true → i < 65536 →
    (∃ p : F64, F64.IsRounded p (i * F64.value phaseStepPixel) ∧
      F64.IsRounded (pixelPhase phase i) (F64.value phase + F64.value p)) ∧
    (phase ≠ 0x8000000000000000 → pixelPhase phase 0 = phase)

/-- R109: the brightness of a finite phase, against the exact real `x = ((0.5 + 0.5 sin φ)^3) · 255` of R108: outside the
band of 2^-20 around a half-integer it is `x` rounded; within it, it is a draw of the two neighbours: it is one of them,
and each of them is what `bright` gives under some draw (the draw is a free value of the phase, log 3). -/
def Obligations.BrightnessFollowsTheCubeLaw : Prop :=
  ∀ φ : F64, F64.finite φ = true →
    (1 / 2 ^ 20 < tieDistance (brightExact φ) → ((bright φ).toNat : ℤ) = ⌊brightExact φ + 1 / 2⌋) ∧
    (tieDistance (brightExact φ) ≤ 1 / 2 ^ 20 →
      (((bright φ).toNat : ℤ) = ⌊brightExact φ⌋ ∨ ((bright φ).toNat : ℤ) = ⌊brightExact φ⌋ + 1) ∧
      bright φ = brightDrawn φ (Config.tieDraw φ) ∧
      (∃ d, ((brightDrawn φ d).toNat : ℤ) = ⌊brightExact φ⌋) ∧
      (∃ d, ((brightDrawn φ d).toNat : ℤ) = ⌊brightExact φ⌋ + 1))

/-- R110 (c), (d): bright enough a sine gives 255, dark enough a sine gives 0, and a sine of 0 gives 32.
(An inference the spec draws itself.) -/
def Obligations.BrightnessExtremes : Prop :=
  ∀ φ : F64, F64.finite φ = true →
    (9987 / 10000 ≤ Real.sin (F64.value φ : ℝ) → bright φ = 255) ∧
    (Real.sin (F64.value φ : ℝ) ≤ -7497 / 10000 → bright φ = 0) ∧
    (Real.sin (F64.value φ : ℝ) = 0 → bright φ = 32)

/-- R110 (b): the brightness does not fall when the sine rises, unless both phases are within the band of a
half-integer.
(An inference the spec draws itself.) -/
def Obligations.BrightnessIsMonotone : Prop :=
  ∀ φ ψ : F64, F64.finite φ = true → F64.finite ψ = true →
    Real.sin (F64.value φ : ℝ) ≤ Real.sin (F64.value ψ : ℝ) →
    (1 / 2 ^ 20 < tieDistance (brightExact φ) ∨ 1 / 2 ^ 20 < tieDistance (brightExact ψ)) →
    (bright φ).toNat ≤ (bright ψ).toNat

/-- R111: the scaled components: `(raw · b) div 255`, which never exceeds the raw value or the brightness; a raw 255
gives the brightness itself. -/
def Obligations.ScalingTruncates : Prop :=
  ∀ (raw : Color) (b : Byte) (j : ℕ),
    (colorByte (scaleColor raw b) j).toNat = (colorByte raw j).toNat * b.toNat / 255 ∧
    (colorByte (scaleColor raw b) j).toNat ≤ min (colorByte raw j).toNat b.toNat ∧
    (colorByte raw j = 255 → colorByte (scaleColor raw b) j = b)

/-- R102, R105, R107, R108: what the stage words GEN.HUE, GEN.WHEEL, GEN.PHASE and GEN.BRIGHT compute, for a pixel index
that names a pixel. That a stage word has a step of its own, and the fields its operand and result stand in, are the
model's (log 10). -/
def Obligations.StagesComputeTheirResults : Prop :=
  ∀ s : State, s.Legal → s.stage.pix < s.pixels →
    (∃ h : BitVec 22, h.toNat = s.hueBase.toNat + 40 * s.stage.pix ∧
      exec .genHue s = .next { s with stage := { s.stage with hueIdx := h }, stg := 0 }) ∧
    exec .genWheel s = .next { s with stage := { s.stage with raw := wheel s.stage.hueIdx }, stg := 0 } ∧
    exec .genPhase s = .next { s with stage := { s.stage with phi := pixelPhase s.phase s.stage.pix }, stg := 0 } ∧
    exec .genBright s = .next { s with stage := { s.stage with bright := bright s.stage.phi }, stg := 0 }

/-- R111: what the stage word GEN.SCALE stores: the three scaled components at `FB[3i]`, `FB[3i+1]`, `FB[3i+2]`; every
other byte reads as before, and nothing else changes but the model's stage fields (logs 10, 11). -/
def Obligations.ScaleStageStoresOnePixel : Prop :=
  ∀ s : State, s.Legal → s.stage.pix < s.pixels →
    ∃ m st, exec .genScale s = .next { s with fb := m, stage := st, stg := 0 } ∧
      (∀ j < 3, ∃ v : Byte, Memory.read m (3 * s.stage.pix + j) = some v ∧
        v.toNat = (colorByte s.stage.raw j).toNat * s.stage.bright.toNat / 255) ∧
      (∀ a, (a < 3 * s.stage.pix ∨ 3 * s.stage.pix + 3 ≤ a) → Memory.read m a = Memory.read s.fb a)

/-- R200: a stage completes also where the pixel index names no pixel. What the spec states no value for is free there,
and the rest of the effect is as ever: GEN.HUE and GEN.PHASE write their result and nothing else, GEN.SCALE stores no
byte, because `FB` has none of such a pixel (R60, R61), and the model's index begins again (logs 10, 11). GEN.WHEEL and
GEN.BRIGHT read no index. -/
def Obligations.StageWithoutAPixelRuns : Prop :=
  ∀ s : State, s.Legal → s.pixels ≤ s.stage.pix →
    (∃ h : BitVec 22, exec .genHue s = .next { s with stage := { s.stage with hueIdx := h }, stg := 0 }) ∧
    (∃ p : F64, exec .genPhase s = .next { s with stage := { s.stage with phi := p }, stg := 0 }) ∧
    exec .genScale s = .next { s with stage := { s.stage with pix := 0 }, stg := 0 } ∧
    exec .genWheel s = .next { s with stage := { s.stage with raw := wheel s.stage.hueIdx }, stg := 0 } ∧
    exec .genBright s = .next { s with stage := { s.stage with bright := bright s.stage.phi }, stg := 0 }

/-- R112, R113: GEN, for every admitted N, 0 among them. Byte `FB[3i + j]` of every pixel i < N is
`(raw_j · b) div 255` for the raw colour of `HUE_BASE + 40 i` and the brightness of the pixel's phase; every other byte
reads as before; `SEQ` is ADV; no register changes (the tag STG is the model's own, log 10). -/
def Obligations.GenBuildsTheFrame : Prop :=
  ∀ s : State, s.Legal →
    ∃ m, exec .gen s = .next { s with fb := m, seq := 0b010, stg := 0 } ∧
      (∀ i < s.pixels, ∀ j < 3, ∃ h : BitVec 22, h.toNat = s.hueBase.toNat + 40 * i ∧
        ∃ v : Byte, Memory.read m (3 * i + j) = some v ∧
          v.toNat = (colorByte (wheel h) j).toNat * (bright (pixelPhase s.phase i)).toNat / 255) ∧
      (∀ a, 3 * s.pixels ≤ a → Memory.read m a = Memory.read s.fb a) ∧
      (s.pixels = 0 → m = s.fb)

/-- R100: GEN is a function of `CFG_N`, `HUE_BASE` and `PHASE` alone: two legal states that agree in these get the same
frame, byte for byte, and keep their animation registers. -/
def Obligations.GenDependsOnAnimationAndCountOnly : Prop :=
  ∀ s s' t t' : State, s.Legal → s'.Legal → s.cfgN = s'.cfgN → s.hueBase = s'.hueBase → s.phase = s'.phase →
    exec .gen s = .next t → exec .gen s' = .next t' →
    (∀ a < 3 * s.pixels, Memory.read t.fb a = Memory.read t'.fb a) ∧
    t.hueBase = s.hueBase ∧ t.phase = s.phase

/-- R101, R112: the five stages of every pixel, one pixel after another, leave the very frame buffer that GEN leaves
(the stage fields are the model's, logs 10 and 11). -/
def Obligations.StagesOfEveryPixelMakeTheFrame : Prop :=
  ∀ s : State, s.Legal → s.stage.pix = 0 →
    ∃ t u, runOps (frameStages s.pixels) s = .next t ∧ exec .gen s = .next u ∧ t.fb = u.fb ∧ t.stage.pix = 0

/-- R115: ADV: the hue base advances by 5 modulo 1536, the phase by the rounded subtraction of `PHASE_STEP_FRAME`,
`SEQ` is DRAIN, and nothing else changes (the tag STG is the model's own, log 10). -/
def Obligations.AdvAdvancesTheAnimation : Prop :=
  ∀ s : State, s.Legal →
    ∃ h p, exec .adv s = .next { s with hueBase := h, phase := p, seq := 0b011, stg := 0 } ∧
      h.toNat = (s.hueBase.toNat + 5) % 1536 ∧
      F64.IsRounded p (F64.value s.phase - F64.value phaseStepFrame)

/-- R116 (a): after k frames from hue 0 the hue base is 5k modulo 1536, and it is 0 again exactly after every 1536
frames.
(An inference the spec draws itself.) -/
def Obligations.HueVisitsTheWholeWheel : Prop :=
  ∀ k : ℕ, ((nextHue^[k]) 0).toNat = 5 * k % 1536 ∧ (((nextHue^[k]) 0) = 0 ↔ 1536 ∣ k)

/-- R25, R116 (c): the phase never grows; it falls strictly from every value in (-2^48, 0]; and at -2^48 it stays.
(An inference the spec draws itself.) -/
def Obligations.PhaseFallsAndFreezes : Prop :=
  (∀ p : F64, F64.finite p = true →
    F64.value (nextPhase p) ≤ F64.value p ∧
    (-(2 : ℚ) ^ 48 < F64.value p → F64.value p ≤ 0 → F64.value (nextPhase p) < F64.value p)) ∧
  nextPhase 0xC2F0000000000000 = 0xC2F0000000000000 ∧ F64.value 0xC2F0000000000000 = -(2 : ℚ) ^ 48

/-- R26, R107: from +0.0 on, the phase stays finite, within [-2^48, 0], and never becomes -0.0.
(An inference the spec draws itself.) -/
def Obligations.PhaseStaysInItsRange : Prop :=
  F64.value 0x0000000000000000 = 0 ∧
  ∀ p : F64, F64.finite p = true → -(2 : ℚ) ^ 48 ≤ F64.value p → F64.value p ≤ 0 → p ≠ 0x8000000000000000 →
    F64.finite (nextPhase p) = true ∧ -(2 : ℚ) ^ 48 ≤ F64.value (nextPhase p) ∧ F64.value (nextPhase p) ≤ 0 ∧
      nextPhase p ≠ 0x8000000000000000

/-! ## The transmitter -/

/-- R62: the wire view: the header below offset 6, the frame buffer from there to L - 1, and no byte from L on. -/
def Obligations.WireViewJoinsHeaderAndFrame : Prop :=
  ∀ (s : State) (o : ℕ),
    (o < 6 → s.wireAt o = some ([s.hdr.b0, s.hdr.b1, s.hdr.b2, s.hdr.b3, s.hdr.b4, s.hdr.b5][o]!)) ∧
    (6 ≤ o → o < 6 + 3 * s.cfgN.toNat → s.wireAt o = some (s.fbByte (o - 6))) ∧
    (6 + 3 * s.cfgN.toNat ≤ o → s.wireAt o = none)

/-- R147: DRAIN: with the channel empty, `OFF` is 0 and `SEQ` is SEND; else it holds and changes nothing (the tag STG is
the model's own, log 10). -/
def Obligations.DrainWaitsForTheChannel : Prop :=
  ∀ s : State, s.Legal →
    (s.chan.pending = [] → exec .drain s = .next { s with off := 0, seq := 0b100, stg := 0 }) ∧
    (s.chan.pending ≠ [] → exec .drain s = .next s)

/-- R149: SEND, one write attempt: for a count k within `[0, rem]` the bytes `W(OFF)` to `W(OFF + k - 1)` are appended to
CH_PENDING in order, `OFF` advances by k, and `SEQ` is STATS when the frame is complete and SEND else; the rest of the
state is unchanged. (The tag STG and the list of counts that an attempt takes from are the model's own, logs 2, 10.) -/
def Obligations.SendHandsOverTheNextBytes : Prop :=
  ∀ s : State, s.Legal → s.off.toNat < s.frameLen →
    ∃ (k : ℕ) (o : BitVec 18), k ≤ 6 + 3 * s.cfgN.toNat - s.off.toNat ∧ o.toNat = s.off.toNat + k ∧
      exec .send s = .next { s with
        chan := { pending := s.chan.pending ++ (List.range k).map (fun j => s.wireByte (s.off.toNat + j))
                  wire := s.chan.wire }
        off := o
        seq := if s.off.toNat + k = 6 + 3 * s.cfgN.toNat then 0b101 else 0b100
        stg := 0
        env := { s.env with accepts := s.env.accepts.tail, attempts := s.env.attempts + 1 } }

/-- Every count in `[0, rem]` can be drawn: the count the environment fixed ahead is the one SEND takes, and one above
`rem` is cut to it. That State holds these counts is the model's choice (log 2). -/
def Obligations.SendTakesTheCountFixedAhead : Prop :=
  ∀ (s : State) (k : ℕ) (rest : List ℕ), s.Legal → s.off.toNat < s.frameLen → s.env.accepts = k :: rest →
    ∃ t, exec .send s = .next t ∧ t.env.accepts = rest ∧
      t.off.toNat = s.off.toNat + min k (6 + 3 * s.cfgN.toNat - s.off.toNat) ∧
      t.chan.pending = s.chan.pending ++ s.wireBytes s.off.toNat (t.off.toNat - s.off.toNat)

/-- R151: over the SEND steps of one frame, whatever the counts (zeros among them), the bytes handed over are exactly
`W(0)` to `W(L - 1)`, each once, in order; the number of non-zero attempts is between 1 and L; and the last attempt
leaves `SEQ` at STATS.
(An inference the spec draws itself.) -/
def Obligations.EveryScheduleDeliversTheFrame : Prop :=
  ∀ (s : State) (ks rest : List ℕ) (k : ℕ), s.Legal → s.seq = 0b100 → s.off = 0 →
    s.env.accepts = ks ++ [k] ++ rest → 0 < k → ks.sum + k = s.frameLen →
    1 ≤ ((ks ++ [k]).filter (· ≠ 0)).length ∧ ((ks ++ [k]).filter (· ≠ 0)).length ≤ s.frameLen ∧
    ∃ t, runOps (List.replicate (ks.length + 1) .send) s = .next t ∧
      t.chan.pending = s.chan.pending ++ (List.range (6 + 3 * s.cfgN.toNat)).map s.wireByte ∧
      t.chan.wire = s.chan.wire ∧ t.off.toNat = s.frameLen ∧ t.seq = 0b101 ∧ t.hdr = s.hdr ∧ t.fb = s.fb

/-- R154, R155, R156: STATS: the counters advance by one frame and by 6 + 3N bytes, modulo 2^64; when `now_sec` is after
`T_LAST` the rates of the updated counters since `T_START` are reported and `T_LAST` is `now_sec`; else there is no
report; `SEQ` is GEN. `T_LAST` ≥ `T_START` is the invariant of R159. -/
def Obligations.StatsCountsAndReports : Prop :=
  ∀ s : State, s.Legal → s.tStart ≤ s.tLast →
    ∃ f b : BitVec 64, f.toNat = (s.statFrames.toNat + 1) % 2 ^ 64 ∧
      b.toNat = (s.statBytes.toNat + (6 + 3 * s.cfgN.toNat)) % 2 ^ 64 ∧
      (s.ports.nowSec ≤ s.tLast →
        exec .stats s = .next { s with statFrames := f, statBytes := b, rptValid := false, seq := 0b001, stg := 0 }) ∧
      (s.tLast < s.ports.nowSec →
        ∃ fps bps : BitVec 64,
          fps.toNat = f.toNat / (s.ports.nowSec.toNat - s.tStart.toNat) ∧
          bps.toNat = b.toNat / (s.ports.nowSec.toNat - s.tStart.toNat) ∧
          exec .stats s = .next { s with
            statFrames := f, statBytes := b, rptFps := fps, rptBps := bps, tLast := s.ports.nowSec
            rptValid := true, reports := s.reports ++ [{ fps := fps, bps := bps }], seq := 0b001, stg := 0 })

/-- R154: what the stage word STATS.ACC computes; R155: what STATS.RPT reports, from the counters STATS.ACC has left.
The fields the updated counters stand in are the model's (log 10). -/
def Obligations.StatsStagesComputeAndReport : Prop :=
  ∀ s : State, s.Legal →
    (∃ f b : BitVec 64, f.toNat = (s.statFrames.toNat + 1) % 2 ^ 64 ∧
      b.toNat = (s.statBytes.toNat + (6 + 3 * s.cfgN.toNat)) % 2 ^ 64 ∧
      exec .statsAcc s = .next { s with stage := { s.stage with accFrames := f, accBytes := b }, stg := 0 }) ∧
    (s.ports.nowSec ≤ s.tLast → exec .statsRpt s = .next { s with rptValid := false, stg := 0 }) ∧
    (s.tLast < s.ports.nowSec → s.tStart ≤ s.tLast →
      ∃ fps bps : BitVec 64,
        fps.toNat = s.stage.accFrames.toNat / (s.ports.nowSec.toNat - s.tStart.toNat) ∧
        bps.toNat = s.stage.accBytes.toNat / (s.ports.nowSec.toNat - s.tStart.toNat) ∧
        exec .statsRpt s = .next { s with
          rptFps := fps, rptBps := bps, tLast := s.ports.nowSec, rptValid := true
          reports := s.reports ++ [{ fps := fps, bps := bps }], stg := 0 })

/-- R156: STATS is STATS.ACC, then STATS.RPT on the updated counters, then the writes: the two stages one after the other
report what STATS reports, and STATS leaves in the counters what STATS.ACC computed (log 10). -/
def Obligations.StatsIsItsTwoStages : Prop :=
  ∀ s : State, s.Legal →
    ∃ t u, runOps [.statsAcc, .statsRpt] s = .next t ∧ exec .stats s = .next u ∧
      u = { t with statFrames := t.stage.accFrames, statBytes := t.stage.accBytes, seq := 0b001, stage := s.stage }

/-- R39, R158: a report event is recorded in exactly the steps that leave `rpt_valid` at 1, with the new rates. The model's
own: `rpt_valid` ends in the next step of any agent, and the events are kept for ever (log 15), over a reset too
(log 23); the stage STATS.RPT reports in a step of its own (log 10). -/
def Obligations.ReportsAreRecordedWhenValid : Prop :=
  ∀ s t : State, step s = .next t →
    t.reports = if t.rptValid then s.reports ++ [{ fps := t.rptFps, bps := t.rptBps }] else s.reports

/-! ## The whole machine -/

/-- R42, R160: which operations write which state: a frame statement over all thirteen operations. These clauses are the
model's own: a stage word keeps `SEQ`, a whole operation keeps the stage fields, and GEN.SCALE and STATS.RPT write `FB`,
`T_LAST` and the report registers in a step of their own (log 10); only SEND uses up a count of the environment
(log 2); only INIT writes the reset line (log 8); the mark changes only where a refusal is due (log 9); only a report
writes `rpt_valid` and the report events, and INIT keeps the events (logs 15, 23). -/
def Obligations.OperationsWriteOnlyTheirState : Prop :=
  ∀ (i : Instr) (s t : State), exec i s = .next t →
    (i ≠ .init → t.cfgN = s.cfgN ∧ t.cfgMagic = s.cfgMagic ∧ t.hdr = s.hdr ∧ t.tStart = s.tStart ∧
      t.ports = s.ports) ∧
    (i ≠ .init → i ≠ .adv → t.hueBase = s.hueBase ∧ t.phase = s.phase) ∧
    (i ≠ .gen → i ≠ .genScale → ∀ a, Memory.read t.fb a = Memory.read s.fb a) ∧
    (i ≠ .init → i ≠ .drain → i ≠ .send → t.off = s.off) ∧
    (i ≠ .init → i ≠ .stats → t.statFrames = s.statFrames ∧ t.statBytes = s.statBytes) ∧
    (i ≠ .init → i ≠ .stats → i ≠ .statsRpt →
      t.tLast = s.tLast ∧ t.rptFps = s.rptFps ∧ t.rptBps = s.rptBps ∧ t.rptValid = s.rptValid) ∧
    (i ≠ .stats → i ≠ .statsRpt → t.reports = s.reports) ∧
    (i ≠ .send → t.chan = s.chan ∧ t.env = s.env) ∧
    (i ≠ .init → (i.stgField = 0 → t.stage = s.stage) ∧ (i.stgField ≠ 0 → t.seq = s.seq)) ∧
    (i ≠ .init → s.Legal → (i = .send → s.off.toNat < s.frameLen) → t.refused = s.refused) ∧
    t.ports.cfgN = s.ports.cfgN ∧ t.ports.cfgMagic = s.ports.cfgMagic ∧ t.ports.nowSec = s.ports.nowSec

/-- R181: the successor of every whole operation. -/
def Obligations.SuccessorOfEveryOperation : Prop :=
  ∀ s : State, s.Legal →
    (s.ports.rst ≠ .asserted → s.ports.cfgN.toNat ≤ 65536 → ∃ t, exec .init s = .next t ∧ t.seq = 0b001) ∧
    (∃ t, exec .gen s = .next t ∧ t.seq = 0b010) ∧
    (∃ t, exec .adv s = .next t ∧ t.seq = 0b011) ∧
    (s.seq = 0b011 → s.chan.pending ≠ [] → ∃ t, exec .drain s = .next t ∧ t.seq = 0b011) ∧
    (s.chan.pending = [] → ∃ t, exec .drain s = .next t ∧ t.seq = 0b100) ∧
    (s.off.toNat < s.frameLen → ∃ t, exec .send s = .next t ∧
      (t.off.toNat < s.frameLen → t.seq = 0b100) ∧ (t.off.toNat = s.frameLen → t.seq = 0b101)) ∧
    (∃ t, exec .stats s = .next t ∧ t.seq = 0b001)

/-- R186: of the whole operations on a legal state only DRAIN with a busy channel and SEND leave `SEQ` as it was; DRAIN
then changes nothing, and SEND changes nothing but the count used up (log 2) when it hands over no byte.
(An inference the spec draws itself.) -/
def Obligations.OnlyDrainAndSendHold : Prop :=
  ∀ (i : Instr) (s t : State), s.Legal → s.seq = i.seqField → i.stgField = 0 → s.stg = 0 → i ≠ .init →
    (i = .send → s.off.toNat < s.frameLen) → exec i s = .next t → t.seq = s.seq →
    (i = .drain ∧ s.chan.pending ≠ [] ∧ t = s) ∨
    (i = .send ∧ (t.off = s.off → t = { s with env := { s.env with accepts := s.env.accepts.tail, attempts := s.env.attempts + 1 } }))

/-- R64, R65, R70 (a): what is handed to the channel is never lost, repeated or reordered: a step leaves the handed
bytes as they are, or is a SEND of the sequencer, which appends the next bytes of the wire view; and the line only
grows. -/
def Obligations.HandedBytesAreNeverLost : Prop :=
  ∀ s t : State, step s = .next t →
    (t.handed = s.handed ∨
      (s.turn = .sequencer ∧ ∃ k, k ≤ s.frameLen - s.off.toNat ∧
        t.handed = s.handed ++ s.wireBytes s.off.toNat k)) ∧
    s.chan.wire <+: t.chan.wire

/-- R71: DRAIN is a barrier: when it lets SEND begin, every byte handed over is on the line.
(An inference the spec draws itself.) -/
def Obligations.DrainIsABarrier : Prop :=
  ∀ s t : State, s.Legal → s.seq = 0b011 → exec .drain s = .next t → t.seq = 0b100 → t.chan.wire = t.handed

/-- R40, R41: the configuration ports are read only in the reset step, and the time only by INIT and STATS (with its
stage STATS.RPT): with other values on them every other operation does the same. R185, R210: what each step of the host
drives, and that it leaves every register, the memory and the channel as they were, but for `SEQ` at the assertion of a
reset (R230). The reset line's three values, the turn and the end of `rpt_valid` are the model's (logs 1, 8, 10, 15).
(R41 is an inference the spec draws itself.) -/
def Obligations.HostDrivesPortsInitReadsConfiguration : Prop :=
  (∀ (i : Instr) (s t : State) (n : BitVec 17) (m : BitVec 24), i ≠ .init → exec i s = .next t →
    exec i { s with ports := { s.ports with cfgN := n, cfgMagic := m } } =
      .next { t with ports := { t.ports with cfgN := n, cfgMagic := m } }) ∧
  (∀ (i : Instr) (s t : State) (now : BitVec 64), i ≠ .init → i ≠ .stats → i ≠ .statsRpt → exec i s = .next t →
    exec i { s with ports := { s.ports with nowSec := now } } =
      .next { t with ports := { t.ports with nowSec := now } }) ∧
  (∀ s : State, s.turn = .host .assertReset →
    step s = .next { s with
      ports := { s.ports with rst := .asserted }, seq := 0b000, stg := 0, rptValid := false
      env := { s.env with turns := s.env.turns.tail, tick := s.env.tick + 1 } }) ∧
  (∀ s : State, s.turn = .host .releaseReset →
    step s = .next { s with
      ports := { s.ports with rst := if s.ports.rst = .asserted then .released else s.ports.rst }, rptValid := false
      env := { s.env with turns := s.env.turns.tail, tick := s.env.tick + 1 } }) ∧
  (∀ (s : State) (n : BitVec 17) (m : BitVec 24), s.turn = .host (.setConfig n m) →
    step s = .next { s with
      ports := { s.ports with cfgN := n, cfgMagic := m }, rptValid := false
      env := { s.env with turns := s.env.turns.tail, tick := s.env.tick + 1 } }) ∧
  (∀ (s : State) (now : BitVec 64), s.turn = .host (.setTime now) →
    step s = .next { s with
      ports := { s.ports with nowSec := now }, rptValid := false
      env := { s.env with turns := s.env.turns.tail, tick := s.env.tick + 1 } })

/-- R39, R239: `tx_valid` is 1 exactly while `SEQ` is SEND and `OFF` < 6 + 3N, and `tx_data` is then `W(OFF)`. In a SEND
transfer `j` takes place exactly when `tx_valid` and `tx_ready` are both 1 for it, k is the number of such transfers, and
they move the next k bytes; while `tx_ready` is 0 nothing moves, `tx_valid` stays 1 and `tx_data` the same byte. The
sequencer's step from a state moves the bytes that the ports of that very state say. (`tx_ready` comes from the model's
count, log 2; the turn, the reset line and the tag in the last clause are the model's, logs 1, 8, 10.) -/
def Obligations.OfferedByteStaysUntilAccepted : Prop :=
  (∀ s : State, s.txValid = true ↔ s.seq = 0b100 ∧ s.off.toNat < 6 + 3 * s.cfgN.toNat) ∧
  (∀ s : State, s.txValid = true → s.txData = some (s.wireByte s.off.toNat)) ∧
  ∀ s : State, s.Legal → s.txValid = true →
    ∃ (t : State) (k : ℕ), exec .send s = .next t ∧
      (∀ j, j < k ↔ s.off.toNat + j < s.frameLen ∧ s.txReadyAt j = true) ∧
      t.off.toNat = s.off.toNat + k ∧ t.chan.pending = s.chan.pending ++ s.wireBytes s.off.toNat k ∧
      (s.txReady = true → ∃ b, s.txData = some b ∧ s.chan.pending ++ [b] <+: t.chan.pending) ∧
      (s.txReady = false → t.chan = s.chan ∧ t.off = s.off ∧ t.txValid = true ∧ t.txData = s.txData ∧ t.txData ≠ none) ∧
      (s.turn = .sequencer → s.refused = none → s.ports.rst = .idle → s.stg = 0 →
        ∃ u, step s = .next u ∧ u.off = t.off ∧ u.chan = t.chan ∧ u.seq = t.seq)

/-- The invariant holds in the state after reset. -/
def Obligations.InvariantHoldsAfterReset : Prop := State.reset.Inv

/-- Every step keeps the invariant: the frame buffer's form, the registers' legal values (R21, R24, R26, R30), the header
of the configuration (R142), `T_LAST` ≥ `T_START` (R159), the byte counter as L times the frame counter (R154), `OFF` < L in
SEND and `OFF` = L in STATS (R149), and the bytes of the current frame accepted so far as the last ones handed over
(R151).
(An inference the spec draws itself.) -/
def Obligations.EveryStepKeepsTheInvariant : Prop :=
  ∀ s t : State, s.Inv → step s = .next t → t.Inv

/-- R200: every operation answers a next state from every state, so none has a fault outcome; and from a state in which
the invariant holds a step of any agent answers a next state, and the only refusal that can arise is that of a pixel
count at reset (R205).
(An inference the spec draws itself; that a refusal is a next state is the model's, log 9.) -/
def Obligations.NoOperationFaultsInARun : Prop :=
  (∀ (i : Instr) (s : State), ∃ t, exec i s = .next t) ∧
  ∀ s : State, s.Inv → ∃ t, step s = .next t ∧ (t.refused = none ∨ t.refused = some .pixelCount)

/-- R92, R183: one whole frame: from GEN with an idle channel, five turns of the sequencer with the whole frame accepted
at once generate the frame, advance the animation, drain, hand over the header and the payload, and count the frame and
its bytes (R154); the configuration registers, the header and the start time are as they were. (The turns and the
counts fixed ahead are the model's, logs 1 and 2.) -/
def Obligations.OneFrameOfTheLoop : Prop :=
  ∀ (s : State) (k : ℕ) (ks : List ℕ) (ts : List Turn), s.Inv → s.seq = 0b001 → s.refused = none →
    s.chan.pending = [] → s.env.turns = List.replicate 5 .sequencer ++ ts → s.env.accepts = k :: ks →
    s.frameLen ≤ k →
    ∃ t, Sys2Proof.core.run 5 s = .next t ∧ t.seq = 0b001 ∧ t.refused = none ∧
      t.chan.wire = s.chan.wire ∧
      t.chan.pending = [s.hdr.b0, s.hdr.b1, s.hdr.b2, s.hdr.b3, s.hdr.b4, s.hdr.b5] ++
        framePayload s.hueBase s.phase s.pixels ∧
      t.statFrames = s.statFrames + 1 ∧ t.statBytes = s.statBytes + BitVec.ofNat 64 (6 + 3 * s.cfgN.toNat) ∧
      t.hueBase.toNat = (s.hueBase.toNat + 5) % 1536 ∧
      t.phase = nextPhase s.phase ∧ t.cfgN = s.cfgN ∧ t.cfgMagic = s.cfgMagic ∧ t.hdr = s.hdr ∧
      t.tStart = s.tStart ∧ t.env.turns = ts ∧ t.env.accepts = ks

/-- R202, R150: a stall is a run, not a fault: a DRAIN that finds the channel busy at every step, and a SEND whose every
attempt is accepted for no byte, go on for ever with every register, the frame buffer, the ports and the channel as they
were (in the model, all of the state but the environment, logs 1 and 2, and `rpt_valid`, which is 0 after the first
step, log 15). -/
def Obligations.StallsAreRuns : Prop :=
  ∀ s : State, s.Inv → s.refused = none →
    (s.seq = 0b011 → s.chan.pending ≠ [] →
      ∃ r : ℕ → State, r 0 = s ∧ IsRun r (fun _ => .sequencer) (fun _ => 1) ∧
        ∀ n, r (n + 1) = { s with rptValid := false, env := (r (n + 1)).env }) ∧
    (s.seq = 0b100 →
      ∃ r : ℕ → State, r 0 = s ∧ IsRun r (fun _ => .sequencer) (fun _ => 0) ∧
        ∀ n, r (n + 1) = { s with rptValid := false, env := (r (n + 1)).env })

/-- R212: under the premises `ChannelFair` and `SequencerFair`, with no further reset, frames are completed again and
again: from every point of the run a STATS step comes that adds one to the frame counter.
(An inference the spec draws itself.) -/
def Obligations.FairRunsCompleteFrames : Prop :=
  ∀ (r : ℕ → State) (t : ℕ → Turn) (k : ℕ → ℕ), IsRun r t k → (r 0).Inv → (r 0).seq ≠ 0b000 → (r 0).refused = none →
    (∀ n, t n ≠ .host .assertReset) → SequencerFair t → ChannelFair r t k →
    ∀ n, ∃ m, n ≤ m ∧ (r m).seq = 0b101 ∧ (r (m + 1)).statFrames = (r m).statFrames + 1 ∧ (r (m + 1)).seq = 0b001

/-- R70, R144: whatever the turns and the counts, with no further reset the bytes handed to the channel, and so those on
the line, are a prefix of the wire frames one after another, each of the hue base and the phase of its frame.
(An inference the spec draws itself.) -/
def Obligations.WireIsAPrefixOfTheFrames : Prop :=
  ∀ (r : ℕ → State) (t : ℕ → Turn) (k : ℕ → ℕ), IsRun r t k → (r 0).Inv → (r 0).seq = 0b001 → (r 0).refused = none →
    (∀ n, t n ≠ .host .assertReset) →
    ∀ n, (r n).handed <+: (r 0).handed ++ (List.range (n + 1)).flatMap (r 0).frameAfter
end

