-- ==== Sys2Proof/Laws/Memory.lean ====
section
/-! SUPPORT. The byte memory: what a read gives after a write, after a pixel and after a frame, and that every write
keeps the canonical form. -/

namespace Sys2Proof.Machine

theorem Memory.read_write_same (m : Memory) (a : Nat) (v : Byte) :
    Memory.read (Memory.write m a v) a = some v := by
  induction m with
  | nil => simp [Memory.write, Memory.read]
  | cons c r ih =>
    unfold Memory.write
    split
    · simp [Memory.read]
    · split
      · simp [Memory.read]
      · have : ¬ c.1 = a := fun h => by simp_all
        simpa [Memory.read, this] using ih

theorem Memory.read_write_other (m : Memory) (a b : Nat) (v : Byte) (h : b ≠ a) :
    Memory.read (Memory.write m a v) b = Memory.read m b := by
  induction m with
  | nil => simp [Memory.write, Memory.read, Ne.symm h]
  | cons c r ih =>
    unfold Memory.write
    split
    · simp [Memory.read, Ne.symm h]
    · split
      · next h2 => simp [Memory.read, Ne.symm h, ← h2]
      · simp only [Memory.read, ih]

/-- A read after a write, in one equation. -/
theorem Memory.read_write (m : Memory) (a b : Nat) (v : Byte) :
    Memory.read (Memory.write m a v) b = if b = a then some v else Memory.read m b := by
  split
  · subst b; exact Memory.read_write_same m a v
  · next h => exact Memory.read_write_other m a b v h

theorem Memory.mem_write (m : Memory) (a : Nat) (v : Byte) (c : Host.Cell) (h : c ∈ Memory.write m a v) :
    c = (a, v) ∨ c ∈ m := by
  induction m with
  | nil => simpa [Memory.write] using h
  | cons d r ih =>
    unfold Memory.write at h
    split at h
    · simpa using h
    · split at h
      · simp only [List.mem_cons] at h ⊢; tauto
      · simp only [List.mem_cons] at h ⊢
        rcases h with h | h
        · exact .inr (.inl h)
        · rcases ih h with h | h <;> tauto

/-- A write within the frame buffer's space keeps the canonical form. -/
theorem Memory.write_wf (m : Memory) (a : Nat) (v : Byte) (ha : a < fbSize) (hm : Memory.wf m) :
    Memory.wf (Memory.write m a v) := by
  refine ⟨?_, fun c hc => ?_⟩
  · have hs := hm.1
    clear hm
    induction m with
    | nil => simp [Memory.write]
    | cons c r ih =>
      rw [List.pairwise_cons] at hs
      unfold Memory.write
      split
      · next h =>
        refine List.pairwise_cons.2 ⟨fun x hx => ?_, List.pairwise_cons.2 hs⟩
        rcases List.mem_cons.1 hx with rfl | hx
        · exact h
        · exact lt_trans h (hs.1 x hx)
      · split
        · next h => exact List.pairwise_cons.2 ⟨fun x hx => h ▸ hs.1 x hx, hs.2⟩
        · next h1 h2 =>
          refine List.pairwise_cons.2 ⟨fun x hx => ?_, ih hs.2⟩
          rcases Memory.mem_write r a v x hx with rfl | hx
          · exact lt_of_le_of_ne (not_lt.1 h1) (Ne.symm h2)
          · exact hs.1 x hx
  · rcases Memory.mem_write m a v c hc with rfl | hc
    · exact ha
    · exact hm.2 c hc

/-- R61: a read after a pixel is written: its three bytes in (R, G, B) order, every other byte as before. -/
theorem Memory.read_writePixel (m : Memory) (i a : Nat) (c : Color) :
    Memory.read (Memory.writePixel m i c) a =
      if a / 3 = i then some (colorByte c (a % 3)) else Memory.read m a := by
  simp only [Memory.writePixel, Memory.read_write, colorByte]
  have := Nat.div_add_mod a 3
  have := Nat.mod_lt a (by decide : 3 > 0)
  split_ifs <;> first | rfl | omega

theorem Memory.writePixel_wf (m : Memory) (i : Nat) (c : Color) (hi : i < maxPixels) (hm : Memory.wf m) :
    Memory.wf (Memory.writePixel m i c) := by
  simp only [maxPixels] at hi
  refine Memory.write_wf _ _ _ ?_ (Memory.write_wf _ _ _ ?_ (Memory.write_wf _ _ _ ?_ hm)) <;>
    (simp only [fbSize]; omega)

/-- R112: a read after a frame of `n` pixels is written. -/
theorem Memory.read_writeFrame (m : Memory) (base : BitVec 11) (phase : F64) (n a : Nat) :
    Memory.read (Memory.writeFrame m base phase n) a =
      if a / 3 < n then some (colorByte (pixelColor base phase (a / 3)) (a % 3)) else Memory.read m a := by
  induction n with
  | zero => simp [Memory.writeFrame]
  | succ k ih =>
    rw [Memory.writeFrame, Memory.read_writePixel, ih]
    split_ifs with h1 h2 h3 h4 <;> first | rfl | omega | simp [h1]

theorem Memory.writeFrame_wf (m : Memory) (base : BitVec 11) (phase : F64) (n : Nat) (hn : n ≤ maxPixels)
    (hm : Memory.wf m) : Memory.wf (Memory.writeFrame m base phase n) := by
  induction n with
  | zero => exact hm
  | succ k ih => exact Memory.writePixel_wf _ _ _ (by omega) (ih (by omega))

end Sys2Proof.Machine
end

