-- ==== Sys2Proof/Laws/State.lean ====
section
/-! SUPPORT. The registers after each named update of State: one lemma per field per update. -/

namespace Sys2Proof.Machine

variable (s : State)

/-! `State.goto` -/

@[simp] theorem State.goto_cfgN (q : BitVec 3) : (s.goto q).cfgN = s.cfgN := rfl
@[simp] theorem State.goto_cfgMagic (q : BitVec 3) : (s.goto q).cfgMagic = s.cfgMagic := rfl
@[simp] theorem State.goto_hueBase (q : BitVec 3) : (s.goto q).hueBase = s.hueBase := rfl
@[simp] theorem State.goto_phase (q : BitVec 3) : (s.goto q).phase = s.phase := rfl
@[simp] theorem State.goto_hdr (q : BitVec 3) : (s.goto q).hdr = s.hdr := rfl
@[simp] theorem State.goto_fb (q : BitVec 3) : (s.goto q).fb = s.fb := rfl
@[simp] theorem State.goto_seq (q : BitVec 3) : (s.goto q).seq = q := rfl
@[simp] theorem State.goto_stg (q : BitVec 3) : (s.goto q).stg = 0 := rfl
@[simp] theorem State.goto_off (q : BitVec 3) : (s.goto q).off = s.off := rfl
@[simp] theorem State.goto_statFrames (q : BitVec 3) : (s.goto q).statFrames = s.statFrames := rfl
@[simp] theorem State.goto_statBytes (q : BitVec 3) : (s.goto q).statBytes = s.statBytes := rfl
@[simp] theorem State.goto_tStart (q : BitVec 3) : (s.goto q).tStart = s.tStart := rfl
@[simp] theorem State.goto_tLast (q : BitVec 3) : (s.goto q).tLast = s.tLast := rfl
@[simp] theorem State.goto_rptFps (q : BitVec 3) : (s.goto q).rptFps = s.rptFps := rfl
@[simp] theorem State.goto_rptBps (q : BitVec 3) : (s.goto q).rptBps = s.rptBps := rfl
@[simp] theorem State.goto_refused (q : BitVec 3) : (s.goto q).refused = s.refused := rfl
@[simp] theorem State.goto_rptValid (q : BitVec 3) : (s.goto q).rptValid = s.rptValid := rfl
@[simp] theorem State.goto_reports (q : BitVec 3) : (s.goto q).reports = s.reports := rfl
@[simp] theorem State.goto_ports (q : BitVec 3) : (s.goto q).ports = s.ports := rfl
@[simp] theorem State.goto_chan (q : BitVec 3) : (s.goto q).chan = s.chan := rfl
@[simp] theorem State.goto_stage (q : BitVec 3) : (s.goto q).stage = s.stage := rfl
@[simp] theorem State.goto_env (q : BitVec 3) : (s.goto q).env = s.env := rfl
@[simp] theorem State.goto_pixels (q : BitVec 3) : (s.goto q).pixels = s.pixels := rfl
@[simp] theorem State.goto_frameLen (q : BitVec 3) : (s.goto q).frameLen = s.frameLen := rfl

/-! `State.refuse` -/

@[simp] theorem State.refuse_cfgN (r : RefuseReason) : (s.refuse r).cfgN = s.cfgN := rfl
@[simp] theorem State.refuse_cfgMagic (r : RefuseReason) : (s.refuse r).cfgMagic = s.cfgMagic := rfl
@[simp] theorem State.refuse_hueBase (r : RefuseReason) : (s.refuse r).hueBase = s.hueBase := rfl
@[simp] theorem State.refuse_phase (r : RefuseReason) : (s.refuse r).phase = s.phase := rfl
@[simp] theorem State.refuse_hdr (r : RefuseReason) : (s.refuse r).hdr = s.hdr := rfl
@[simp] theorem State.refuse_fb (r : RefuseReason) : (s.refuse r).fb = s.fb := rfl
@[simp] theorem State.refuse_seq (r : RefuseReason) : (s.refuse r).seq = s.seq := rfl
@[simp] theorem State.refuse_stg (r : RefuseReason) : (s.refuse r).stg = s.stg := rfl
@[simp] theorem State.refuse_off (r : RefuseReason) : (s.refuse r).off = s.off := rfl
@[simp] theorem State.refuse_statFrames (r : RefuseReason) : (s.refuse r).statFrames = s.statFrames := rfl
@[simp] theorem State.refuse_statBytes (r : RefuseReason) : (s.refuse r).statBytes = s.statBytes := rfl
@[simp] theorem State.refuse_tStart (r : RefuseReason) : (s.refuse r).tStart = s.tStart := rfl
@[simp] theorem State.refuse_tLast (r : RefuseReason) : (s.refuse r).tLast = s.tLast := rfl
@[simp] theorem State.refuse_rptFps (r : RefuseReason) : (s.refuse r).rptFps = s.rptFps := rfl
@[simp] theorem State.refuse_rptBps (r : RefuseReason) : (s.refuse r).rptBps = s.rptBps := rfl
@[simp] theorem State.refuse_refused (r : RefuseReason) : (s.refuse r).refused = some r := rfl
@[simp] theorem State.refuse_rptValid (r : RefuseReason) : (s.refuse r).rptValid = s.rptValid := rfl
@[simp] theorem State.refuse_reports (r : RefuseReason) : (s.refuse r).reports = s.reports := rfl
@[simp] theorem State.refuse_ports (r : RefuseReason) : (s.refuse r).ports = s.ports := rfl
@[simp] theorem State.refuse_chan (r : RefuseReason) : (s.refuse r).chan = s.chan := rfl
@[simp] theorem State.refuse_stage (r : RefuseReason) : (s.refuse r).stage = s.stage := rfl
@[simp] theorem State.refuse_env (r : RefuseReason) : (s.refuse r).env = s.env := rfl
@[simp] theorem State.refuse_pixels (r : RefuseReason) : (s.refuse r).pixels = s.pixels := rfl
@[simp] theorem State.refuse_frameLen (r : RefuseReason) : (s.refuse r).frameLen = s.frameLen := rfl

/-! `State.setFb` -/

@[simp] theorem State.setFb_cfgN (m : Memory) : (s.setFb m).cfgN = s.cfgN := rfl
@[simp] theorem State.setFb_cfgMagic (m : Memory) : (s.setFb m).cfgMagic = s.cfgMagic := rfl
@[simp] theorem State.setFb_hueBase (m : Memory) : (s.setFb m).hueBase = s.hueBase := rfl
@[simp] theorem State.setFb_phase (m : Memory) : (s.setFb m).phase = s.phase := rfl
@[simp] theorem State.setFb_hdr (m : Memory) : (s.setFb m).hdr = s.hdr := rfl
@[simp] theorem State.setFb_fb (m : Memory) : (s.setFb m).fb = m := rfl
@[simp] theorem State.setFb_seq (m : Memory) : (s.setFb m).seq = s.seq := rfl
@[simp] theorem State.setFb_stg (m : Memory) : (s.setFb m).stg = s.stg := rfl
@[simp] theorem State.setFb_off (m : Memory) : (s.setFb m).off = s.off := rfl
@[simp] theorem State.setFb_statFrames (m : Memory) : (s.setFb m).statFrames = s.statFrames := rfl
@[simp] theorem State.setFb_statBytes (m : Memory) : (s.setFb m).statBytes = s.statBytes := rfl
@[simp] theorem State.setFb_tStart (m : Memory) : (s.setFb m).tStart = s.tStart := rfl
@[simp] theorem State.setFb_tLast (m : Memory) : (s.setFb m).tLast = s.tLast := rfl
@[simp] theorem State.setFb_rptFps (m : Memory) : (s.setFb m).rptFps = s.rptFps := rfl
@[simp] theorem State.setFb_rptBps (m : Memory) : (s.setFb m).rptBps = s.rptBps := rfl
@[simp] theorem State.setFb_refused (m : Memory) : (s.setFb m).refused = s.refused := rfl
@[simp] theorem State.setFb_rptValid (m : Memory) : (s.setFb m).rptValid = s.rptValid := rfl
@[simp] theorem State.setFb_reports (m : Memory) : (s.setFb m).reports = s.reports := rfl
@[simp] theorem State.setFb_ports (m : Memory) : (s.setFb m).ports = s.ports := rfl
@[simp] theorem State.setFb_chan (m : Memory) : (s.setFb m).chan = s.chan := rfl
@[simp] theorem State.setFb_stage (m : Memory) : (s.setFb m).stage = s.stage := rfl
@[simp] theorem State.setFb_env (m : Memory) : (s.setFb m).env = s.env := rfl
@[simp] theorem State.setFb_pixels (m : Memory) : (s.setFb m).pixels = s.pixels := rfl
@[simp] theorem State.setFb_frameLen (m : Memory) : (s.setFb m).frameLen = s.frameLen := rfl

/-! `State.setAnimation` -/

@[simp] theorem State.setAnimation_cfgN (h : BitVec 11) (p : F64) : (s.setAnimation h p).cfgN = s.cfgN := rfl
@[simp] theorem State.setAnimation_cfgMagic (h : BitVec 11) (p : F64) : (s.setAnimation h p).cfgMagic = s.cfgMagic := rfl
@[simp] theorem State.setAnimation_hueBase (h : BitVec 11) (p : F64) : (s.setAnimation h p).hueBase = h := rfl
@[simp] theorem State.setAnimation_phase (h : BitVec 11) (p : F64) : (s.setAnimation h p).phase = p := rfl
@[simp] theorem State.setAnimation_hdr (h : BitVec 11) (p : F64) : (s.setAnimation h p).hdr = s.hdr := rfl
@[simp] theorem State.setAnimation_fb (h : BitVec 11) (p : F64) : (s.setAnimation h p).fb = s.fb := rfl
@[simp] theorem State.setAnimation_seq (h : BitVec 11) (p : F64) : (s.setAnimation h p).seq = s.seq := rfl
@[simp] theorem State.setAnimation_stg (h : BitVec 11) (p : F64) : (s.setAnimation h p).stg = s.stg := rfl
@[simp] theorem State.setAnimation_off (h : BitVec 11) (p : F64) : (s.setAnimation h p).off = s.off := rfl
@[simp] theorem State.setAnimation_statFrames (h : BitVec 11) (p : F64) : (s.setAnimation h p).statFrames = s.statFrames := rfl
@[simp] theorem State.setAnimation_statBytes (h : BitVec 11) (p : F64) : (s.setAnimation h p).statBytes = s.statBytes := rfl
@[simp] theorem State.setAnimation_tStart (h : BitVec 11) (p : F64) : (s.setAnimation h p).tStart = s.tStart := rfl
@[simp] theorem State.setAnimation_tLast (h : BitVec 11) (p : F64) : (s.setAnimation h p).tLast = s.tLast := rfl
@[simp] theorem State.setAnimation_rptFps (h : BitVec 11) (p : F64) : (s.setAnimation h p).rptFps = s.rptFps := rfl
@[simp] theorem State.setAnimation_rptBps (h : BitVec 11) (p : F64) : (s.setAnimation h p).rptBps = s.rptBps := rfl
@[simp] theorem State.setAnimation_refused (h : BitVec 11) (p : F64) : (s.setAnimation h p).refused = s.refused := rfl
@[simp] theorem State.setAnimation_rptValid (h : BitVec 11) (p : F64) : (s.setAnimation h p).rptValid = s.rptValid := rfl
@[simp] theorem State.setAnimation_reports (h : BitVec 11) (p : F64) : (s.setAnimation h p).reports = s.reports := rfl
@[simp] theorem State.setAnimation_ports (h : BitVec 11) (p : F64) : (s.setAnimation h p).ports = s.ports := rfl
@[simp] theorem State.setAnimation_chan (h : BitVec 11) (p : F64) : (s.setAnimation h p).chan = s.chan := rfl
@[simp] theorem State.setAnimation_stage (h : BitVec 11) (p : F64) : (s.setAnimation h p).stage = s.stage := rfl
@[simp] theorem State.setAnimation_env (h : BitVec 11) (p : F64) : (s.setAnimation h p).env = s.env := rfl
@[simp] theorem State.setAnimation_pixels (h : BitVec 11) (p : F64) : (s.setAnimation h p).pixels = s.pixels := rfl
@[simp] theorem State.setAnimation_frameLen (h : BitVec 11) (p : F64) : (s.setAnimation h p).frameLen = s.frameLen := rfl

/-! `State.setOff` -/

@[simp] theorem State.setOff_cfgN (o : Nat) : (s.setOff o).cfgN = s.cfgN := rfl
@[simp] theorem State.setOff_cfgMagic (o : Nat) : (s.setOff o).cfgMagic = s.cfgMagic := rfl
@[simp] theorem State.setOff_hueBase (o : Nat) : (s.setOff o).hueBase = s.hueBase := rfl
@[simp] theorem State.setOff_phase (o : Nat) : (s.setOff o).phase = s.phase := rfl
@[simp] theorem State.setOff_hdr (o : Nat) : (s.setOff o).hdr = s.hdr := rfl
@[simp] theorem State.setOff_fb (o : Nat) : (s.setOff o).fb = s.fb := rfl
@[simp] theorem State.setOff_seq (o : Nat) : (s.setOff o).seq = s.seq := rfl
@[simp] theorem State.setOff_stg (o : Nat) : (s.setOff o).stg = s.stg := rfl
@[simp] theorem State.setOff_off (o : Nat) : (s.setOff o).off = BitVec.ofNat 18 o := rfl
@[simp] theorem State.setOff_statFrames (o : Nat) : (s.setOff o).statFrames = s.statFrames := rfl
@[simp] theorem State.setOff_statBytes (o : Nat) : (s.setOff o).statBytes = s.statBytes := rfl
@[simp] theorem State.setOff_tStart (o : Nat) : (s.setOff o).tStart = s.tStart := rfl
@[simp] theorem State.setOff_tLast (o : Nat) : (s.setOff o).tLast = s.tLast := rfl
@[simp] theorem State.setOff_rptFps (o : Nat) : (s.setOff o).rptFps = s.rptFps := rfl
@[simp] theorem State.setOff_rptBps (o : Nat) : (s.setOff o).rptBps = s.rptBps := rfl
@[simp] theorem State.setOff_refused (o : Nat) : (s.setOff o).refused = s.refused := rfl
@[simp] theorem State.setOff_rptValid (o : Nat) : (s.setOff o).rptValid = s.rptValid := rfl
@[simp] theorem State.setOff_reports (o : Nat) : (s.setOff o).reports = s.reports := rfl
@[simp] theorem State.setOff_ports (o : Nat) : (s.setOff o).ports = s.ports := rfl
@[simp] theorem State.setOff_chan (o : Nat) : (s.setOff o).chan = s.chan := rfl
@[simp] theorem State.setOff_stage (o : Nat) : (s.setOff o).stage = s.stage := rfl
@[simp] theorem State.setOff_env (o : Nat) : (s.setOff o).env = s.env := rfl
@[simp] theorem State.setOff_pixels (o : Nat) : (s.setOff o).pixels = s.pixels := rfl
@[simp] theorem State.setOff_frameLen (o : Nat) : (s.setOff o).frameLen = s.frameLen := rfl

/-! `State.emit` -/

@[simp] theorem State.emit_cfgN (bs : List Byte) : (s.emit bs).cfgN = s.cfgN := rfl
@[simp] theorem State.emit_cfgMagic (bs : List Byte) : (s.emit bs).cfgMagic = s.cfgMagic := rfl
@[simp] theorem State.emit_hueBase (bs : List Byte) : (s.emit bs).hueBase = s.hueBase := rfl
@[simp] theorem State.emit_phase (bs : List Byte) : (s.emit bs).phase = s.phase := rfl
@[simp] theorem State.emit_hdr (bs : List Byte) : (s.emit bs).hdr = s.hdr := rfl
@[simp] theorem State.emit_fb (bs : List Byte) : (s.emit bs).fb = s.fb := rfl
@[simp] theorem State.emit_seq (bs : List Byte) : (s.emit bs).seq = s.seq := rfl
@[simp] theorem State.emit_stg (bs : List Byte) : (s.emit bs).stg = s.stg := rfl
@[simp] theorem State.emit_off (bs : List Byte) : (s.emit bs).off = s.off := rfl
@[simp] theorem State.emit_statFrames (bs : List Byte) : (s.emit bs).statFrames = s.statFrames := rfl
@[simp] theorem State.emit_statBytes (bs : List Byte) : (s.emit bs).statBytes = s.statBytes := rfl
@[simp] theorem State.emit_tStart (bs : List Byte) : (s.emit bs).tStart = s.tStart := rfl
@[simp] theorem State.emit_tLast (bs : List Byte) : (s.emit bs).tLast = s.tLast := rfl
@[simp] theorem State.emit_rptFps (bs : List Byte) : (s.emit bs).rptFps = s.rptFps := rfl
@[simp] theorem State.emit_rptBps (bs : List Byte) : (s.emit bs).rptBps = s.rptBps := rfl
@[simp] theorem State.emit_refused (bs : List Byte) : (s.emit bs).refused = s.refused := rfl
@[simp] theorem State.emit_rptValid (bs : List Byte) : (s.emit bs).rptValid = s.rptValid := rfl
@[simp] theorem State.emit_reports (bs : List Byte) : (s.emit bs).reports = s.reports := rfl
@[simp] theorem State.emit_ports (bs : List Byte) : (s.emit bs).ports = s.ports := rfl
@[simp] theorem State.emit_chan (bs : List Byte) : (s.emit bs).chan = { s.chan with pending := s.chan.pending ++ bs } := rfl
@[simp] theorem State.emit_stage (bs : List Byte) : (s.emit bs).stage = s.stage := rfl
@[simp] theorem State.emit_env (bs : List Byte) : (s.emit bs).env = s.env := rfl
@[simp] theorem State.emit_pixels (bs : List Byte) : (s.emit bs).pixels = s.pixels := rfl
@[simp] theorem State.emit_frameLen (bs : List Byte) : (s.emit bs).frameLen = s.frameLen := rfl

/-! `State.popAccept` -/

@[simp] theorem State.popAccept_cfgN : (s.popAccept).cfgN = s.cfgN := rfl
@[simp] theorem State.popAccept_cfgMagic : (s.popAccept).cfgMagic = s.cfgMagic := rfl
@[simp] theorem State.popAccept_hueBase : (s.popAccept).hueBase = s.hueBase := rfl
@[simp] theorem State.popAccept_phase : (s.popAccept).phase = s.phase := rfl
@[simp] theorem State.popAccept_hdr : (s.popAccept).hdr = s.hdr := rfl
@[simp] theorem State.popAccept_fb : (s.popAccept).fb = s.fb := rfl
@[simp] theorem State.popAccept_seq : (s.popAccept).seq = s.seq := rfl
@[simp] theorem State.popAccept_stg : (s.popAccept).stg = s.stg := rfl
@[simp] theorem State.popAccept_off : (s.popAccept).off = s.off := rfl
@[simp] theorem State.popAccept_statFrames : (s.popAccept).statFrames = s.statFrames := rfl
@[simp] theorem State.popAccept_statBytes : (s.popAccept).statBytes = s.statBytes := rfl
@[simp] theorem State.popAccept_tStart : (s.popAccept).tStart = s.tStart := rfl
@[simp] theorem State.popAccept_tLast : (s.popAccept).tLast = s.tLast := rfl
@[simp] theorem State.popAccept_rptFps : (s.popAccept).rptFps = s.rptFps := rfl
@[simp] theorem State.popAccept_rptBps : (s.popAccept).rptBps = s.rptBps := rfl
@[simp] theorem State.popAccept_refused : (s.popAccept).refused = s.refused := rfl
@[simp] theorem State.popAccept_rptValid : (s.popAccept).rptValid = s.rptValid := rfl
@[simp] theorem State.popAccept_reports : (s.popAccept).reports = s.reports := rfl
@[simp] theorem State.popAccept_ports : (s.popAccept).ports = s.ports := rfl
@[simp] theorem State.popAccept_chan : (s.popAccept).chan = s.chan := rfl
@[simp] theorem State.popAccept_stage : (s.popAccept).stage = s.stage := rfl
@[simp] theorem State.popAccept_env : (s.popAccept).env =
    { s.env with accepts := s.env.accepts.tail, attempts := s.env.attempts + 1 } := rfl
@[simp] theorem State.popAccept_pixels : (s.popAccept).pixels = s.pixels := rfl
@[simp] theorem State.popAccept_frameLen : (s.popAccept).frameLen = s.frameLen := rfl

/-! `State.setCounters` -/

@[simp] theorem State.setCounters_cfgN (f b : BitVec 64) : (s.setCounters f b).cfgN = s.cfgN := rfl
@[simp] theorem State.setCounters_cfgMagic (f b : BitVec 64) : (s.setCounters f b).cfgMagic = s.cfgMagic := rfl
@[simp] theorem State.setCounters_hueBase (f b : BitVec 64) : (s.setCounters f b).hueBase = s.hueBase := rfl
@[simp] theorem State.setCounters_phase (f b : BitVec 64) : (s.setCounters f b).phase = s.phase := rfl
@[simp] theorem State.setCounters_hdr (f b : BitVec 64) : (s.setCounters f b).hdr = s.hdr := rfl
@[simp] theorem State.setCounters_fb (f b : BitVec 64) : (s.setCounters f b).fb = s.fb := rfl
@[simp] theorem State.setCounters_seq (f b : BitVec 64) : (s.setCounters f b).seq = s.seq := rfl
@[simp] theorem State.setCounters_stg (f b : BitVec 64) : (s.setCounters f b).stg = s.stg := rfl
@[simp] theorem State.setCounters_off (f b : BitVec 64) : (s.setCounters f b).off = s.off := rfl
@[simp] theorem State.setCounters_statFrames (f b : BitVec 64) : (s.setCounters f b).statFrames = f := rfl
@[simp] theorem State.setCounters_statBytes (f b : BitVec 64) : (s.setCounters f b).statBytes = b := rfl
@[simp] theorem State.setCounters_tStart (f b : BitVec 64) : (s.setCounters f b).tStart = s.tStart := rfl
@[simp] theorem State.setCounters_tLast (f b : BitVec 64) : (s.setCounters f b).tLast = s.tLast := rfl
@[simp] theorem State.setCounters_rptFps (f b : BitVec 64) : (s.setCounters f b).rptFps = s.rptFps := rfl
@[simp] theorem State.setCounters_rptBps (f b : BitVec 64) : (s.setCounters f b).rptBps = s.rptBps := rfl
@[simp] theorem State.setCounters_refused (f b : BitVec 64) : (s.setCounters f b).refused = s.refused := rfl
@[simp] theorem State.setCounters_rptValid (f b : BitVec 64) : (s.setCounters f b).rptValid = s.rptValid := rfl
@[simp] theorem State.setCounters_reports (f b : BitVec 64) : (s.setCounters f b).reports = s.reports := rfl
@[simp] theorem State.setCounters_ports (f b : BitVec 64) : (s.setCounters f b).ports = s.ports := rfl
@[simp] theorem State.setCounters_chan (f b : BitVec 64) : (s.setCounters f b).chan = s.chan := rfl
@[simp] theorem State.setCounters_stage (f b : BitVec 64) : (s.setCounters f b).stage = s.stage := rfl
@[simp] theorem State.setCounters_env (f b : BitVec 64) : (s.setCounters f b).env = s.env := rfl
@[simp] theorem State.setCounters_pixels (f b : BitVec 64) : (s.setCounters f b).pixels = s.pixels := rfl
@[simp] theorem State.setCounters_frameLen (f b : BitVec 64) : (s.setCounters f b).frameLen = s.frameLen := rfl

/-! `State.setStage` -/

@[simp] theorem State.setStage_cfgN (st : Stage) : (s.setStage st).cfgN = s.cfgN := rfl
@[simp] theorem State.setStage_cfgMagic (st : Stage) : (s.setStage st).cfgMagic = s.cfgMagic := rfl
@[simp] theorem State.setStage_hueBase (st : Stage) : (s.setStage st).hueBase = s.hueBase := rfl
@[simp] theorem State.setStage_phase (st : Stage) : (s.setStage st).phase = s.phase := rfl
@[simp] theorem State.setStage_hdr (st : Stage) : (s.setStage st).hdr = s.hdr := rfl
@[simp] theorem State.setStage_fb (st : Stage) : (s.setStage st).fb = s.fb := rfl
@[simp] theorem State.setStage_seq (st : Stage) : (s.setStage st).seq = s.seq := rfl
@[simp] theorem State.setStage_stg (st : Stage) : (s.setStage st).stg = 0 := rfl
@[simp] theorem State.setStage_off (st : Stage) : (s.setStage st).off = s.off := rfl
@[simp] theorem State.setStage_statFrames (st : Stage) : (s.setStage st).statFrames = s.statFrames := rfl
@[simp] theorem State.setStage_statBytes (st : Stage) : (s.setStage st).statBytes = s.statBytes := rfl
@[simp] theorem State.setStage_tStart (st : Stage) : (s.setStage st).tStart = s.tStart := rfl
@[simp] theorem State.setStage_tLast (st : Stage) : (s.setStage st).tLast = s.tLast := rfl
@[simp] theorem State.setStage_rptFps (st : Stage) : (s.setStage st).rptFps = s.rptFps := rfl
@[simp] theorem State.setStage_rptBps (st : Stage) : (s.setStage st).rptBps = s.rptBps := rfl
@[simp] theorem State.setStage_refused (st : Stage) : (s.setStage st).refused = s.refused := rfl
@[simp] theorem State.setStage_rptValid (st : Stage) : (s.setStage st).rptValid = s.rptValid := rfl
@[simp] theorem State.setStage_reports (st : Stage) : (s.setStage st).reports = s.reports := rfl
@[simp] theorem State.setStage_ports (st : Stage) : (s.setStage st).ports = s.ports := rfl
@[simp] theorem State.setStage_chan (st : Stage) : (s.setStage st).chan = s.chan := rfl
@[simp] theorem State.setStage_stage (st : Stage) : (s.setStage st).stage = st := rfl
@[simp] theorem State.setStage_env (st : Stage) : (s.setStage st).env = s.env := rfl
@[simp] theorem State.setStage_pixels (st : Stage) : (s.setStage st).pixels = s.pixels := rfl
@[simp] theorem State.setStage_frameLen (st : Stage) : (s.setStage st).frameLen = s.frameLen := rfl

/-! `State.beginStep` -/

@[simp] theorem State.beginStep_cfgN : (s.beginStep).cfgN = s.cfgN := rfl
@[simp] theorem State.beginStep_cfgMagic : (s.beginStep).cfgMagic = s.cfgMagic := rfl
@[simp] theorem State.beginStep_hueBase : (s.beginStep).hueBase = s.hueBase := rfl
@[simp] theorem State.beginStep_phase : (s.beginStep).phase = s.phase := rfl
@[simp] theorem State.beginStep_hdr : (s.beginStep).hdr = s.hdr := rfl
@[simp] theorem State.beginStep_fb : (s.beginStep).fb = s.fb := rfl
@[simp] theorem State.beginStep_seq : (s.beginStep).seq = s.seq := rfl
@[simp] theorem State.beginStep_stg : (s.beginStep).stg = s.stg := rfl
@[simp] theorem State.beginStep_off : (s.beginStep).off = s.off := rfl
@[simp] theorem State.beginStep_statFrames : (s.beginStep).statFrames = s.statFrames := rfl
@[simp] theorem State.beginStep_statBytes : (s.beginStep).statBytes = s.statBytes := rfl
@[simp] theorem State.beginStep_tStart : (s.beginStep).tStart = s.tStart := rfl
@[simp] theorem State.beginStep_tLast : (s.beginStep).tLast = s.tLast := rfl
@[simp] theorem State.beginStep_rptFps : (s.beginStep).rptFps = s.rptFps := rfl
@[simp] theorem State.beginStep_rptBps : (s.beginStep).rptBps = s.rptBps := rfl
@[simp] theorem State.beginStep_refused : (s.beginStep).refused = s.refused := rfl
@[simp] theorem State.beginStep_rptValid : (s.beginStep).rptValid = false := rfl
@[simp] theorem State.beginStep_reports : (s.beginStep).reports = s.reports := rfl
@[simp] theorem State.beginStep_ports : (s.beginStep).ports = s.ports := rfl
@[simp] theorem State.beginStep_chan : (s.beginStep).chan = s.chan := rfl
@[simp] theorem State.beginStep_stage : (s.beginStep).stage = s.stage := rfl
@[simp] theorem State.beginStep_env : (s.beginStep).env = { s.env with turns := s.env.turns.tail, tick := s.env.tick + 1 } := rfl
@[simp] theorem State.beginStep_pixels : (s.beginStep).pixels = s.pixels := rfl
@[simp] theorem State.beginStep_frameLen : (s.beginStep).frameLen = s.frameLen := rfl

/-! `State.initDone` -/

@[simp] theorem State.initDone_cfgN : (s.initDone).cfgN = s.cfgN := rfl
@[simp] theorem State.initDone_cfgMagic : (s.initDone).cfgMagic = s.cfgMagic := rfl
@[simp] theorem State.initDone_hueBase : (s.initDone).hueBase = s.hueBase := rfl
@[simp] theorem State.initDone_phase : (s.initDone).phase = s.phase := rfl
@[simp] theorem State.initDone_hdr : (s.initDone).hdr = s.hdr := rfl
@[simp] theorem State.initDone_fb : (s.initDone).fb = s.fb := rfl
@[simp] theorem State.initDone_seq : (s.initDone).seq = s.seq := rfl
@[simp] theorem State.initDone_stg : (s.initDone).stg = s.stg := rfl
@[simp] theorem State.initDone_off : (s.initDone).off = s.off := rfl
@[simp] theorem State.initDone_statFrames : (s.initDone).statFrames = s.statFrames := rfl
@[simp] theorem State.initDone_statBytes : (s.initDone).statBytes = s.statBytes := rfl
@[simp] theorem State.initDone_tStart : (s.initDone).tStart = s.tStart := rfl
@[simp] theorem State.initDone_tLast : (s.initDone).tLast = s.tLast := rfl
@[simp] theorem State.initDone_rptFps : (s.initDone).rptFps = s.rptFps := rfl
@[simp] theorem State.initDone_rptBps : (s.initDone).rptBps = s.rptBps := rfl
@[simp] theorem State.initDone_refused : (s.initDone).refused = s.refused := rfl
@[simp] theorem State.initDone_rptValid : (s.initDone).rptValid = s.rptValid := rfl
@[simp] theorem State.initDone_reports : (s.initDone).reports = s.reports := rfl
@[simp] theorem State.initDone_ports : (s.initDone).ports = { s.ports with rst := if s.ports.rst = .released then .idle else s.ports.rst } := rfl
@[simp] theorem State.initDone_chan : (s.initDone).chan = s.chan := rfl
@[simp] theorem State.initDone_stage : (s.initDone).stage = s.stage := rfl
@[simp] theorem State.initDone_env : (s.initDone).env = s.env := rfl
@[simp] theorem State.initDone_pixels : (s.initDone).pixels = s.pixels := rfl
@[simp] theorem State.initDone_frameLen : (s.initDone).frameLen = s.frameLen := rfl

/-! `State.initialised` -/

@[simp] theorem State.initialised_cfgN : (s.initialised).cfgN = s.ports.cfgN := rfl
@[simp] theorem State.initialised_cfgMagic : (s.initialised).cfgMagic = s.ports.cfgMagic := rfl
@[simp] theorem State.initialised_hueBase : (s.initialised).hueBase = 0 := rfl
@[simp] theorem State.initialised_phase : (s.initialised).phase = 0 := rfl
@[simp] theorem State.initialised_hdr : (s.initialised).hdr = buildHeader s.ports.cfgN s.ports.cfgMagic := rfl
@[simp] theorem State.initialised_fb : (s.initialised).fb = s.fb := rfl
@[simp] theorem State.initialised_seq : (s.initialised).seq = if s.ports.rst = .asserted then seqInit else seqGen := rfl
@[simp] theorem State.initialised_stg : (s.initialised).stg = 0 := rfl
@[simp] theorem State.initialised_off : (s.initialised).off = 0 := rfl
@[simp] theorem State.initialised_statFrames : (s.initialised).statFrames = 0 := rfl
@[simp] theorem State.initialised_statBytes : (s.initialised).statBytes = 0 := rfl
@[simp] theorem State.initialised_tStart : (s.initialised).tStart = s.ports.nowSec := rfl
@[simp] theorem State.initialised_tLast : (s.initialised).tLast = s.ports.nowSec := rfl
@[simp] theorem State.initialised_rptFps : (s.initialised).rptFps = 0 := rfl
@[simp] theorem State.initialised_rptBps : (s.initialised).rptBps = 0 := rfl
@[simp] theorem State.initialised_refused : (s.initialised).refused = none := rfl
@[simp] theorem State.initialised_rptValid : (s.initialised).rptValid = false := rfl
@[simp] theorem State.initialised_reports : (s.initialised).reports = s.reports := rfl
@[simp] theorem State.initialised_ports : (s.initialised).ports = s.ports := rfl
@[simp] theorem State.initialised_chan : (s.initialised).chan = s.chan := rfl
@[simp] theorem State.initialised_stage : (s.initialised).stage = Stage.zero := rfl
@[simp] theorem State.initialised_env : (s.initialised).env = s.env := rfl

/-! `State.report`: the report registers change when a report is due, and nothing else does. -/

@[simp] theorem State.report_cfgN (f b : BitVec 64) : (s.report f b).cfgN = s.cfgN := by
  unfold State.report; split <;> rfl
@[simp] theorem State.report_cfgMagic (f b : BitVec 64) : (s.report f b).cfgMagic = s.cfgMagic := by
  unfold State.report; split <;> rfl
@[simp] theorem State.report_hueBase (f b : BitVec 64) : (s.report f b).hueBase = s.hueBase := by
  unfold State.report; split <;> rfl
@[simp] theorem State.report_phase (f b : BitVec 64) : (s.report f b).phase = s.phase := by
  unfold State.report; split <;> rfl
@[simp] theorem State.report_hdr (f b : BitVec 64) : (s.report f b).hdr = s.hdr := by
  unfold State.report; split <;> rfl
@[simp] theorem State.report_fb (f b : BitVec 64) : (s.report f b).fb = s.fb := by
  unfold State.report; split <;> rfl
@[simp] theorem State.report_seq (f b : BitVec 64) : (s.report f b).seq = s.seq := by
  unfold State.report; split <;> rfl
@[simp] theorem State.report_stg (f b : BitVec 64) : (s.report f b).stg = s.stg := by
  unfold State.report; split <;> rfl
@[simp] theorem State.report_off (f b : BitVec 64) : (s.report f b).off = s.off := by
  unfold State.report; split <;> rfl
@[simp] theorem State.report_statFrames (f b : BitVec 64) : (s.report f b).statFrames = s.statFrames := by
  unfold State.report; split <;> rfl
@[simp] theorem State.report_statBytes (f b : BitVec 64) : (s.report f b).statBytes = s.statBytes := by
  unfold State.report; split <;> rfl
@[simp] theorem State.report_tStart (f b : BitVec 64) : (s.report f b).tStart = s.tStart := by
  unfold State.report; split <;> rfl
@[simp] theorem State.report_refused (f b : BitVec 64) : (s.report f b).refused = s.refused := by
  unfold State.report; split <;> rfl
@[simp] theorem State.report_ports (f b : BitVec 64) : (s.report f b).ports = s.ports := by
  unfold State.report; split <;> rfl
@[simp] theorem State.report_chan (f b : BitVec 64) : (s.report f b).chan = s.chan := by
  unfold State.report; split <;> rfl
@[simp] theorem State.report_stage (f b : BitVec 64) : (s.report f b).stage = s.stage := by
  unfold State.report; split <;> rfl
@[simp] theorem State.report_env (f b : BitVec 64) : (s.report f b).env = s.env := by
  unfold State.report; split <;> rfl
theorem State.report_rptFps (f b : BitVec 64) :
    (s.report f b).rptFps = if s.reportDue then reportRate f s.ports.nowSec s.tStart else s.rptFps := by
  unfold State.report; split <;> simp_all
theorem State.report_rptBps (f b : BitVec 64) :
    (s.report f b).rptBps = if s.reportDue then reportRate b s.ports.nowSec s.tStart else s.rptBps := by
  unfold State.report; split <;> simp_all
theorem State.report_tLast (f b : BitVec 64) :
    (s.report f b).tLast = if s.reportDue then s.ports.nowSec else s.tLast := by
  unfold State.report; split <;> simp_all
theorem State.report_rptValid (f b : BitVec 64) :
    (s.report f b).rptValid = if s.reportDue then true else false := by
  unfold State.report; split <;> simp_all
theorem State.report_reports (f b : BitVec 64) :
    (s.report f b).reports = if s.reportDue then s.reports ++ [{ fps := reportRate f s.ports.nowSec s.tStart, bps := reportRate b s.ports.nowSec s.tStart }] else s.reports := by
  unfold State.report; split <;> simp_all
@[simp] theorem State.report_pixels (f b : BitVec 64) : (s.report f b).pixels = s.pixels := by
  unfold State.report; split <;> rfl
@[simp] theorem State.report_frameLen (f b : BitVec 64) : (s.report f b).frameLen = s.frameLen := by
  unfold State.report; split <;> rfl

/-! `State.transmit`: only the channel changes. -/

@[simp] theorem State.transmit_cfgN : s.transmit.cfgN = s.cfgN := by
  unfold State.transmit; split <;> rfl
@[simp] theorem State.transmit_cfgMagic : s.transmit.cfgMagic = s.cfgMagic := by
  unfold State.transmit; split <;> rfl
@[simp] theorem State.transmit_hueBase : s.transmit.hueBase = s.hueBase := by
  unfold State.transmit; split <;> rfl
@[simp] theorem State.transmit_phase : s.transmit.phase = s.phase := by
  unfold State.transmit; split <;> rfl
@[simp] theorem State.transmit_hdr : s.transmit.hdr = s.hdr := by
  unfold State.transmit; split <;> rfl
@[simp] theorem State.transmit_fb : s.transmit.fb = s.fb := by
  unfold State.transmit; split <;> rfl
@[simp] theorem State.transmit_seq : s.transmit.seq = s.seq := by
  unfold State.transmit; split <;> rfl
@[simp] theorem State.transmit_stg : s.transmit.stg = s.stg := by
  unfold State.transmit; split <;> rfl
@[simp] theorem State.transmit_off : s.transmit.off = s.off := by
  unfold State.transmit; split <;> rfl
@[simp] theorem State.transmit_statFrames : s.transmit.statFrames = s.statFrames := by
  unfold State.transmit; split <;> rfl
@[simp] theorem State.transmit_statBytes : s.transmit.statBytes = s.statBytes := by
  unfold State.transmit; split <;> rfl
@[simp] theorem State.transmit_tStart : s.transmit.tStart = s.tStart := by
  unfold State.transmit; split <;> rfl
@[simp] theorem State.transmit_tLast : s.transmit.tLast = s.tLast := by
  unfold State.transmit; split <;> rfl
@[simp] theorem State.transmit_rptFps : s.transmit.rptFps = s.rptFps := by
  unfold State.transmit; split <;> rfl
@[simp] theorem State.transmit_rptBps : s.transmit.rptBps = s.rptBps := by
  unfold State.transmit; split <;> rfl
@[simp] theorem State.transmit_refused : s.transmit.refused = s.refused := by
  unfold State.transmit; split <;> rfl
@[simp] theorem State.transmit_rptValid : s.transmit.rptValid = s.rptValid := by
  unfold State.transmit; split <;> rfl
@[simp] theorem State.transmit_reports : s.transmit.reports = s.reports := by
  unfold State.transmit; split <;> rfl
@[simp] theorem State.transmit_ports : s.transmit.ports = s.ports := by
  unfold State.transmit; split <;> rfl
@[simp] theorem State.transmit_stage : s.transmit.stage = s.stage := by
  unfold State.transmit; split <;> rfl
@[simp] theorem State.transmit_env : s.transmit.env = s.env := by
  unfold State.transmit; split <;> rfl
@[simp] theorem State.transmit_pixels : s.transmit.pixels = s.pixels := by
  unfold State.transmit; split <;> rfl
@[simp] theorem State.transmit_frameLen : s.transmit.frameLen = s.frameLen := by
  unfold State.transmit; split <;> rfl

/-! `State.hostStep`: only the ports, and `SEQ` when a reset is asserted, change. -/

@[simp] theorem State.hostStep_cfgN (h : HostStep) : (s.hostStep h).cfgN = s.cfgN := by
  cases h <;> rfl
@[simp] theorem State.hostStep_cfgMagic (h : HostStep) : (s.hostStep h).cfgMagic = s.cfgMagic := by
  cases h <;> rfl
@[simp] theorem State.hostStep_hueBase (h : HostStep) : (s.hostStep h).hueBase = s.hueBase := by
  cases h <;> rfl
@[simp] theorem State.hostStep_phase (h : HostStep) : (s.hostStep h).phase = s.phase := by
  cases h <;> rfl
@[simp] theorem State.hostStep_hdr (h : HostStep) : (s.hostStep h).hdr = s.hdr := by
  cases h <;> rfl
@[simp] theorem State.hostStep_fb (h : HostStep) : (s.hostStep h).fb = s.fb := by
  cases h <;> rfl
@[simp] theorem State.hostStep_off (h : HostStep) : (s.hostStep h).off = s.off := by
  cases h <;> rfl
@[simp] theorem State.hostStep_statFrames (h : HostStep) : (s.hostStep h).statFrames = s.statFrames := by
  cases h <;> rfl
@[simp] theorem State.hostStep_statBytes (h : HostStep) : (s.hostStep h).statBytes = s.statBytes := by
  cases h <;> rfl
@[simp] theorem State.hostStep_tStart (h : HostStep) : (s.hostStep h).tStart = s.tStart := by
  cases h <;> rfl
@[simp] theorem State.hostStep_tLast (h : HostStep) : (s.hostStep h).tLast = s.tLast := by
  cases h <;> rfl
@[simp] theorem State.hostStep_rptFps (h : HostStep) : (s.hostStep h).rptFps = s.rptFps := by
  cases h <;> rfl
@[simp] theorem State.hostStep_rptBps (h : HostStep) : (s.hostStep h).rptBps = s.rptBps := by
  cases h <;> rfl
@[simp] theorem State.hostStep_refused (h : HostStep) : (s.hostStep h).refused = s.refused := by
  cases h <;> rfl
@[simp] theorem State.hostStep_rptValid (h : HostStep) : (s.hostStep h).rptValid = s.rptValid := by
  cases h <;> rfl
@[simp] theorem State.hostStep_reports (h : HostStep) : (s.hostStep h).reports = s.reports := by
  cases h <;> rfl
@[simp] theorem State.hostStep_chan (h : HostStep) : (s.hostStep h).chan = s.chan := by
  cases h <;> rfl
@[simp] theorem State.hostStep_stage (h : HostStep) : (s.hostStep h).stage = s.stage := by
  cases h <;> rfl
@[simp] theorem State.hostStep_env (h : HostStep) : (s.hostStep h).env = s.env := by
  cases h <;> rfl
@[simp] theorem State.hostStep_pixels (h : HostStep) : (s.hostStep h).pixels = s.pixels := by
  cases h <;> rfl
@[simp] theorem State.hostStep_frameLen (h : HostStep) : (s.hostStep h).frameLen = s.frameLen := by
  cases h <;> rfl

end Sys2Proof.Machine
end

