-- ==== Sys2Proof/Laws/Exec.lean ====
section
/-! SUPPORT. What each shared way through an operation can do, each operation on a legal state, and the step by the
agent whose turn it is. -/

namespace Sys2Proof.Machine

/-- R205: no reason refuses exactly the legal states. -/
theorem State.refusalReason_none (s : State) : s.refusalReason = none ↔ s.Legal := by
  unfold State.refusalReason State.Legal
  split_ifs <;> simp_all

/-- R205: an operation either refuses, on a state that is not legal, or goes on. -/
theorem State.admitted_cases (s : State) (go : Result) :
    (s.Legal ∧ s.admitted go = go) ∨ ∃ r, ¬ s.Legal ∧ s.refusalReason = some r ∧ s.admitted go = .next (s.refuse r) := by
  unfold State.admitted
  cases h : s.refusalReason with
  | none => exact .inl ⟨(State.refusalReason_none s).1 h, rfl⟩
  | some r => exact .inr ⟨r, fun hl => by simp [(State.refusalReason_none s).2 hl] at h, rfl, rfl⟩

theorem State.admitted_legal (s : State) (go : Result) (h : s.Legal) : s.admitted go = go := by
  rcases s.admitted_cases go with h' | ⟨_, h', _⟩
  · exact h'.2
  · exact absurd h h'

/-- R102, R107, R111: the stages of a pixel that the index names. -/
theorem State.stage_of_pixel (s : State) (h : s.stage.pix < s.pixels) :
    s.stageHue = hueIndex s.hueBase s.stage.pix ∧ s.stagePhase = pixelPhase s.phase s.stage.pix ∧
    s.stageFb = Memory.writePixel s.fb s.stage.pix (scaleColor s.stage.raw s.stage.bright) :=
  ⟨if_pos h, if_pos h, if_pos h⟩

/-- Where the index names no pixel, the stages' values are free and no byte is stored (log 11). -/
theorem State.stage_without_pixel (s : State) (h : s.pixels ≤ s.stage.pix) :
    s.stageHue = Config.hueNoPixel s.env.tick ∧ s.stagePhase = Config.phaseNoPixel s.env.tick ∧ s.stageFb = s.fb :=
  ⟨if_neg (Nat.not_lt.2 h), if_neg (Nat.not_lt.2 h), if_neg (Nat.not_lt.2 h)⟩

/-- After a pixel that the frame does not have, the loop of R112 begins again (log 11). -/
theorem nextPixel_of_le (i n : Nat) (h : n ≤ i + 1) : nextPixel i n = 0 := if_neg (Nat.not_lt.2 h)

/-- R39: the step finds `tx_ready` as it was before it: beginning a step changes no count of the channel (log 2). -/
@[simp] theorem State.channelCount_beginStep (s : State) : s.beginStep.channelCount = s.channelCount := rfl

@[simp] theorem State.acceptCount_beginStep (s : State) : s.beginStep.acceptCount = s.acceptCount := rfl

@[simp] theorem State.txReadyAt_beginStep (s : State) (j : Nat) : s.beginStep.txReadyAt j = s.txReadyAt j := rfl

/-- R39: when `tx_valid` is 1. -/
theorem State.txValid_iff (s : State) : s.txValid = true ↔ s.seq = seqSend ∧ s.off.toNat < s.frameLen :=
  decide_eq_true_iff

/-- R149: the count is within `[0, rem]`, whatever the channel chooses. -/
theorem State.acceptCount_le (s : State) : s.acceptCount ≤ s.remaining := Nat.min_le_right _ _

/-- R39: transfer `j` of a SEND step takes place exactly when a byte is left to offer and `tx_ready` is 1. -/
theorem State.lt_acceptCount (s : State) (j : Nat) :
    j < s.acceptCount ↔ s.off.toNat + j < s.frameLen ∧ s.txReadyAt j = true := by
  simp only [State.acceptCount, State.remaining, State.txReadyAt, decide_eq_true_eq]
  omega

theorem State.off_add_acceptCount_le (s : State) (h : s.off.toNat ≤ s.frameLen) :
    s.off.toNat + s.acceptCount ≤ s.frameLen := by
  have := s.acceptCount_le
  unfold State.remaining at this
  omega

/-- R30, R145: the wire length of an admitted pixel count fits the 18 bits of `OFF`. -/
theorem State.frameLen_lt (s : State) (h : s.pixels ≤ maxPixels) : s.frameLen < 2 ^ 18 := by
  simp only [State.frameLen, hdrLen, maxPixels] at *; omega

/-- R64, R65: transmitting keeps the bytes handed over, in order. -/
theorem State.handed_transmit (s : State) : s.transmit.handed = s.handed := by
  unfold State.transmit State.handed
  split <;> simp_all

/-- R64: emitting appends. -/
theorem State.handed_emit (s : State) (bs : List Byte) : (s.emit bs).handed = s.handed ++ bs := by
  simp [State.handed, State.emit]

/-- R149: the bytes of two attempts in a row are those of one. -/
theorem State.wireBytes_add (s : State) (o j k : Nat) :
    s.wireBytes o (j + k) = s.wireBytes o j ++ s.wireBytes (o + j) k := by
  simp [State.wireBytes, List.range_add, Nat.add_assoc]

theorem State.wireBytes_congr (s t : State) (o k : Nat) (hh : t.hdr = s.hdr) (hf : t.fb = s.fb) :
    t.wireBytes o k = s.wireBytes o k := by
  simp [State.wireBytes, State.wireByte, State.fbByte, hh, hf]

/-- R205: every operation but INIT first asks whether the state has a meaning. -/
theorem exec_admitted (i : Instr) (s : State) (h : i ≠ .init) : ∃ go, exec i s = s.admitted go := by
  cases i <;> first | exact absurd rfl h | exact ⟨_, rfl⟩

/-- R231: INIT refuses a pixel count, or leaves the reset registers. -/
theorem execInit_cases (s : State) :
    (maxPixels < s.ports.cfgN.toNat ∧ execInit s = .next (s.initDone.refuse .pixelCount)) ∨
    (s.ports.cfgN.toNat ≤ maxPixels ∧ execInit s = .next s.initialised.initDone) := by
  unfold execInit
  split
  · exact .inl ⟨‹_›, rfl⟩
  · exact .inr ⟨Nat.not_lt.1 ‹_›, rfl⟩

/-- R155, R158: a report is made, and recorded, exactly when `now_sec` is after `T_LAST`. -/
theorem State.report_cases (s : State) (f b : BitVec 64) :
    (s.tLast < s.ports.nowSec ∧ s.report f b =
      { s with rptFps := reportRate f s.ports.nowSec s.tStart, rptBps := reportRate b s.ports.nowSec s.tStart,
               tLast := s.ports.nowSec, rptValid := true,
               reports := s.reports ++
                 [{ fps := reportRate f s.ports.nowSec s.tStart, bps := reportRate b s.ports.nowSec s.tStart }] }) ∨
    (¬ s.tLast < s.ports.nowSec ∧ s.report f b = { s with rptValid := false }) := by
  by_cases h : s.tLast < s.ports.nowSec <;> simp [State.report, State.reportDue, h]

/-- R186, R205: a whole operation answers a next state from every state, and a whole operation follows it. -/
theorem exec_whole (i : Instr) (s : State) (h : i.stgField = 0) (hs : s.stg = 0) :
    ∃ t, exec i s = .next t ∧ t.stg = 0 := by
  by_cases hi : i = .init
  · subst hi
    rcases execInit_cases s with ⟨_, he⟩ | ⟨_, he⟩
    · exact ⟨_, he, hs⟩
    · exact ⟨_, he, rfl⟩
  · obtain ⟨go, hgo⟩ := exec_admitted i s hi
    rcases s.admitted_cases go with ⟨hl, _⟩ | ⟨r, _, _, hr⟩
    · cases i with
      | init => exact absurd rfl hi
      | gen => exact ⟨_, s.admitted_legal _ hl, rfl⟩
      | adv => exact ⟨_, s.admitted_legal _ hl, rfl⟩
      | drain =>
        refine ⟨_, s.admitted_legal _ hl, ?_⟩
        split
        · rfl
        · exact hs
      | send =>
        have he : exec .send s = _ := s.admitted_legal _ hl
        split at he
        · exact ⟨_, he, hs⟩
        · exact ⟨_, he, rfl⟩
      | stats => exact ⟨_, s.admitted_legal _ hl, rfl⟩
      | _ => exact absurd h (by decide)
    · exact ⟨_, hgo.trans hr, hs⟩

/-- The step, by the agent whose turn it is. -/
theorem step_cases (s : State) :
    (s.turn = .sequencer ∧ step s = sequencerStep s.beginStep) ∨
    (s.turn = .channelTx ∧ step s = .next s.beginStep.transmit) ∨
    (∃ h, s.turn = .host h ∧ step s = .next (s.beginStep.hostStep h)) := by
  unfold step agentStep
  cases s.turn with
  | sequencer => exact .inl ⟨rfl, rfl⟩
  | channelTx => exact .inr (.inl ⟨rfl, rfl⟩)
  | host h => exact .inr (.inr ⟨h, rfl, rfl⟩)

/-- The sequencer's step: a hold of a refused block, an operation, or the refusal of a reserved word. -/
theorem sequencerStep_cases (s : State) :
    (s.halted = true ∧ sequencerStep s = .next s) ∨
    (∃ i, s.halted = false ∧ decodeWord s.fetchWord = .ok i ∧ sequencerStep s = exec i s) ∨
    (∃ e, s.halted = false ∧ decodeWord s.fetchWord = .error e ∧
      sequencerStep s = .next (s.refuse .reservedCode)) := by
  unfold sequencerStep
  cases hh : s.halted with
  | true => exact .inl ⟨rfl, by simp⟩
  | false =>
    cases hd : decodeWord s.fetchWord with
    | ok i => exact .inr (.inl ⟨i, rfl, rfl, by simp⟩)
    | error e => exact .inr (.inr ⟨e, rfl, rfl, by simp⟩)

/-- R82, R83: the word of a whole operation, or of INIT, is read as one or refused. -/
theorem fetchWord_whole (s : State) (hs : s.stg = 0) (i : Instr) (h : decodeWord s.fetchWord = .ok i) : i.stgField = 0 := by
  have key : ∀ q : BitVec 3, (match decodeWord (q ++ (0 : BitVec 3)) with | .ok i => decide (i.stgField = 0) | .error _ => true) = true := by
    decide
  have k0 := key 0
  have kq := key s.seq
  unfold State.fetchWord at h
  split at h
  · rw [hs] at h
    rw [h] at kq; exact of_decide_eq_true kq
  · rw [show (0 : BitVec 6) = (0 : BitVec 3) ++ (0 : BitVec 3) from rfl] at h
    rw [h] at k0; exact of_decide_eq_true k0

/-- R182: while the sequencer executes whole operations, every step answers a next state. -/
theorem step_whole (s : State) (hs : s.stg = 0) : ∃ t, step s = .next t ∧ t.stg = 0 := by
  rcases step_cases s with ⟨_, h⟩ | ⟨_, h⟩ | ⟨c, _, h⟩
  · rcases sequencerStep_cases s.beginStep with ⟨_, h2⟩ | ⟨i, _, hd, h2⟩ | ⟨e, _, _, h2⟩
    · exact ⟨_, h.trans h2, hs⟩
    · obtain ⟨t, ht, h0⟩ := exec_whole i s.beginStep (fetchWord_whole s.beginStep hs i hd) hs
      exact ⟨t, h.trans (h2.trans ht), h0⟩
    · exact ⟨_, h.trans h2, hs⟩
  · refine ⟨_, h, ?_⟩
    unfold State.transmit
    split <;> exact hs
  · refine ⟨_, h, ?_⟩
    cases c <;> first | rfl | exact hs

end Sys2Proof.Machine
end

