-- ==== Sys2Proof/Laws/Float.lean ====
section
/-! SUPPORT. Binary64: the fields of a value made from a sign and 63 bits, and the law of rounding: `roundMag` gives the
nearest finite value, the even one of two as near. -/

namespace Sys2Proof.Machine

/-- The first 63 bits of the infinities: the finite values are those below. -/
theorem infBits : (0x7FF0000000000000 : ℕ) = 2047 * 2 ^ 52 := by norm_num

theorem F64.toNat_ofSignMag (neg : Bool) (m : ℕ) (h : m < 2 ^ 63) :
    (F64.ofSignMag neg m).toNat = (if neg then 2 ^ 63 else 0) + m := by
  rw [F64.ofSignMag, BitVec.toNat_ofNat]
  apply Nat.mod_eq_of_lt
  split <;> omega

theorem F64.sign_ofSignMag (neg : Bool) (m : ℕ) (h : m < 2 ^ 63) : F64.sign (F64.ofSignMag neg m) = neg := by
  rw [F64.sign, BitVec.getLsbD, F64.toNat_ofSignMag neg m h, Nat.testBit_eq_decide_div_mod_eq]
  cases neg
  · exact decide_eq_false (by simp only [Bool.false_eq_true, if_false]; omega)
  · exact decide_eq_true (by simp only [if_true]; omega)

theorem F64.expo_ofSignMag (neg : Bool) (m : ℕ) (h : m < 2 ^ 63) :
    F64.expo (F64.ofSignMag neg m) = m / 2 ^ 52 := by
  rw [F64.expo, F64.toNat_ofSignMag neg m h]; split <;> omega

theorem F64.frac_ofSignMag (neg : Bool) (m : ℕ) (h : m < 2 ^ 63) :
    F64.frac (F64.ofSignMag neg m) = m % 2 ^ 52 := by
  rw [F64.frac, F64.toNat_ofSignMag neg m h]; split <;> omega

theorem F64.finite_ofSignMag (neg : Bool) (m : ℕ) (h : m < 2047 * 2 ^ 52) :
    F64.finite (F64.ofSignMag neg m) = true := by
  rw [F64.finite, F64.expo_ofSignMag neg m (by omega), bne_iff_ne]; omega

/-- The last bit of a value is the last bit of its 63 bits. -/
theorem F64.lsb_ofSignMag (neg : Bool) (m : ℕ) (h : m < 2 ^ 63) :
    (F64.ofSignMag neg m).getLsbD 0 = decide (m % 2 = 1) := by
  rw [BitVec.getLsbD, F64.toNat_ofSignMag neg m h, Nat.testBit_eq_decide_div_mod_eq]
  split <;> (congr 1; simp only [pow_zero, Nat.div_one, eq_iff_iff]; omega)

/-- The magnitude of the value whose 63 bits are `q · 2^52 + n`, with `n` in the range rounding leaves. -/
theorem F64.mag_ofSignMag (neg : Bool) (q n : ℕ) (hn : n ≤ 2 ^ 53) (hq : q = 0 ∨ 2 ^ 52 ≤ n)
    (h : q * 2 ^ 52 + n < 2047 * 2 ^ 52) : F64.mag (F64.ofSignMag neg (q * 2 ^ 52 + n)) = n * 2 ^ q := by
  have h63 : q * 2 ^ 52 + n < 2 ^ 63 := by omega
  rw [F64.mag, F64.expo_ofSignMag _ _ h63, F64.frac_ofSignMag _ _ h63]
  rcases Nat.lt_or_ge n (2 ^ 52) with h1 | h1
  · have hq0 : q = 0 := by omega
    subst hq0
    rw [if_pos (by omega), Nat.mod_eq_of_lt (by omega)]; omega
  · rcases Nat.lt_or_ge n (2 ^ 53) with h2 | h2
    · have e1 : (q * 2 ^ 52 + n) / 2 ^ 52 = q + 1 := by omega
      have e2 : (q * 2 ^ 52 + n) % 2 ^ 52 = n - 2 ^ 52 := by omega
      rw [e1, e2, if_neg (by omega), Nat.add_sub_cancel, show 2 ^ 52 + (n - 2 ^ 52) = n by omega]
    · have hn2 : n = 2 ^ 53 := by omega
      have e1 : (q * 2 ^ 52 + n) / 2 ^ 52 = q + 2 := by omega
      have e2 : (q * 2 ^ 52 + n) % 2 ^ 52 = 0 := by omega
      rw [e1, e2, if_neg (by omega), hn2, show q + 2 - 1 = q + 1 by omega, pow_succ 2 q]; ring

/-- Rounding a quotient: it errs by at most half, and a result that errs by half is even. -/
theorem roundDivEven_spec (n d : ℕ) (hd : 0 < d) :
    |(2 * roundDivEven n d * d - 2 * n : ℤ)| ≤ d ∧
    (|(2 * roundDivEven n d * d - 2 * n : ℤ)| = d → roundDivEven n d % 2 = 0) ∧
    n / d ≤ roundDivEven n d ∧ roundDivEven n d ≤ n / d + 1 := by
  have h1 := Nat.div_add_mod n d
  have h2 := Nat.mod_lt n hd
  unfold roundDivEven
  generalize n / d = k at *
  generalize n % d = r at *
  have hz : (n : ℤ) = d * k + r := by exact_mod_cast h1.symm
  split_ifs with c1 c2
  · refine ⟨?_, ?_, le_rfl, by omega⟩
    · rw [hz, show (2 * k * d - 2 * (d * k + r) : ℤ) = -(2 * r) by ring, abs_neg, abs_of_nonneg (by positivity)]; omega
    · rw [hz, show (2 * k * d - 2 * (d * k + r) : ℤ) = -(2 * r) by ring, abs_neg, abs_of_nonneg (by positivity)]; omega
  · refine ⟨?_, ?_, by omega, le_rfl⟩
    · push_cast
      rw [hz, show (2 * (k + 1) * d - 2 * (d * k + r) : ℤ) = 2 * (d - r) by ring, abs_of_nonneg (by omega)]; omega
    · push_cast
      rw [hz, show (2 * (k + 1) * d - 2 * (d * k + r) : ℤ) = 2 * (d - r) by ring, abs_of_nonneg (by omega)]; omega
  · have hr : d = 2 * r := by omega
    refine ⟨?_, fun _ => by omega, by omega, by omega⟩
    rcases Nat.mod_two_eq_zero_or_one k with hk | hk
    · rw [hk, hz]
      push_cast
      rw [show (2 * ((k : ℤ) + 0) * d - 2 * (d * k + r) : ℤ) = -(2 * r) by ring, abs_neg, abs_of_nonneg (by positivity)]
      omega
    · rw [hk, hz]
      push_cast
      rw [show (2 * ((k : ℤ) + 1) * d - 2 * (d * k + r) : ℤ) = 2 * (d - r) by ring, abs_of_nonneg (by omega)]
      omega

/-- The bits of a rounded non-zero value, and what is known of them before a result too large is cut to infinity. -/
theorem roundMag_spec (a k : ℕ) (ha : a ≠ 0) :
    ∃ q n, roundMag a k = min (q * 2 ^ 52 + n) (2047 * 2 ^ 52) ∧
      n = roundDivEven (a * 2 ^ 1074) (2 ^ (k + q)) ∧ n ≤ 2 ^ 53 ∧
      (q = 0 ∨ (2 ^ 52 ≤ n ∧ 2 ^ 52 * 2 ^ (k + q) ≤ a * 2 ^ 1074)) := by
  refine ⟨lastPlace a k, roundDivEven (a * 2 ^ 1074) (2 ^ (k + lastPlace a k)), ?_, rfl, ?_, ?_⟩
  · rw [roundMag, if_neg ha, infBits]
  · obtain ⟨-, -, -, h⟩ := roundDivEven_spec (a * 2 ^ 1074) (2 ^ (k + lastPlace a k)) (by positivity)
    refine h.trans (Nat.succ_le_of_lt ?_)
    rw [Nat.div_lt_iff_lt_mul (by positivity), ← pow_add]
    have h2 : a < 2 ^ (Nat.log2 a + 1) := Nat.lt_log2_self
    refine (Nat.mul_lt_mul_of_pos_right h2 (by positivity)).trans_le ?_
    rw [← pow_add]
    exact Nat.pow_le_pow_right (by norm_num) (by unfold lastPlace; omega)
  · rcases Nat.eq_zero_or_pos (lastPlace a k) with h0 | h0
    · exact .inl h0
    · have h2 : 2 ^ Nat.log2 a ≤ a := Nat.log2_self_le ha
      have h3 : 2 ^ 52 * 2 ^ (k + lastPlace a k) ≤ a * 2 ^ 1074 := by
        refine le_trans ?_ (Nat.mul_le_mul_right _ h2)
        rw [← pow_add, ← pow_add]
        exact Nat.pow_le_pow_right (by norm_num) (by unfold lastPlace at *; omega)
      obtain ⟨-, -, h, -⟩ := roundDivEven_spec (a * 2 ^ 1074) (2 ^ (k + lastPlace a k)) (by positivity)
      exact .inr ⟨le_trans ((Nat.le_div_iff_mul_le (by positivity)).2 h3) h, h3⟩

theorem roundMag_le_inf (a k : ℕ) : roundMag a k ≤ 2047 * 2 ^ 52 := by
  unfold roundMag
  split
  · omega
  · exact (Nat.min_le_right _ _).trans_eq infBits

/-- A value below the overflow threshold rounds to a finite one. -/
theorem roundMag_finite (a k : ℕ) (h : 2 * (a * 2 ^ 1074) < (2 ^ 54 - 1) * 2 ^ (k + 2045)) :
    roundMag a k < 2047 * 2 ^ 52 := by
  rcases Nat.eq_zero_or_pos a with rfl | ha
  · rw [roundMag, if_pos rfl]; norm_num
  obtain ⟨q, n, hr, hn, hn53, hq⟩ := roundMag_spec a k ha.ne'
  rw [hr]
  refine (Nat.min_le_left _ _).trans_lt ?_
  rcases hq with rfl | ⟨-, hq⟩
  · omega
  · have hqle : q ≤ 2045 := by
      by_contra hc
      have e : 2 ^ (k + q) = 2 ^ (k + 2045) * 2 ^ (q - 2045) := by
        rw [← pow_add]; exact congrArg (fun i : ℕ => 2 ^ i) (by omega)
      have e2 : 2 ≤ 2 ^ (q - 2045) := by
        calc 2 = 2 ^ 1 := rfl
          _ ≤ 2 ^ (q - 2045) := Nat.pow_le_pow_right (by norm_num) (by omega)
      rw [e] at hq
      have e3 := Nat.mul_le_mul_left (2 ^ (k + 2045)) e2
      generalize 2 ^ (k + 2045) * 2 ^ (q - 2045) = d2 at *
      generalize 2 ^ (k + 2045) = d at *
      generalize a * 2 ^ 1074 = v at *
      omega
    rcases Nat.lt_or_ge q 2045 with hlt | hge
    · omega
    · have hq2 : q = 2045 := by omega
      subst hq2
      have hs := (abs_le.1 (roundDivEven_spec (a * 2 ^ 1074) (2 ^ (k + 2045)) (by positivity)).1).2
      rw [← hn] at hs
      generalize 2 ^ (k + 2045) = d at *
      generalize a * 2 ^ 1074 = v at *
      have : n < 2 ^ 53 := by
        by_contra hc
        have hn' : n = 2 ^ 53 := by omega
        rw [hn'] at hs
        push_cast at hs
        omega
      omega

/-- A finite magnitude: below `2^53` units of some place, and a multiple of that place. -/
theorem F64.mag_form (x : F64) : ∃ m e, F64.mag x = m * 2 ^ e ∧ m < 2 ^ 53 := by
  have hf : F64.frac x < 2 ^ 52 := Nat.mod_lt _ (by norm_num)
  unfold F64.mag
  split
  · exact ⟨F64.frac x, 0, (Nat.mul_one _).symm, by omega⟩
  · exact ⟨_, _, rfl, by omega⟩

/-- The largest finite magnitude. -/
theorem F64.mag_le (x : F64) (h : F64.finite x = true) : F64.mag x ≤ (2 ^ 53 - 1) * 2 ^ 2045 := by
  have he : F64.expo x ≤ 2046 := by
    have h1 : F64.expo x < 2048 := Nat.mod_lt _ (by norm_num)
    rw [F64.finite, bne_iff_ne] at h; omega
  have hf : F64.frac x < 2 ^ 52 := Nat.mod_lt _ (by norm_num)
  unfold F64.mag
  split
  · calc F64.frac x ≤ (2 ^ 53 - 1) * 1 := by omega
      _ ≤ _ := Nat.mul_le_mul_left _ Nat.one_le_two_pow
  · exact Nat.mul_le_mul (by omega) (Nat.pow_le_pow_right (by norm_num) (by omega))

/-- A value in units of 2^-1074, with its sign. -/
def F64.units (x : F64) : ℤ := (if F64.sign x then -1 else 1) * (F64.mag x : ℤ)

theorem F64.value_units (x : F64) : F64.value x = (F64.units x : ℚ) / 2 ^ 1074 := by
  unfold F64.value F64.units
  split <;> push_cast <;> rfl

/-- A value that is no multiple of `2^q` is below `2^(52 + q)` in magnitude. -/
theorem F64.units_grid (x : F64) (q : ℕ) :
    (∃ j : ℤ, F64.units x = j * 2 ^ q) ∨ (0 < q ∧ |F64.units x| < 2 ^ (52 + q)) := by
  obtain ⟨m, e, hm, hlt⟩ := F64.mag_form x
  rcases Nat.lt_or_ge e q with h | h
  · refine .inr ⟨by omega, ?_⟩
    have habs : |F64.units x| = (F64.mag x : ℤ) := by
      unfold F64.units; split <;> simp
    rw [habs]
    have : F64.mag x < 2 ^ (52 + q) := by
      rw [hm]
      calc m * 2 ^ e < 2 ^ 53 * 2 ^ e := Nat.mul_lt_mul_of_pos_right hlt (by positivity)
        _ = 2 ^ (53 + e) := (pow_add _ _ _).symm
        _ ≤ 2 ^ (52 + q) := Nat.pow_le_pow_right (by norm_num) (by omega)
    exact_mod_cast this
  · left
    refine ⟨(if F64.sign x then -1 else 1) * (m * 2 ^ (e - q)), ?_⟩
    rw [F64.units, hm]
    have : (2 : ℤ) ^ e = 2 ^ (e - q) * 2 ^ q := by rw [← pow_add]; congr 1; omega
    push_cast
    rw [this]; ring

/-- The nearest multiple of `D` to `v`, where `g` is one that errs by at most half: none is nearer, and where another
is as near, `g` errs by exactly half. -/
theorem nearest_multiple (D g v : ℤ) (hD : 0 < D) (h : |2 * g * D - 2 * v| ≤ D) (j : ℤ) :
    |g * D - v| ≤ |j * D - v| ∧ (|j * D - v| = |g * D - v| → j * D ≠ g * D → |2 * g * D - 2 * v| = D) := by
  rcases eq_or_ne j g with rfl | hne
  · exact ⟨le_rfl, fun _ hn => absurd rfl hn⟩
  · have hdist : D ≤ |j * D - g * D| := by
      rw [← sub_mul, abs_mul, abs_of_pos hD]
      exact le_mul_of_one_le_left hD.le (Int.one_le_abs (sub_ne_zero.2 hne))
    have htri : |j * D - g * D| ≤ |j * D - v| + |g * D - v| := by
      have := abs_sub_le (j * D) v (g * D)
      rwa [abs_sub_comm v] at this
    have h2 : |2 * g * D - 2 * v| = 2 * |g * D - v| := by
      rw [show 2 * g * D - 2 * v = 2 * (g * D - v) by ring, abs_mul, abs_two]
    rw [h2] at h ⊢
    exact ⟨by omega, fun he _ => by omega⟩

/-- The distance of two fractions over a common denominator. -/
theorem abs_div_sub_div (u v M K : ℤ) (hM : 0 < M) (hK : 0 < K) :
    |(u : ℚ) / M - (v : ℚ) / K| = ((|u * K - v * M| : ℤ) : ℚ) / (M * K) := by
  have h1 : (0 : ℚ) < M := by exact_mod_cast hM
  have h2 : (0 : ℚ) < K := by exact_mod_cast hK
  rw [div_sub_div _ _ h1.ne' h2.ne', abs_div, abs_of_pos (mul_pos h1 h2)]
  push_cast
  rw [mul_comm (M : ℚ) (v : ℚ)]

/-- R15 `fl`: a finite result of `roundMag` is the nearest binary64 value to `± a / 2^k`, ties to even. -/
theorem F64.roundMag_isRounded (neg : Bool) (a k : ℕ) (hfin : roundMag a k < 2047 * 2 ^ 52) :
    F64.IsRounded (F64.ofSignMag neg (roundMag a k)) ((if neg then -1 else 1) * (a : ℚ) / 2 ^ k) := by
  set σ : ℤ := if neg then -1 else 1 with hσ
  have hσ2 : σ * σ = 1 := by rw [hσ]; split <;> norm_num
  have hσq : ((if neg then -1 else 1 : ℚ)) = (σ : ℚ) := by rw [hσ]; split <;> norm_num
  -- the result is `n` units of `2^q`, with the properties of `roundMag_spec`
  obtain ⟨q, n, hbits, hmag, hnear, heven, hbig⟩ : ∃ q n : ℕ, roundMag a k = q * 2 ^ 52 + n ∧
      F64.mag (F64.ofSignMag neg (roundMag a k)) = n * 2 ^ q ∧
      |(2 * n * 2 ^ (k + q) - 2 * (a * 2 ^ 1074) : ℤ)| ≤ 2 ^ (k + q) ∧
      (|(2 * n * 2 ^ (k + q) - 2 * (a * 2 ^ 1074) : ℤ)| = 2 ^ (k + q) → n % 2 = 0) ∧
      (q = 0 ∨ 2 ^ 52 * 2 ^ (k + q) ≤ a * 2 ^ 1074) := by
    rcases Nat.eq_zero_or_pos a with rfl | ha
    · refine ⟨0, 0, by rw [roundMag, if_pos rfl]; rfl, ?_, by norm_num, by norm_num, .inl rfl⟩
      rw [roundMag, if_pos rfl]
      exact F64.mag_ofSignMag neg 0 0 (by norm_num) (.inl rfl) (by norm_num)
    · obtain ⟨q, n, hr, hn, hn53, hq⟩ := roundMag_spec a k ha.ne'
      have hr' : roundMag a k = q * 2 ^ 52 + n := by omega
      obtain ⟨s1, s2, -, -⟩ := roundDivEven_spec (a * 2 ^ 1074) (2 ^ (k + q)) (by positivity)
      rw [← hn] at s1 s2
      push_cast at s1 s2
      refine ⟨q, n, hr', ?_, s1, s2, hq.imp_right And.right⟩
      rw [hr']
      exact F64.mag_ofSignMag neg q n hn53 (hq.imp_right And.left) (by omega)
  refine ⟨F64.finite_ofSignMag neg _ hfin, fun w hw => ?_⟩
  have hunits : F64.units (F64.ofSignMag neg (roundMag a k)) = σ * (n * 2 ^ q) := by
    rw [F64.units, F64.sign_ofSignMag neg _ (by omega), hmag, hσ]; push_cast; rfl
  -- everything in units of `2^-(k + 1074)`
  have hscale : ∀ u : ℤ, |(u : ℚ) / 2 ^ 1074 - (if neg then -1 else 1) * (a : ℚ) / 2 ^ k|
      = ((|u * 2 ^ k - σ * (a * 2 ^ 1074)| : ℤ) : ℚ) / (2 ^ 1074 * 2 ^ k) := by
    intro u
    have h := abs_div_sub_div u (σ * a) (2 ^ 1074) (2 ^ k) (pow_pos two_pos _) (pow_pos two_pos _)
    rw [Int.cast_pow, Int.cast_pow, Int.cast_mul, Int.cast_natCast, Int.cast_ofNat, mul_assoc σ] at h
    rw [hσq]
    exact h
  have hpos : (0 : ℚ) < 2 ^ 1074 * 2 ^ k := mul_pos (pow_pos two_pos _) (pow_pos two_pos _)
  rw [F64.value_units, F64.value_units, hscale, hscale, hunits, div_le_div_iff_of_pos_right hpos,
    div_left_inj' hpos.ne', Int.cast_le, Int.cast_inj]
  have hD : (0 : ℤ) < 2 ^ (k + q) := by positivity
  have hg : σ * ((n : ℤ) * 2 ^ q) * 2 ^ k = (σ * n) * 2 ^ (k + q) := by rw [pow_add]; ring
  have hnear' : |2 * (σ * n) * 2 ^ (k + q) - 2 * (σ * (a * 2 ^ 1074))| ≤ (2 : ℤ) ^ (k + q) := by
    rw [show 2 * (σ * n) * 2 ^ (k + q) - 2 * (σ * (a * 2 ^ 1074))
      = σ * (2 * n * 2 ^ (k + q) - 2 * (a * 2 ^ 1074)) by ring, abs_mul,
      show |σ| = 1 by rw [hσ]; split <;> norm_num, one_mul]
    exact hnear
  rw [hg]
  rcases F64.units_grid w q with ⟨j, hj⟩ | hsmall
  · have hwj : F64.units w * 2 ^ k = j * 2 ^ (k + q) := by rw [hj, pow_add]; ring
    rw [hwj]
    obtain ⟨c1, c2⟩ := nearest_multiple (2 ^ (k + q)) (σ * n) (σ * (a * 2 ^ 1074)) hD hnear' j
    refine ⟨c1, fun he hne => ?_⟩
    have hne' : j * 2 ^ (k + q) ≠ σ * n * 2 ^ (k + q) := by
      intro hc
      apply hne
      rw [hj]
      have h2k : (2 : ℤ) ^ k ≠ 0 := by positivity
      have : j * 2 ^ q = σ * (n * 2 ^ q) := by
        apply mul_right_cancel₀ h2k
        rw [hg, ← hc, pow_add]; ring
      rw [this]
    have hhalf := c2 he hne'
    rw [show 2 * (σ * n) * 2 ^ (k + q) - 2 * (σ * (a * 2 ^ 1074))
      = σ * (2 * n * 2 ^ (k + q) - 2 * (a * 2 ^ 1074)) by ring, abs_mul,
      show |σ| = 1 by rw [hσ]; split <;> norm_num, one_mul] at hhalf
    have := heven hhalf
    rw [F64.lsb_ofSignMag neg _ (by omega), hbits, decide_eq_false_iff_not]
    omega
  · -- a value off the grid is below the grid point `2^52` units, which is not above `a / 2^k`
    obtain ⟨hq0, hsmall⟩ := hsmall
    have hG : (2 : ℤ) ^ 52 * 2 ^ (k + q) ≤ a * 2 ^ 1074 := by
      rcases hbig with h0 | h
      · omega
      · exact_mod_cast h
    obtain ⟨c1, -⟩ := nearest_multiple (2 ^ (k + q)) (σ * n) (σ * (a * 2 ^ 1074)) hD hnear' (σ * 2 ^ 52)
    have hσa : |σ| = 1 := by rw [hσ]; split <;> norm_num
    have e1 : |σ * 2 ^ 52 * 2 ^ (k + q) - σ * (a * 2 ^ 1074)| = (a : ℤ) * 2 ^ 1074 - 2 ^ 52 * 2 ^ (k + q) := by
      rw [show σ * 2 ^ 52 * 2 ^ (k + q) - σ * (a * 2 ^ 1074)
        = -(σ * ((a : ℤ) * 2 ^ 1074 - 2 ^ 52 * 2 ^ (k + q))) by ring, abs_neg, abs_mul, hσa, one_mul,
        abs_of_nonneg (by omega)]
    have e2 : |F64.units w * 2 ^ k| < 2 ^ 52 * 2 ^ (k + q) := by
      rw [abs_mul, abs_of_pos (show (0 : ℤ) < 2 ^ k by positivity)]
      calc |F64.units w| * 2 ^ k < 2 ^ (52 + q) * 2 ^ k := mul_lt_mul_of_pos_right hsmall (by positivity)
        _ = 2 ^ 52 * 2 ^ (k + q) := by rw [pow_add, pow_add]; ring
    have e3 : |σ * ((a : ℤ) * 2 ^ 1074)| = (a : ℤ) * 2 ^ 1074 := by
      rw [abs_mul, hσa, one_mul]
      exact abs_of_nonneg (mul_nonneg (Int.natCast_nonneg a) (pow_pos two_pos _).le)
    have e4 := abs_sub_abs_le_abs_sub (σ * ((a : ℤ) * 2 ^ 1074)) (F64.units w * 2 ^ k)
    rw [abs_sub_comm (σ * ((a : ℤ) * 2 ^ 1074)), e3] at e4
    rw [e1] at c1
    exact ⟨by omega, fun he => by omega⟩

/-- A rounded value is at most twice the value rounded. -/
theorem F64.mag_roundMag_le (neg : Bool) (a k : ℕ) (hfin : roundMag a k < 2047 * 2 ^ 52) :
    F64.mag (F64.ofSignMag neg (roundMag a k)) * 2 ^ k ≤ 2 * a * 2 ^ 1074 := by
  have h0 := ((F64.roundMag_isRounded neg a k hfin).2 0 (by decide)).1
  have hz : F64.value 0 = 0 := by
    have : F64.mag 0 = 0 := by decide
    rw [F64.value, this]; simp
  rw [hz, zero_sub, abs_neg] at h0
  have hM : (0 : ℚ) < 2 ^ 1074 := pow_pos two_pos _
  have hK : (0 : ℚ) < 2 ^ k := pow_pos two_pos _
  have habs : ∀ (b : Bool) (m n : ℚ), 0 ≤ m → 0 < n → |(if b then -1 else 1) * m / n| = m / n := by
    intro b m n hm hn
    rw [abs_div, abs_of_pos hn, abs_mul, abs_of_nonneg hm]
    cases b <;> norm_num
  have e1 := habs neg a (2 ^ k) (Nat.cast_nonneg a) hK
  have e2 := habs (F64.sign (F64.ofSignMag neg (roundMag a k))) (F64.mag (F64.ofSignMag neg (roundMag a k)))
    (2 ^ 1074) (Nat.cast_nonneg _) hM
  have h1 := abs_sub_abs_le_abs_sub (F64.value (F64.ofSignMag neg (roundMag a k)))
    ((if neg then -1 else 1) * (a : ℚ) / 2 ^ k)
  rw [F64.value] at h0 h1
  rw [e2, e1] at h1
  rw [e1] at h0
  have h2 : (F64.mag (F64.ofSignMag neg (roundMag a k)) : ℚ) / 2 ^ 1074 ≤ 2 * a / 2 ^ k := by
    rw [mul_div_assoc]; linarith
  rw [div_le_div_iff₀ hM hK] at h2
  exact_mod_cast h2

/-- Adding a value of moderate size to a finite one stays finite. -/
theorem F64.add_finite (x y : F64) (hx : F64.finite x = true) (hy : F64.mag y < 2 ^ 2044) :
    F64.finite (F64.add x y) = true := by
  have hmx := F64.mag_le x hx
  have key : ∀ a, a ≤ F64.mag x + F64.mag y → ∀ b, F64.finite (F64.ofSignMag b (roundMag a 1074)) = true := by
    intro a ha b
    refine F64.finite_ofSignMag b _ (roundMag_finite a 1074 ?_)
    rw [pow_add, mul_comm (2 ^ 1074) (2 ^ 2045), ← mul_assoc, ← mul_assoc]
    refine Nat.mul_lt_mul_of_pos_right ?_ (pow_pos two_pos _)
    rw [show 2 ^ 2045 = 2 * 2 ^ 2044 from pow_succ' 2 2044] at hmx ⊢
    generalize 2 ^ 2044 = c at *
    omega
  unfold F64.add
  split
  · exact key _ le_rfl _
  · split
    · exact key _ (by omega) _
    · split
      · exact key _ (by omega) _
      · decide

/-- R115, R26: the phase of the next frame is finite. -/
theorem nextPhase_finite (p : F64) (h : F64.finite p = true) : F64.finite (nextPhase p) = true :=
  F64.add_finite p _ h (by decide +kernel)

/-- R107: `fl(i)` of a pixel index is exact. -/
theorem F64.mag_ofNat (i : ℕ) (h : i < 2 ^ 53) : F64.mag (F64.ofNat i) = i * 2 ^ 1074 := by
  rcases Nat.eq_zero_or_pos i with rfl | hi
  · rw [F64.ofNat, roundMag, if_pos rfl, Nat.zero_mul]; decide
  have hlog : Nat.log2 i < 53 := (Nat.log2_lt hi.ne').2 h
  have hq : lastPlace i 0 = Nat.log2 i + 1022 := rfl
  have e1074 : (2 : ℕ) ^ 1074 = 2 ^ (52 - Nat.log2 i) * 2 ^ (Nat.log2 i + 1022) := by
    rw [← pow_add]; exact congrArg (fun j : ℕ => 2 ^ j) (by omega)
  have hpos : 0 < 2 ^ (Nat.log2 i + 1022) := pow_pos two_pos _
  have hround : roundDivEven (i * 2 ^ 1074) (2 ^ (0 + lastPlace i 0)) = i * 2 ^ (52 - Nat.log2 i) := by
    rw [hq, Nat.zero_add, e1074, ← mul_assoc, roundDivEven, Nat.mul_mod_left, if_pos (by omega),
      Nat.mul_div_cancel _ hpos]
  have hlo : 2 ^ 52 ≤ i * 2 ^ (52 - Nat.log2 i) := by
    calc 2 ^ 52 = 2 ^ Nat.log2 i * 2 ^ (52 - Nat.log2 i) := by
          rw [← pow_add]; exact congrArg (fun j : ℕ => 2 ^ j) (by omega)
      _ ≤ _ := Nat.mul_le_mul_right _ (Nat.log2_self_le hi.ne')
  have hhi : i * 2 ^ (52 - Nat.log2 i) < 2 ^ 53 := by
    calc i * 2 ^ (52 - Nat.log2 i) < 2 ^ (Nat.log2 i + 1) * 2 ^ (52 - Nat.log2 i) :=
          Nat.mul_lt_mul_of_pos_right Nat.lt_log2_self (pow_pos two_pos _)
      _ = 2 ^ 53 := by rw [← pow_add]; exact congrArg (fun j : ℕ => 2 ^ j) (by omega)
  have hbits : roundMag i 0 = (Nat.log2 i + 1022) * 2 ^ 52 + i * 2 ^ (52 - Nat.log2 i) := by
    rw [roundMag, if_neg hi.ne', hround, hq, infBits]
    generalize i * 2 ^ (52 - Nat.log2 i) = n at *
    omega
  rw [F64.ofNat, hbits]
  generalize hn : i * 2 ^ (52 - Nat.log2 i) = n at *
  rw [F64.mag_ofSignMag false _ n hhi.le (.inr hlo) (by omega), ← hn, e1074]
  exact Nat.mul_assoc _ _ _

end Sys2Proof.Machine
end

