-- ==== Sys2Proof/Laws/PerInstr.lean ====
section
/-! SUPPORT. Per-operation families over the syntax (LAWS.json): the decoder reads every operation's own word, and that
word is well formed (spec/30_encoding.md R82 to R84). -/

namespace Sys2Proof.Laws.RoundTrip

/-- The operation is decoded from the word the encoder gives it, and that word is not reserved. -/
def Statement (i : Instr) : Prop :=
  decodeWord (encode i) = .ok i ∧ wordWellFormed (encode i) = true ∧ i.wellFormed = true

theorem init : Statement .init := ⟨rfl, rfl, rfl⟩
theorem gen : Statement .gen := ⟨rfl, rfl, rfl⟩
theorem genHue : Statement .genHue := ⟨rfl, rfl, rfl⟩
theorem genWheel : Statement .genWheel := ⟨rfl, rfl, rfl⟩
theorem genPhase : Statement .genPhase := ⟨rfl, rfl, rfl⟩
theorem genBright : Statement .genBright := ⟨rfl, rfl, rfl⟩
theorem genScale : Statement .genScale := ⟨rfl, rfl, rfl⟩
theorem adv : Statement .adv := ⟨rfl, rfl, rfl⟩
theorem drain : Statement .drain := ⟨rfl, rfl, rfl⟩
theorem send : Statement .send := ⟨rfl, rfl, rfl⟩
theorem stats : Statement .stats := ⟨rfl, rfl, rfl⟩
theorem statsAcc : Statement .statsAcc := ⟨rfl, rfl, rfl⟩
theorem statsRpt : Statement .statsRpt := ⟨rfl, rfl, rfl⟩

end Sys2Proof.Laws.RoundTrip
end

