-- ==== Sys2Proof/Laws/Sine.lean ====
section
/-! SUPPORT. The computed sine of Sys2Proof/Machine/Brightness.lean is within 2^-120 of the exact sine: one doubling of the
angle at most quadruples the error and adds one unit of rounding, and the halved angle is so small that its second-order
values are exact to far more bits than the doublings can lose. -/

namespace Sys2Proof.Machine

/-- Rounding an integer quotient by a power of two down moves it by at most one. -/
theorem abs_ediv_sub_le (A : ℤ) (p : ℕ) : |((A / 2 ^ p : ℤ) : ℝ) - (A : ℝ) / 2 ^ p| ≤ 1 := by
  have hp : (0 : ℤ) < 2 ^ p := by positivity
  have h1 : (2 ^ p : ℤ) * (A / 2 ^ p) + A % 2 ^ p = A := Int.mul_ediv_add_emod A (2 ^ p)
  have h2 : 0 ≤ A % 2 ^ p := Int.emod_nonneg _ hp.ne'
  have h3 : A % 2 ^ p < 2 ^ p := Int.emod_lt_of_pos _ hp
  have e1 : (2 ^ p : ℝ) * ((A / 2 ^ p : ℤ) : ℝ) + ((A % 2 ^ p : ℤ) : ℝ) = A := by exact_mod_cast h1
  have e2 : (0 : ℝ) ≤ ((A % 2 ^ p : ℤ) : ℝ) := by exact_mod_cast h2
  have e3 : ((A % 2 ^ p : ℤ) : ℝ) < 2 ^ p := by exact_mod_cast h3
  have hpr : (0 : ℝ) < 2 ^ p := by positivity
  rw [abs_sub_le_iff]
  constructor
  · rw [sub_le_iff_le_add, ← sub_le_iff_le_add', le_div_iff₀ hpr]; nlinarith
  · rw [sub_le_iff_le_add, div_le_iff₀ hpr]; nlinarith

/-- One unit of rounding in a value held with `p` fraction bits. -/
theorem abs_fixed_round_le (A : ℤ) (p : ℕ) (x : ℝ) (hx : (A : ℝ) / 2 ^ p / 2 ^ p = x) :
    |((A / 2 ^ p : ℤ) : ℝ) / 2 ^ p - x| ≤ 1 / 2 ^ p := by
  have hpr : (0 : ℝ) < 2 ^ p := by positivity
  rw [← hx, ← sub_div, abs_div, abs_of_pos hpr]
  exact div_le_div_of_nonneg_right (abs_ediv_sub_le A p) hpr.le

/-- Doubling the angle of a point on the circle at most quadruples the error of its coordinates. -/
theorem double_error (c s α β E : ℝ) (h1 : c ^ 2 + s ^ 2 = 1) (hα : |α| ≤ E) (hβ : |β| ≤ E) (hE : E ≤ 1 / 2) :
    |((c + α) ^ 2 - (s + β) ^ 2) - (c ^ 2 - s ^ 2)| ≤ 4 * E ∧
    |2 * (c + α) * (s + β) - 2 * c * s| ≤ 4 * E := by
  have hE0 : 0 ≤ E := (abs_nonneg α).trans hα
  have hcs : |c| + |s| ≤ 3 / 2 := by
    nlinarith [sq_nonneg (|c| - |s|), sq_abs c, sq_abs s, abs_nonneg c, abs_nonneg s]
  have a1 : |c * α| ≤ |c| * E := by rw [abs_mul]; exact mul_le_mul_of_nonneg_left hα (abs_nonneg c)
  have a2 : |s * β| ≤ |s| * E := by rw [abs_mul]; exact mul_le_mul_of_nonneg_left hβ (abs_nonneg s)
  have a3 : |c * β| ≤ |c| * E := by rw [abs_mul]; exact mul_le_mul_of_nonneg_left hβ (abs_nonneg c)
  have a4 : |s * α| ≤ |s| * E := by rw [abs_mul]; exact mul_le_mul_of_nonneg_left hα (abs_nonneg s)
  have a5 : |α * β| ≤ E * E := by rw [abs_mul]; exact mul_le_mul hα hβ (abs_nonneg β) hE0
  have a6 : α ^ 2 ≤ E * E := by rw [← sq_abs]; nlinarith [abs_nonneg α]
  have a7 : β ^ 2 ≤ E * E := by rw [← sq_abs]; nlinarith [abs_nonneg β]
  have hEE : E * E ≤ E / 2 := by nlinarith
  have hsum : |c| * E + |s| * E ≤ 3 / 2 * E := by nlinarith
  have b1 := abs_le.1 a1
  have b2 := abs_le.1 a2
  have b3 := abs_le.1 a3
  have b4 := abs_le.1 a4
  have b5 := abs_le.1 a5
  constructor <;> rw [abs_le] <;> constructor <;> nlinarith [sq_nonneg α, sq_nonneg β]

/-- `n` doublings: the error grows by at most `4^n`, rounding included. -/
theorem doubleAngle_error (p n : ℕ) (z : ℤ × ℤ) (θ e : ℝ) (he : 4 ^ n * (e + 1 / 2 ^ p) ≤ 1 / 2)
    (hc : |(z.1 : ℝ) / 2 ^ p - Real.cos θ| ≤ e) (hs : |(z.2 : ℝ) / 2 ^ p - Real.sin θ| ≤ e) :
    |((doubleAngle p n z).1 : ℝ) / 2 ^ p - Real.cos (2 ^ n * θ)| ≤ 4 ^ n * (e + 1 / 2 ^ p) - 1 / 2 ^ p ∧
    |((doubleAngle p n z).2 : ℝ) / 2 ^ p - Real.sin (2 ^ n * θ)| ≤ 4 ^ n * (e + 1 / 2 ^ p) - 1 / 2 ^ p := by
  have he0 : 0 ≤ e := (abs_nonneg _).trans hc
  have hd : (0 : ℝ) < 1 / 2 ^ p := by positivity
  induction n with
  | zero => simp only [doubleAngle, pow_zero, one_mul]; exact ⟨by linarith, by linarith⟩
  | succ n ih =>
    have h4 : (4 : ℝ) ^ (n + 1) * (e + 1 / 2 ^ p) = 4 * (4 ^ n * (e + 1 / 2 ^ p)) := by ring
    have hpos : 0 ≤ (4 : ℝ) ^ n * (e + 1 / 2 ^ p) := by positivity
    rw [h4] at he ⊢
    obtain ⟨ic, is⟩ := ih (by linarith)
    set w := doubleAngle p n z
    set E := (4 : ℝ) ^ n * (e + 1 / 2 ^ p) - 1 / 2 ^ p with hEdef
    have key := double_error (Real.cos (2 ^ n * θ)) (Real.sin (2 ^ n * θ)) ((w.1 : ℝ) / 2 ^ p - Real.cos (2 ^ n * θ))
      ((w.2 : ℝ) / 2 ^ p - Real.sin (2 ^ n * θ)) E (Real.cos_sq_add_sin_sq _) ic is (by linarith)
    rw [add_sub_cancel, add_sub_cancel] at key
    have hang : (2 : ℝ) ^ (n + 1) * θ = 2 * (2 ^ n * θ) := by ring
    have r1 := abs_fixed_round_le (w.1 * w.1 - w.2 * w.2) p (((w.1 : ℝ) / 2 ^ p) ^ 2 - ((w.2 : ℝ) / 2 ^ p) ^ 2)
      (by push_cast; field_simp)
    have r2 := abs_fixed_round_le (2 * w.1 * w.2) p (2 * ((w.1 : ℝ) / 2 ^ p) * ((w.2 : ℝ) / 2 ^ p))
      (by push_cast; field_simp)
    rw [hang, Real.cos_two_mul', Real.sin_two_mul]
    have step : doubleAngle p (n + 1) z =
      ((w.1 * w.1 - w.2 * w.2) / 2 ^ p, 2 * w.1 * w.2 / 2 ^ p) := rfl
    rw [step]
    have hs' : 2 * Real.sin (2 ^ n * θ) * Real.cos (2 ^ n * θ) = 2 * Real.cos (2 ^ n * θ) * Real.sin (2 ^ n * θ) := by
      ring
    rw [hs']
    constructor
    · refine (abs_sub_le _ _ _).trans ((add_le_add r1 key.1).trans ?_); linarith
    · refine (abs_sub_le _ _ _).trans ((add_le_add r2 key.2).trans ?_); linarith

/-- The angle `a` · 2^-1074 is below `2^m` for the `m` the halvings are counted from. -/
theorem angle_lt (a : ℕ) : (a : ℝ) / 2 ^ 1074 < 2 ^ (Nat.log2 a - 1073) := by
  rw [div_lt_iff₀ (by positivity), ← pow_add]
  have h : a < 2 ^ (Nat.log2 a + 1) := Nat.lt_log2_self
  have h2 : 2 ^ (Nat.log2 a + 1) ≤ 2 ^ (Nat.log2 a - 1073 + 1074) := Nat.pow_le_pow_right (by norm_num) (by omega)
  exact_mod_cast h.trans_le h2

/-- The cosine to second order at a point rounded down by at most `δ`. -/
theorem cos_small (x y δ : ℝ) (hx0 : 0 ≤ x) (hx1 : x ≤ 1) (hy0 : 0 ≤ y) (hyx : y ≤ x) (hxy : x ≤ y + δ) :
    |(1 - y ^ 2 / 2) - Real.cos x| ≤ x ^ 3 + δ := by
  have hb := abs_le.1 (Real.cos_bound (x := x) (by rwa [abs_of_nonneg hx0]))
  rw [abs_of_nonneg hx0] at hb
  have hx4 : x ^ 4 ≤ x ^ 3 := pow_le_pow_of_le_one hx0 hx1 (by norm_num)
  have hx3 : 0 ≤ x ^ 3 := by positivity
  have h1 : x ^ 2 - y ^ 2 ≤ 2 * δ := by nlinarith
  have h2 : 0 ≤ x ^ 2 - y ^ 2 := by nlinarith
  rw [abs_le]; constructor <;> linarith [hb.1, hb.2]

/-- The sine to second order at a point rounded down by at most `δ`. -/
theorem sin_small (x y δ : ℝ) (hx0 : 0 ≤ x) (hx1 : x ≤ 1) (hyx : y ≤ x) (hxy : x ≤ y + δ) :
    |y - Real.sin x| ≤ x ^ 3 + δ := by
  have hb := abs_le.1 (Real.sin_bound (x := x) (by rwa [abs_of_nonneg hx0]))
  rw [abs_of_nonneg hx0] at hb
  have hx5 : x ^ 5 ≤ x ^ 3 := pow_le_pow_of_le_one hx0 hx1 (by norm_num)
  have hx3 : 0 ≤ x ^ 3 := by positivity
  rw [abs_le]; constructor <;> linarith [hb.1, hb.2]

/-- What the doublings can lose of a halved angle's precision, in the numbers of `sinHalvings` and `sinBits`. -/
theorem halving_bound (m : ℕ) (x : ℝ) (hx0 : 0 ≤ x) (hx : x ≤ 1 / 2 ^ (2 * m + 122)) :
    (4 : ℝ) ^ (3 * m + 122) * (x ^ 3 + 3 * (1 / 2 ^ (2 * (3 * m + 122) + 126))) ≤ 1 / 2 ^ 120 := by
  have hu : (0 : ℝ) < 2 ^ m := by positivity
  have hc : (0 : ℝ) < 2 ^ 122 := by positivity
  have hd : (0 : ℝ) < 2 ^ 126 := by positivity
  have e4 : (4 : ℝ) ^ (3 * m + 122) = (2 ^ m) ^ 6 * (2 ^ 122) ^ 2 := by
    rw [show (4 : ℝ) = 2 ^ 2 by norm_num, ← pow_mul, ← pow_mul, ← pow_mul, ← pow_add]; congr 1; omega
  have e2 : (2 : ℝ) ^ (2 * (3 * m + 122) + 126) = (2 ^ m) ^ 6 * (2 ^ 122) ^ 2 * 2 ^ 126 := by
    rw [← pow_mul, ← pow_mul, ← pow_add, ← pow_add]; congr 1; omega
  have e1 : (2 : ℝ) ^ (2 * m + 122) = (2 ^ m) ^ 2 * 2 ^ 122 := by
    rw [← pow_mul, ← pow_add]; congr 1; omega
  have n1 : (1 : ℝ) / 2 ^ 122 + 3 * (1 / 2 ^ 126) ≤ 1 / 2 ^ 120 := by norm_num
  refine le_trans ?_ n1
  rw [e1] at hx
  rw [e4, e2]
  generalize (2 : ℝ) ^ m = u at *
  generalize (2 : ℝ) ^ 122 = c at *
  generalize (2 : ℝ) ^ 126 = d at *
  have hx3 : x ^ 3 ≤ (1 / (u ^ 2 * c)) ^ 3 := pow_le_pow_left₀ hx0 hx 3
  have h := mul_le_mul_of_nonneg_left hx3 (show 0 ≤ u ^ 6 * c ^ 2 by positivity)
  have s1 : u ^ 6 * c ^ 2 * (1 / (u ^ 2 * c)) ^ 3 = 1 / c := by field_simp
  have s2 : u ^ 6 * c ^ 2 * (1 / (u ^ 6 * c ^ 2 * d)) = 1 / d := by field_simp
  calc u ^ 6 * c ^ 2 * (x ^ 3 + 3 * (1 / (u ^ 6 * c ^ 2 * d)))
      = u ^ 6 * c ^ 2 * x ^ 3 + 3 * (u ^ 6 * c ^ 2 * (1 / (u ^ 6 * c ^ 2 * d))) := by ring
    _ ≤ 1 / c + 3 * (1 / d) := by rw [s2]; linarith

/-- The cosine and sine of a halved angle to second order, with its rounding. -/
theorem smallAngle_error (a : ℕ) :
    let x : ℝ := (a : ℝ) / 2 ^ (1074 + sinHalvings a)
    |((smallAngle a).1 : ℝ) / 2 ^ sinBits a - Real.cos x| ≤ x ^ 3 + 2 * (1 / 2 ^ sinBits a) ∧
    |((smallAngle a).2 : ℝ) / 2 ^ sinBits a - Real.sin x| ≤ x ^ 3 + 2 * (1 / 2 ^ sinBits a) := by
  intro x
  have hx0 : 0 ≤ x := by positivity
  have hx1 : x ≤ 1 := by
    have h := angle_lt a
    have e : x = (a : ℝ) / 2 ^ 1074 / 2 ^ sinHalvings a := by simp only [x]; rw [pow_add, div_div]
    have hK : Nat.log2 a - 1073 ≤ sinHalvings a := by rw [sinHalvings]; omega
    rw [e, div_le_one (by positivity)]
    exact h.le.trans (pow_le_pow_right₀ (by norm_num) hK)
  have hq : (0 : ℕ) < 2 ^ (1074 + sinHalvings a) := by positivity
  have hqr : (0 : ℝ) < 2 ^ (1074 + sinHalvings a) := by positivity
  have hh : halfAngle a = a * 2 ^ sinBits a / 2 ^ (1074 + sinHalvings a) := rfl
  have h1 : (smallAngle a).1 = ((2 ^ sinBits a - halfAngle a * halfAngle a / 2 ^ (sinBits a + 1) : ℕ) : ℤ) := rfl
  have h2 : (smallAngle a).2 = (halfAngle a : ℤ) := rfl
  rw [h1, h2]
  generalize sinBits a = p at *
  generalize halfAngle a = Y at *
  have hpr : (0 : ℝ) < 2 ^ p := by positivity
  have e1 := Nat.div_mul_le_self (a * 2 ^ p) (2 ^ (1074 + sinHalvings a))
  have e2 := Nat.lt_div_mul_add (a := a * 2 ^ p) hq
  rw [← hh] at e1 e2
  have f1 : (Y : ℝ) * 2 ^ (1074 + sinHalvings a) ≤ a * 2 ^ p := by exact_mod_cast e1
  have f2 : (a : ℝ) * 2 ^ p < Y * 2 ^ (1074 + sinHalvings a) + 2 ^ (1074 + sinHalvings a) := by exact_mod_cast e2
  have hyx : (Y : ℝ) / 2 ^ p ≤ x := by rw [div_le_div_iff₀ hpr hqr]; exact f1
  have hxy : x ≤ (Y : ℝ) / 2 ^ p + 1 / 2 ^ p := by
    rw [← add_div, div_le_div_iff₀ hqr hpr]; linarith
  clear_value x
  clear f1 f2 e1 e2 hh h1 h2 hq hqr
  have hy0 : 0 ≤ (Y : ℝ) / 2 ^ p := by positivity
  have hδ : (0 : ℝ) < 1 / 2 ^ p := by positivity
  constructor
  · have hle : Y ≤ 2 ^ p := by
      have : (Y : ℝ) ≤ 2 ^ p := by rw [← div_le_one hpr]; linarith
      exact_mod_cast this
    have hYY : Y * Y / 2 ^ (p + 1) ≤ 2 ^ p := by
      refine Nat.div_le_of_le_mul ?_
      calc Y * Y ≤ 2 ^ p * 2 ^ p := Nat.mul_le_mul hle hle
        _ ≤ 2 ^ (p + 1) * 2 ^ p := Nat.mul_le_mul_right _ (Nat.pow_le_pow_right (by norm_num) (by omega))
    have hdiv := abs_ediv_sub_le ((Y : ℤ) * Y) (p + 1)
    have hval : (((2 ^ p - Y * Y / 2 ^ (p + 1) : ℕ) : ℤ) : ℝ)
        = 2 ^ p - (((Y : ℤ) * Y / 2 ^ (p + 1) : ℤ) : ℝ) := by
      rw [Int.cast_natCast, Nat.cast_sub hYY]
      push_cast
      norm_cast
    rw [hval]
    generalize (((Y : ℤ) * Y / 2 ^ (p + 1) : ℤ) : ℝ) = q at *
    have hquad : |(2 ^ p - q) / 2 ^ p - (1 - ((Y : ℝ) / 2 ^ p) ^ 2 / 2)| ≤ 1 / 2 ^ p := by
      have e : (2 ^ p - q) / 2 ^ p - (1 - ((Y : ℝ) / 2 ^ p) ^ 2 / 2)
          = -((q - (((Y : ℤ) * Y : ℤ) : ℝ) / 2 ^ (p + 1)) / 2 ^ p) := by
        push_cast; rw [pow_succ]; field_simp; ring
      rw [e, abs_neg, abs_div, abs_of_pos hpr]
      exact div_le_div_of_nonneg_right hdiv hpr.le
    have hcos := cos_small x _ _ hx0 hx1 hy0 hyx hxy
    refine (abs_sub_le _ _ _).trans ((add_le_add hquad hcos).trans ?_)
    linarith
  · have hsin := sin_small x _ _ hx0 hx1 hyx hxy
    rw [Int.cast_natCast]
    linarith

/-- R109: outside the band there is no draw. -/
theorem tieDraw_none (φ : F64) (h : tieBand < tieDistance (brightExact φ)) (d : Option (TieDraw φ)) : d = none := by
  cases d with
  | none => rfl
  | some d => exact absurd d.inBand (not_le.2 h)

/-- R109: a draw near a tie gives its neighbour; what is not near a tie, and what is not drawn, is rounded. -/
theorem roundTie_draw (n d : ℕ) (up : Bool) (h : nearTie n d = true) : roundTie n d (some up) = n / d + up.toNat :=
  if_pos h

theorem roundTie_far (n d : ℕ) (u : Option Bool) (h : nearTie n d = false) : roundTie n d u = roundHalfUp n d :=
  if_neg (by rw [h]; decide)

theorem roundTie_none (n d : ℕ) : roundTie n d none = roundHalfUp n d := by
  unfold roundTie; exact ite_self _

/-- R108: the computed sine is the exact one to within 2^-120. -/
theorem sinFixed_error (a : ℕ) :
    |(sinFixed a : ℝ) / 2 ^ sinBits a - Real.sin ((a : ℝ) / 2 ^ 1074)| ≤ 1 / 2 ^ 120 := by
  obtain ⟨hc, hs⟩ := smallAngle_error a
  have hK : sinHalvings a = 3 * (Nat.log2 a - 1073) + 122 := rfl
  have hP : sinBits a = 2 * sinHalvings a + 126 := rfl
  have h := angle_lt a
  have hang : (2 : ℝ) ^ sinHalvings a * ((a : ℝ) / 2 ^ (1074 + sinHalvings a)) = (a : ℝ) / 2 ^ 1074 := by
    rw [pow_add]; field_simp
  have hxle : (a : ℝ) / 2 ^ (1074 + sinHalvings a) ≤ 1 / 2 ^ (2 * (Nat.log2 a - 1073) + 122) := by
    rw [div_le_div_iff₀ (pow_pos two_pos _) (pow_pos two_pos _), one_mul]
    rw [div_lt_iff₀ (pow_pos two_pos _)] at h
    refine (mul_le_mul_of_nonneg_right h.le (pow_pos two_pos _).le).trans (le_of_eq ?_)
    rw [← pow_add, ← pow_add]
    exact congrArg (fun n : ℕ => (2 : ℝ) ^ n) (by omega)
  have hx0 : 0 ≤ (a : ℝ) / 2 ^ (1074 + sinHalvings a) := div_nonneg (Nat.cast_nonneg a) (pow_pos two_pos _).le
  have hsf : sinFixed a = (doubleAngle (sinBits a) (sinHalvings a) (smallAngle a)).2 := rfl
  rw [hsf, ← hang]
  generalize (a : ℝ) / 2 ^ (1074 + sinHalvings a) = x at *
  have hbound := halving_bound _ x hx0 hxle
  rw [← hK, ← hP] at hbound
  have hδ : (0 : ℝ) < 1 / 2 ^ sinBits a := by positivity
  have hE : x ^ 3 + 2 * (1 / 2 ^ sinBits a) + 1 / 2 ^ sinBits a = x ^ 3 + 3 * (1 / 2 ^ sinBits a) := by ring
  have key := (doubleAngle_error (sinBits a) (sinHalvings a) (smallAngle a) x _
    (by rw [hE]; exact hbound.trans (by norm_num)) hc hs).2
  rw [hE] at key
  linarith

end Sys2Proof.Machine
end

