-- ==== Sys2Proof/Tests/Slice0.lean ====
section
/-! SUPPORT. Tests. The expected values are those of spec/95_test_vectors.md and of the examples of the rules; each test
cites its vector. The theorems named `test_meets_<Name>` show states and operands that meet the hypotheses of the
obligation of that name, clause by clause where it has several. -/

namespace Sys2Proof.Tests
open Sys2Proof Sys2Proof.Machine

/-- A block configured for `n` pixels with `SEQ` = `q`, its header built as INIT builds it. -/
def block (n : BitVec 17) (q : BitVec 3) : State :=
  { State.reset with cfgN := n, hdr := buildHeader n 0x416461, seq := q }

/-- The same, with the agents of its next steps fixed. -/
def block.turns (s : State) (ts : List Turn) : State := { s with env := { s.env with turns := ts } }

/-- The same, with the counts of its next write attempts fixed. -/
def block.accepts (s : State) (ks : List Nat) : State := { s with env := { s.env with accepts := ks } }

/-- The state an outcome answers; the reset state where it answers none. -/
def after (r : Result) : State :=
  match r with
  | .next t => t
  | .fault _ => State.reset
  | .refused _ => State.reset

/-- Whether an outcome is a next state. -/
def isNext (r : Result) : Bool :=
  match r with
  | .next _ => true
  | .fault _ => false
  | .refused _ => false

theorem answers {r : Result} {t : State} (h : isNext r = true ∧ after r = t) : r = .next t := by
  cases r with
  | next u => exact congrArg _ h.2
  | fault f => exact absurd h.1 (by simp [isNext])
  | refused f => exact absurd h.1 (by simp [isNext])

/-! ## Well-formedness: one term for each check, and terms it refuses (R83 to R85, R10) -/

theorem test_wellformed_words : wordWellFormed 0b001101 = true ∧ wordWellFormed 0b101010 = true := by decide
theorem test_illformed_seq : wordWellFormed 0b110000 = false ∧ wordWellFormed 0b111000 = false := by decide
theorem test_illformed_tag_of_unstaged :
    wordWellFormed 0b000001 = false ∧ wordWellFormed 0b010001 = false ∧ wordWellFormed 0b011111 = false ∧
    wordWellFormed 0b100010 = false := by decide
theorem test_illformed_gen_tag : wordWellFormed 0b001110 = false ∧ wordWellFormed 0b001111 = false := by decide
theorem test_illformed_stats_tag : wordWellFormed 0b101011 = false ∧ wordWellFormed 0b101111 = false := by decide
theorem test_illformed_byte :
    byteWellFormed 0b01001000 = false ∧ byteWellFormed 0b10001000 = false ∧ byteWellFormed 0b00001000 = true := by decide
theorem test_illformed_pixel_count : pixelCountWellFormed 65536 = true ∧ pixelCountWellFormed 65537 = false := by decide
theorem test_operations_wellformed : Instr.wellFormed .genScale = true ∧ wordWellFormed (encode .genScale) = true := by
  decide

/-! ## Decoding: words written out as SEQ bits 5..3 and STG bits 2..0 (R81 to R84) -/

theorem test_decode_generator :
    decodeWord 0b001000 = .ok .gen ∧ decodeWord 0b001001 = .ok .genHue ∧ decodeWord 0b001010 = .ok .genWheel ∧
    decodeWord 0b001011 = .ok .genPhase ∧ decodeWord 0b001100 = .ok .genBright ∧ decodeWord 0b001101 = .ok .genScale ∧
    decodeWord 0b010000 = .ok .adv := by decide
theorem test_decode_transmitter :
    decodeWord 0b000000 = .ok .init ∧ decodeWord 0b011000 = .ok .drain ∧ decodeWord 0b100000 = .ok .send ∧
    decodeWord 0b101000 = .ok .stats ∧ decodeWord 0b101001 = .ok .statsAcc ∧ decodeWord 0b101010 = .ok .statsRpt := by
  decide
theorem test_decode_refuses :
    decodeWord 0b110000 = .error (.reservedSeq 0b110) ∧ decodeWord 0b001110 = .error (.reservedStage 0b001 0b110) ∧
    decodeWord 0b000001 = .error (.reservedStage 0b000 0b001) := by decide
theorem test_decode_bytes :
    decodeBytes [0x28, 0x10] = .ok (.stats, [0x10]) ∧ decodeBytes [0x68] = .error (.upperBits 0x68) ∧
    decodeBytes [] = .error .noByte := by decide
theorem test_table_word : decodeTableWord 6 0x0D = some .genScale ∧ decodeTableWord 6 0x30 = none := by decide
/-- R83, R91: two mnemonics, by their words. -/
theorem test_mnemonics : (decodeTableWord 8 0x0C).map Instr.mnemonic = some "GEN.BRIGHT" ∧
    (decodeTableWord 8 0x2A).map Instr.mnemonic = some "STATS.RPT" := by decide
theorem test_placed_word_runs : step ((block 1 0b001).withFetchWord 6 0x10) =
    exec .adv { block 1 0b010 with env := { State.reset.env with tick := 1 } } := by rfl

/-! ## Generator -/

/-- 95_test_vectors.md 2.1. -/
theorem test_hue_index : hueIndex 0 39 = 1560 ∧ hueIndex 1535 1 = 1575 ∧ hueIndex 1535 65535 = 2622935 := by decide
/-- 95_test_vectors.md 2.1: `HUE_BASE` 0, i = 24. -/
theorem test_gen_hue :
    (after (exec .genHue { State.reset with stage := { Stage.zero with pix := 24 } })).stage.hueIdx = 960 := by decide
/-- 95_test_vectors.md 2.2: both sides of a sextant edge, and one inside every sextant. -/
theorem test_wheel : wheel 0 = ⟨255, 0, 0⟩ ∧ wheel 127 = ⟨255, 127, 0⟩ ∧ wheel 300 = ⟨211, 255, 0⟩ ∧
    wheel 640 = ⟨0, 255, 128⟩ ∧ wheel 1000 = ⟨0, 23, 255⟩ ∧ wheel 1200 = ⟨176, 0, 255⟩ ∧ wheel 1400 = ⟨255, 0, 135⟩ ∧
    wheel 255 = ⟨255, 255, 0⟩ ∧ wheel 256 = ⟨255, 255, 0⟩ ∧ wheel 1535 = ⟨255, 0, 0⟩ := by decide
/-- 95_test_vectors.md 2.2: h = 2622935, above 1536. -/
theorem test_gen_wheel :
    (after (exec .genWheel { State.reset with stage := { Stage.zero with hueIdx := 2622935 } })).stage.raw =
      ⟨0, 40, 255⟩ := by decide
/-- 95_test_vectors.md 2.3: 0.0 and 3 (not fl(0.9)), -0.03 and 1, -0.06 and 2, 0.0 and 65535. -/
theorem test_pixel_phase : pixelPhase 0 3 = 0x3FECCCCCCCCCCCCC ∧ pixelPhase 0xBF9EB851EB851EB8 1 = 0x3FD147AE147AE148 ∧
    pixelPhase 0xBFAEB851EB851EB8 2 = 0x3FE147AE147AE148 ∧ pixelPhase 0 65535 = 0x40D3332000000000 := by decide +kernel
/-- 95_test_vectors.md 2.3: 0.0 and 24 gives 7.199999999999999. -/
theorem test_gen_phase :
    (after (exec .genPhase { State.reset with stage := { Stage.zero with pix := 24 } })).stage.phi =
      0x401CCCCCCCCCCCCC := by decide +kernel
/-- 95_test_vectors.md 2.4: 0.0, -0.5 (near the tie at 4.5), 100.0, fl(pi/2), -fl(pi/2), and 1.5 through the stage word. -/
theorem test_gen_bright : bright 0 = 32 ∧ bright 0xBFE0000000000000 = 4 ∧ bright 0x4059000000000000 = 4 ∧
    bright 0x3FF921FB54442D18 = 255 ∧ bright 0xBFF921FB54442D18 = 0 ∧
    (after (exec .genBright { State.reset with stage := { Stage.zero with phi := 0x3FF8000000000000 } })).stage.bright =
      254 := by decide +kernel
/-- 95_test_vectors.md 2.4: the row marked "draw: 254 or 255": each draw gives its neighbour. -/
theorem test_bright_draw (h : tieDistance (brightExact 0x3FF85075348B3F48) ≤ tieBand) :
    brightDrawn 0x3FF85075348B3F48 (some ⟨true, h⟩) = 255 ∧ brightDrawn 0x3FF85075348B3F48 (some ⟨false, h⟩) = 254 := by
  have ht : nearTie (brightNum 0x3FF85075348B3F48) (brightDen 0x3FF85075348B3F48) = true := by decide +kernel
  have hq : brightNum 0x3FF85075348B3F48 / brightDen 0x3FF85075348B3F48 = 254 := by decide +kernel
  constructor <;> (rw [brightDrawn, Option.map_some, roundTie_draw _ _ _ ht, hq]; rfl)
/-- 95_test_vectors.md 2.5. -/
theorem test_scale : scaleByte 255 255 = 255 ∧ scaleByte 1 254 = 0 ∧ scaleByte 1 255 = 1 ∧ scaleByte 128 128 = 64 ∧
    scaleByte 40 69 = 10 ∧ scaleByte 200 100 = 78 ∧ scaleByte 127 2 = 0 := by decide
/-- R111, example: raw (255, 40, 0) and b = 69 at pixel 1. -/
theorem test_gen_scale :
    let t := after (exec .genScale { State.reset with stage := { Stage.zero with pix := 1, raw := ⟨255, 40, 0⟩, bright := 69 } })
    t.fb = [(3, 69), (4, 10), (5, 0)] ∧ t.stage.pix = 2 := by decide
/-- 95_test_vectors.md 2.6, V-GEN-3: N = 2 from reset. -/
theorem test_gen_two_pixels :
    (after (exec .gen (block 2 0b001))).fb = [(0, 0x20), (1, 0), (2, 0), (3, 0x45), (4, 0x0A), (5, 0)] := by
  decide +kernel
/-- 95_test_vectors.md 2.6, V-GEN-3: pixel 65535 of the largest instance. -/
theorem test_gen_last_pixel : pixelColor 1535 0 65535 = ⟨0, 13, 88⟩ := by decide +kernel
/-- 95_test_vectors.md 2.7: (1533, -0.03) gives (2, -0.06); (1535, 0.0) gives (4, -0.03). -/
theorem test_adv :
    (let t := after (exec .adv { State.reset with hueBase := 1533, phase := 0xBF9EB851EB851EB8 })
     t.hueBase = 2 ∧ t.phase = 0xBFAEB851EB851EB8 ∧ t.seq = 0b011) ∧
    (let t := after (exec .adv { State.reset with hueBase := 1535 })
     t.hueBase = 4 ∧ t.phase = 0xBF9EB851EB851EB8) := by decide +kernel
/-- 95_test_vectors.md 2.7: -2^44 moves by -0.03125, -2^48 freezes, and -2^48 + 0.03125 goes to -2^48. -/
theorem test_adv_large : nextPhase 0xC2B0000000000000 = 0xC2B0000000000008 ∧
    nextPhase 0xC2F0000000000000 = 0xC2F0000000000000 ∧ nextPhase 0xC2EFFFFFFFFFFFFF = 0xC2F0000000000000 := by
  decide +kernel

/-! ## Transmitter -/

/-- 95_test_vectors.md 2.8, V-HDR. -/
theorem test_header : buildHeader 0 0x416461 = ⟨0x41, 0x64, 0x61, 0xFF, 0xFF, 0x55⟩ ∧
    buildHeader 1 0x416461 = ⟨0x41, 0x64, 0x61, 0, 0, 0x55⟩ ∧ buildHeader 25 0x416461 = ⟨0x41, 0x64, 0x61, 0, 0x18, 0x4D⟩ ∧
    buildHeader 257 0x416461 = ⟨0x41, 0x64, 0x61, 1, 0, 0x54⟩ ∧
    buildHeader 4660 0x416461 = ⟨0x41, 0x64, 0x61, 0x12, 0x33, 0x74⟩ ∧
    buildHeader 0x10000 0x416461 = ⟨0x41, 0x64, 0x61, 0xFF, 0xFF, 0x55⟩ := by decide
/-- 95_test_vectors.md 2.12: `cfg_n` = 65537 is refused and no register is written; 65536 is admitted. -/
theorem test_init :
    after (exec .init { State.reset with ports := { State.reset.ports with cfgN := 65537 } }) =
      { State.reset with ports := { State.reset.ports with cfgN := 65537 }, refused := some .pixelCount } ∧
    (after (exec .init { State.reset with off := 7, statBytes := 9, ports := { State.reset.ports with cfgN := 0x10000 } })).hdr =
      ⟨0x41, 0x64, 0x61, 0xFF, 0xFF, 0x55⟩ := by decide
/-- 95_test_vectors.md 2.9. -/
theorem test_drain :
    (let t := after (exec .drain { block 1 0b011 with off := 9 }); t.off = 0 ∧ t.seq = 0b100) ∧
    after (exec .drain { block 1 0b011 with chan := { pending := [0x41], wire := [] } }) =
      { block 1 0b011 with chan := { pending := [0x41], wire := [] } } := by decide
/-- 95_test_vectors.md 2.10, V-SEND-1: `OFF` 4 and k = 3, with `FB` = 20 00 00; then a zero count. -/
theorem test_send :
    (let t := after (exec .send (block.accepts { block 1 0b100 with off := 4, fb := [(0, 0x20), (1, 0), (2, 0)] } [3]))
     t.chan.pending = [0x00, 0x55, 0x20] ∧ t.off = 7 ∧ t.seq = 0b100) ∧
    (let t := after (exec .send (block.accepts (block 1 0b100) [0]))
     t.chan.pending = [] ∧ t.off = 0 ∧ t.seq = 0b100) := by decide
/-- 95_test_vectors.md 2.10, V-SEND-1: the last byte; a count above what remains is cut to it (k is within `[0, rem]`). -/
theorem test_send_last :
    let t := after (exec .send (block.accepts { block 1 0b100 with off := 8, fb := [(0, 0x20), (1, 0), (2, 7)] } [5]))
    t.chan.pending = [7] ∧ t.off = 9 ∧ t.seq = 0b101 := by decide
/-- 95_test_vectors.md 2.11, fourth row: fps 6, bps 518. -/
theorem test_stats :
    let t := after (exec .stats { block 25 0b101 with
      statFrames := 31, statBytes := 2511, tLast := 101, ports := { State.reset.ports with nowSec := 105 } })
    t.statFrames = 32 ∧ t.statBytes = 2592 ∧ t.rptFps = 6 ∧ t.rptBps = 518 ∧ t.tLast = 105 ∧ t.rptValid = true ∧
    t.reports = [{ fps := 6, bps := 518 }] ∧ t.seq = 0b001 := by decide
/-- 95_test_vectors.md 2.11: the last row wraps; the fifth has the time go back and makes no report. -/
theorem test_stats_corners :
    (let t := after (exec .stats { block 1 0b101 with
      statFrames := 0xFFFFFFFFFFFFFFFF, statBytes := 0xFFFFFFFFFFFFFFFD, tStart := 0, tLast := 0
      ports := { State.reset.ports with nowSec := 1 } })
     t.statFrames = 0 ∧ t.statBytes = 6 ∧ t.rptFps = 0 ∧ t.rptBps = 6 ∧ t.tLast = 1) ∧
    (let t := after (exec .stats { block 0 0b101 with
      statFrames := 9, statBytes := 54, tLast := 103, ports := { State.reset.ports with nowSec := 102 } })
     t.statFrames = 10 ∧ t.statBytes = 60 ∧ t.rptValid = false ∧ t.tLast = 103) := by decide
/-- R154, example: (0, 0) with N = 25. -/
theorem test_stats_acc :
    let t := after (exec .statsAcc (block 25 0b101))
    t.stage.accFrames = 1 ∧ t.stage.accBytes = 81 ∧ t.statFrames = 0 := by decide
/-- R155, example: counters after ACC (30, 2430), one second after the start. -/
theorem test_stats_rpt :
    let t := after (exec .statsRpt { block 25 0b101 with
      stage := { Stage.zero with accFrames := 30, accBytes := 2430 }, ports := { State.reset.ports with nowSec := 101 } })
    t.rptFps = 30 ∧ t.rptBps = 2430 ∧ t.tLast = 101 ∧ t.rptValid = true := by decide

/-! ## Steps of the other agents, and refusals (R64, R205, R230) -/

theorem test_channel_transmits :
    let t := after (step (block.turns { block 1 0b011 with chan := { pending := [0x41, 0x64], wire := [0x07] } } [.channelTx]))
    t.chan.pending = [0x64] ∧ t.chan.wire = [0x07, 0x41] := by decide
theorem test_reset_abandons_a_frame :
    let t := after (step (block.turns { block 1 0b100 with off := 4, chan := { pending := [0x41], wire := [] } }
      [.host .assertReset]))
    t.seq = 0b000 ∧ t.chan.pending = [0x41] := by decide
theorem test_refuses_hue : (after (exec .gen { block 1 0b001 with hueBase := 1536 })).refused = some .hueRange := by decide
theorem test_refuses_reserved_code :
    (after (step (block.turns { block 1 0b111 with stg := 0 } [.sequencer]))).refused = some .reservedCode := by decide
/-- R62: the wire view at the offsets where its clauses meet, for N = 1. -/
theorem test_wire_view :
    let s := { block 1 0b100 with fb := [(0, 0x20), (1, 1), (2, 2)] }
    s.wireAt 5 = some 0x55 ∧ s.wireAt 6 = some 0x20 ∧ s.wireAt 8 = some 2 ∧ s.wireAt 9 = none := by decide
theorem test_memory_canonical : Memory.write (Memory.write (Memory.write [] 4 1) 2 3) 4 0 = [(2, 3), (4, 0)] := by decide

/-! ## Witnesses: states and operands that meet the hypotheses of the obligations -/

theorem test_meets_StepRunsTheDecodedOperation :
    (let s := block.turns (block 25 0b010) [.sequencer]
     s.turn = .sequencer ∧ s.refused = none ∧
      decodeWord (if s.ports.rst = .idle then opword s.seq s.stg else 0) = .ok .adv) ∧
    (let s := block.turns { block 25 0b111 with
       refused := some .reservedCode, ports := { State.reset.ports with rst := .asserted } } [.sequencer]
     s.turn = .sequencer ∧ s.ports.rst ≠ .idle ∧
      decodeWord (if s.ports.rst = .idle then opword s.seq s.stg else 0) = .ok .init) := by decide
theorem test_meets_ReservedCodeIsRefused :
    let s := block.turns (block 25 0b110) [.sequencer]
    s.turn = .sequencer ∧ s.refused = none ∧ s.ports.rst = .idle ∧
      decodeWord (opword s.seq s.stg) = .error (.reservedSeq 0b110) := by decide
theorem test_meets_RefusedBlockTakesNoStep :
    let s := block.turns { block 25 0b001 with refused := some .hueRange } [.sequencer]
    s.turn = .sequencer ∧ s.refused ≠ none ∧ s.ports.rst = .idle := by decide
theorem test_meets_StatesWithoutMeaningAreRefused :
    Instr.gen ≠ .init ∧ 65536 < (block 65537 0b001).cfgN.toNat ∧
    ((block 0x10000 0b001).cfgN.toNat ≤ 65536 ∧ 1536 ≤ { block 0x10000 0b001 with hueBase := 1536 }.hueBase.toNat) ∧
    (let s := { block 25 0b001 with hueBase := 1535, phase := 0x7FF0000000000000 }
     s.hueBase.toNat < 1536 ∧ F64.expo s.phase = 2047) ∧
    (let s := { block 25 0b100 with off := 82 }
     F64.expo s.phase ≠ 2047 ∧ 6 + 3 * s.cfgN.toNat < s.off.toNat) ∧
    (let s := { block 1 0b100 with off := 9 }; s.Legal ∧ s.off.toNat = 6 + 3 * s.cfgN.toNat) := by decide
theorem test_meets_ResetTakesPriority :
    (let s := block.turns { block 1 0b100 with ports := { State.reset.ports with rst := .asserted, cfgN := 0x10000 } } [.sequencer]
     s.turn = .sequencer ∧ s.ports.rst ≠ .idle ∧ s.ports.cfgN.toNat ≤ 65536) ∧
    (let s := block.turns { block 1 0b101 with ports := { State.reset.ports with rst := .released, cfgN := 0x10001 } } [.sequencer]
     s.turn = .sequencer ∧ s.ports.rst ≠ .idle ∧ 65536 < s.ports.cfgN.toNat) ∧
    (block.turns (block 1 0b100) [.host .assertReset]).turn = .host .assertReset := by decide
theorem test_meets_ChannelTransmitsTheOldestByte :
    let s := block.turns { block 1 0b011 with chan := { pending := [0x41], wire := [] } } [.channelTx]
    s.turn = .channelTx ∧ s.chan.pending = 0x41 :: [] ∧ { s with chan := { pending := [], wire := [] } }.chan.pending = [] := by
  decide
theorem test_meets_ResetIsWhatInitLeaves :
    let s := { block 3 0b000 with off := 5, ports := { State.reset.ports with rst := .released } }
    s.ports = { State.reset.ports with rst := .released } ∧ s.fb = [] ∧ s.reports = [] ∧ ChannelCleanAtStart s ∧
      s.env = State.reset.env := by decide
theorem test_meets_InitLoadsAndResets :
    65536 < ({ State.reset.ports with cfgN := 65537 } : Ports).cfgN.toNat ∧
    ({ State.reset.ports with cfgN := 0x10000 } : Ports).cfgN.toNat ≤ 65536 ∧
    ({ State.reset.ports with cfgN := 0, rst := .asserted } : Ports).cfgN.toNat ≤ 65536 := by decide
theorem test_meets_InitBuildsTheHeader :
    ({ State.reset.ports with cfgN := 0x10000 } : Ports).cfgN.toNat ≤ 65536 ∧
    ({ State.reset.ports with cfgN := 0 } : Ports).cfgN.toNat ≤ 65536 := by decide
theorem test_meets_ReceiverRecoversThePixelCount :
    (1 ≤ (1 : BitVec 17).toNat ∧ (1 : BitVec 17).toNat ≤ 65536) ∧
    (1 ≤ (0x10000 : BitVec 17).toNat ∧ (0x10000 : BitVec 17).toNat ≤ 65536) := by decide
theorem test_meets_HeaderOfNoPixelsIsThatOfTheMost :
    (0 : BitVec 17).toNat ≤ 65536 ∧ (0x10000 : BitVec 17).toNat ≤ 65536 ∧ (1 : BitVec 17).toNat ≤ 65536 := by decide
theorem test_meets_OnlyInitWritesTheHeader :
    (Instr.drain ≠ .init ∧ exec .drain (block 1 0b011) = .next { block 1 0b100 with off := 0 }) ∧
    (let s := block.turns (block 1 0b000) [.sequencer]
     step s = .next (after (step s)) ∧ (after (step s)).hdr ≠ s.hdr) :=
  ⟨⟨by decide, answers (by decide)⟩, answers (by decide), by decide⟩
theorem test_meets_WheelHasPeriod1536 : (1535 : BitVec 11).toNat < 1536 ∧ 65535 < 65536 := by decide
theorem test_meets_WheelIsSaturatedAndContinuous :
    (1535 < 1536 ∧ 1535 % 256 = 255) ∧ (254 < 1536 ∧ 254 % 256 ≠ 255) ∧
    (0 < 1536 ∧ wheel (BitVec.ofNat 22 0) = wheel (BitVec.ofNat 22 1535)) := by decide
/-- Finite operands whose exact sum is the largest finite value, and whose product is below the threshold; the sum and
the difference of the largest finite value with itself are on the two sides of it. -/
theorem test_meets_FloatOperationsAreCorrectlyRounded :
    F64.finite 0x7FEFFFFFFFFFFFFF = true ∧ F64.finite 0x8000000000000001 = true ∧
    |F64.value 0x7FEFFFFFFFFFFFFF + F64.value 0| < F64.overflow ∧
    |F64.value 0x7FEFFFFFFFFFFFFF - F64.value 0x7FEFFFFFFFFFFFFF| < F64.overflow ∧
    |F64.value 0x7FEFFFFFFFFFFFFF * F64.value 0x8000000000000001| < F64.overflow ∧
    F64.overflow ≤ |F64.value 0x7FEFFFFFFFFFFFFF + F64.value 0x7FEFFFFFFFFFFFFF| := by decide +kernel
theorem test_meets_PixelPhaseIsRoundedTwice :
    F64.finite 0xC2F0000000000000 = true ∧ 65535 < 65536 ∧ (0xC2F0000000000000 : F64) ≠ 0x8000000000000000 := by
  decide +kernel

theorem test_meets_PhaseFallsAndFreezes :
    (F64.finite 0 = true ∧ -(2 : ℚ) ^ 48 < F64.value 0 ∧ F64.value 0 ≤ 0) ∧
    (F64.finite 0xC2EFFFFFFFFFFFFF = true ∧ -(2 : ℚ) ^ 48 < F64.value 0xC2EFFFFFFFFFFFFF ∧
      F64.value 0xC2EFFFFFFFFFFFFF ≤ 0) := by decide +kernel

theorem test_meets_PhaseStaysInItsRange :
    (F64.finite 0 = true ∧ -(2 : ℚ) ^ 48 ≤ F64.value 0 ∧ F64.value 0 ≤ 0 ∧ (0 : F64) ≠ 0x8000000000000000) ∧
    (F64.finite 0xC2F0000000000000 = true ∧ -(2 : ℚ) ^ 48 ≤ F64.value 0xC2F0000000000000 ∧
      F64.value 0xC2F0000000000000 ≤ 0) := by decide +kernel

/-- The sine of a phase within the bounds that its fixed-point sine shows. -/
theorem sin_within (φ : F64) (lo hi : ℤ)
    (h : lo * 2 ^ sinBits (F64.mag φ) ≤ sinFixed (F64.mag φ) * 10 ^ 12 ∧
      sinFixed (F64.mag φ) * 10 ^ 12 ≤ hi * 2 ^ sinBits (F64.mag φ)) :
    (lo - 1 : ℝ) / 10 ^ 12 ≤ Real.sin ((F64.mag φ : ℝ) / 2 ^ 1074) ∧
    Real.sin ((F64.mag φ : ℝ) / 2 ^ 1074) ≤ (hi + 1 : ℝ) / 10 ^ 12 := by
  have he := abs_le.1 (sinFixed_error (F64.mag φ))
  generalize F64.mag φ = a at *
  have hp : (0 : ℝ) < 2 ^ sinBits a := by positivity
  have h1 : (lo : ℝ) * 2 ^ sinBits a ≤ sinFixed a * 10 ^ 12 := by exact_mod_cast h.1
  have h2 : (sinFixed a : ℝ) * 10 ^ 12 ≤ hi * 2 ^ sinBits a := by exact_mod_cast h.2
  have h3 : (lo : ℝ) / 10 ^ 12 ≤ sinFixed a / 2 ^ sinBits a := by
    rw [div_le_div_iff₀ (by positivity) hp]; exact h1
  have h4 : (sinFixed a : ℝ) / 2 ^ sinBits a ≤ hi / 10 ^ 12 := by
    rw [div_le_div_iff₀ hp (by positivity)]; exact h2
  constructor <;> linarith [he.1, he.2, (by norm_num : (1 : ℝ) / 2 ^ 120 ≤ 1 / 10 ^ 12), sub_div (lo : ℝ) 1 (10 ^ 12),
    add_div (hi : ℝ) 1 (10 ^ 12)]

/-- A phase outside the band, and one inside it (95_test_vectors.md 2.4, the row marked "draw: 0 or 1"). -/
theorem test_meets_BrightnessFollowsTheCubeLaw :
    (F64.finite 0 = true ∧ 1 / 2 ^ 20 < tieDistance (brightExact 0)) ∧
    (F64.finite 0xBFEB1F48955A3C80 = true ∧ tieDistance (brightExact 0xBFEB1F48955A3C80) ≤ 1 / 2 ^ 20) := by
  refine ⟨⟨by decide, ?_⟩, by decide +kernel, ?_⟩
  · have hv : F64.value 0 = 0 := by decide +kernel
    have hx : brightExact 0 = 255 / 8 := by rw [brightExact, hv]; norm_num
    have hf : ⌊(255 / 8 : ℝ)⌋ = 31 := by rw [Int.floor_eq_iff]; norm_num
    rw [tieDistance, hx, hf]; norm_num
  · obtain ⟨h1, h2⟩ := sin_within 0xBFEB1F48955A3C80 749673628871 749673628873 (by decide +kernel)
    have hv : (F64.value 0xBFEB1F48955A3C80 : ℝ) = -((F64.mag 0xBFEB1F48955A3C80 : ℝ) / 2 ^ 1074) := by
      have hs : F64.sign 0xBFEB1F48955A3C80 = true := by decide
      rw [F64.value, hs, if_pos rfl]; push_cast; ring
    rw [tieDistance, brightExact, hv, Real.sin_neg]
    generalize Real.sin ((F64.mag 0xBFEB1F48955A3C80 : ℝ) / 2 ^ 1074) = y at *
    have hlo : (0.12516318 : ℝ) ≤ 1 / 2 + 1 / 2 * -y := by norm_num at h2 ⊢; linarith
    have hhi : 1 / 2 + 1 / 2 * -y ≤ (0.12516319 : ℝ) := by norm_num at h1 ⊢; linarith
    have c1 := pow_le_pow_left₀ (by norm_num) hlo 3
    have c2 := pow_le_pow_left₀ (le_trans (by norm_num) hlo) hhi 3
    generalize (1 / 2 + 1 / 2 * -y) ^ 3 = x at *
    have hf : ⌊x * 255⌋ = 0 := by
      rw [Int.floor_eq_iff]; norm_num at c1 c2 ⊢; constructor <;> linarith
    rw [hf, abs_le]; norm_num at c1 c2 ⊢; constructor <;> linarith

/-- The three clauses: fl(pi/2), its negative, and +0.0 (95_test_vectors.md 2.4). -/
theorem test_meets_BrightnessExtremes :
    (F64.finite 0x3FF921FB54442D18 = true ∧ 9987 / 10000 ≤ Real.sin (F64.value 0x3FF921FB54442D18 : ℝ)) ∧
    (F64.finite 0xBFF921FB54442D18 = true ∧ Real.sin (F64.value 0xBFF921FB54442D18 : ℝ) ≤ -7497 / 10000) ∧
    (F64.finite 0 = true ∧ Real.sin (F64.value 0 : ℝ) = 0) := by
  obtain ⟨h1, h2⟩ := sin_within 0x3FF921FB54442D18 999999999999 1000000000000 (by decide +kernel)
  have hp : (F64.value 0x3FF921FB54442D18 : ℝ) = (F64.mag 0x3FF921FB54442D18 : ℝ) / 2 ^ 1074 := by
    have hs : F64.sign 0x3FF921FB54442D18 = false := by decide
    rw [F64.value, hs, if_neg (by decide), one_mul]; push_cast; rfl
  have hn : F64.value 0xBFF921FB54442D18 = -F64.value 0x3FF921FB54442D18 := by decide +kernel
  have hz : F64.value 0 = 0 := by decide +kernel
  refine ⟨⟨by decide, ?_⟩, ⟨by decide, ?_⟩, by decide, by rw [hz]; norm_num⟩
  · rw [hp]
    generalize Real.sin ((F64.mag 0x3FF921FB54442D18 : ℝ) / 2 ^ 1074) = y at *
    norm_num at h1 ⊢; linarith
  · rw [hn, Rat.cast_neg, Real.sin_neg, hp]
    generalize Real.sin ((F64.mag 0x3FF921FB54442D18 : ℝ) / 2 ^ 1074) = y at *
    norm_num at h1 ⊢; linarith

/-- A sine of 0 and one above it, with either phase outside the band. -/
theorem test_meets_BrightnessIsMonotone :
    F64.finite 0 = true ∧ F64.finite 0x3FF921FB54442D18 = true ∧
    Real.sin (F64.value 0 : ℝ) ≤ Real.sin (F64.value 0x3FF921FB54442D18 : ℝ) ∧ 1 / 2 ^ 20 < tieDistance (brightExact 0) := by
  obtain ⟨⟨h1, h2⟩, _, h3, h4⟩ := test_meets_BrightnessExtremes
  exact ⟨h3, h1, by rw [h4]; exact le_trans (by norm_num) h2, test_meets_BrightnessFollowsTheCubeLaw.1.2⟩

/-- The legal states of the witnesses below: no pixel, one, and the most there can be; the largest hue and offset. -/
theorem test_legal_states :
    (block 0 0b001).Legal ∧ (block 1 0b001).Legal ∧
    State.Legal { block 0x10000 0b001 with hueBase := 1535, phase := 0xFFEFFFFFFFFFFFFF, off := 196614 } := by
  decide +kernel
theorem test_meets_StagesComputeTheirResults :
    let s := { block 25 0b001 with stage := { Stage.zero with pix := 24 } }
    s.Legal ∧ s.stage.pix < s.pixels := by decide
theorem test_meets_ScaleStageStoresOnePixel :
    let s := { block 0x10000 0b001 with stage := { Stage.zero with pix := 65535 } }
    s.Legal ∧ s.stage.pix < s.pixels := by decide
theorem test_meets_StageWithoutAPixelRuns :
    (let s := { block 25 0b001 with stage := { Stage.zero with pix := 25 } }; s.Legal ∧ s.pixels ≤ s.stage.pix) ∧
    ((block 0 0b001).Legal ∧ (block 0 0b001).pixels ≤ (block 0 0b001).stage.pix) := by decide
theorem test_meets_GenBuildsTheFrame :
    (block 0 0b001).Legal ∧ (block 0 0b001).pixels = 0 ∧ (block 0x10000 0b001).Legal ∧
      65535 < (block 0x10000 0b001).pixels ∧ 2 < 3 := by decide
theorem test_meets_GenDependsOnAnimationAndCountOnly :
    let s := block 1 0b001
    let u := { block 1 0b001 with fb := [(0, 9)], statBytes := 4 }
    s.Legal ∧ u.Legal ∧ s.cfgN = u.cfgN ∧ s.hueBase = u.hueBase ∧ s.phase = u.phase ∧
      exec .gen s = .next (after (exec .gen s)) ∧ exec .gen u = .next (after (exec .gen u)) :=
  ⟨by decide, by decide, rfl, rfl, rfl, answers (by decide +kernel), answers (by decide +kernel)⟩
theorem test_meets_StagesOfEveryPixelMakeTheFrame :
    (block 0 0b001).Legal ∧ (block 0 0b001).stage.pix = 0 ∧ (block 25 0b001).Legal ∧ (block 25 0b001).stage.pix = 0 := by
  decide
theorem test_meets_AdvAdvancesTheAnimation :
    State.Legal { block 25 0b010 with hueBase := 1535, phase := 0xFFEFFFFFFFFFFFFF } := by decide +kernel
theorem test_meets_DrainWaitsForTheChannel :
    (block 1 0b011).Legal ∧ (block 1 0b011).chan.pending = [] ∧
    (let s := { block 1 0b011 with chan := { pending := [0x41], wire := [] } }; s.Legal ∧ s.chan.pending ≠ []) := by decide
theorem test_meets_SendHandsOverTheNextBytes :
    (let s := block.accepts { block 1 0b100 with off := 8 } [1]
     s.Legal ∧ s.off.toNat < s.frameLen ∧ s.env.accepts = 1 :: [] ∧ 1 ≤ 6 + 3 * s.cfgN.toNat - s.off.toNat) ∧
    (let s := block 0 0b100; s.Legal ∧ s.off.toNat < s.frameLen) := by decide
theorem test_meets_SendTakesTheCountFixedAhead :
    let s := block.accepts { block 0x10000 0b100 with off := 196613 } [3, 1]
    s.Legal ∧ s.off.toNat < s.frameLen ∧ s.env.accepts = 3 :: [1] := by decide
theorem test_meets_EveryScheduleDeliversTheFrame :
    let s := block.accepts (block 1 0b100) ([0, 4, 0] ++ [5] ++ [7])
    s.Legal ∧ s.seq = 0b100 ∧ s.off = 0 ∧ s.env.accepts = [0, 4, 0] ++ [5] ++ [7] ∧ 0 < 5 ∧ [0, 4, 0].sum + 5 = s.frameLen := by
  decide
theorem test_meets_StatsCountsAndReports :
    (let s := block 25 0b101; s.Legal ∧ s.tStart ≤ s.tLast ∧ s.ports.nowSec ≤ s.tLast) ∧
    (let s := { block 25 0b101 with ports := { State.reset.ports with nowSec := 101 } }
     s.Legal ∧ s.tStart ≤ s.tLast ∧ s.tLast < s.ports.nowSec) := by decide
theorem test_meets_StatsStagesComputeAndReport :
    (let s := block 0 0b101; s.Legal ∧ s.ports.nowSec ≤ s.tLast) ∧
    (let s := { block 0 0b101 with ports := { State.reset.ports with nowSec := 101 } }
     s.Legal ∧ s.tLast < s.ports.nowSec ∧ s.tStart ≤ s.tLast) := by decide
theorem test_meets_StatsIsItsTwoStages : (block 25 0b101).Legal := by decide
theorem test_meets_ReportsAreRecordedWhenValid :
    let s := block.turns { block 25 0b101 with ports := { State.reset.ports with nowSec := 101 } } [.sequencer]
    step s = .next (after (step s)) ∧ (after (step s)).rptValid = true := ⟨answers (by decide), by decide⟩
theorem test_meets_OperationsWriteOnlyTheirState :
    exec .stats (block 25 0b101) = .next (after (exec .stats (block 25 0b101))) ∧ Instr.stats ≠ .init ∧
    (block 25 0b101).Legal := ⟨answers (by decide), by decide, by decide⟩
theorem test_meets_SuccessorOfEveryOperation :
    (let s := { block 1 0b011 with chan := { pending := [0x41], wire := [] } }
     s.Legal ∧ s.ports.rst ≠ .asserted ∧ s.ports.cfgN.toNat ≤ 65536 ∧ s.seq = 0b011 ∧ s.chan.pending ≠ []) ∧
    (let s := block 1 0b100; s.Legal ∧ s.chan.pending = [] ∧ s.off.toNat < s.frameLen) := by decide
theorem test_meets_OnlyDrainAndSendHold :
    (let s := { block 1 0b011 with chan := { pending := [0x41], wire := [] } }
     s.Legal ∧ s.seq = Instr.drain.seqField ∧ Instr.drain.stgField = 0 ∧ s.stg = 0 ∧ Instr.drain ≠ .init ∧
      exec .drain s = .next s) ∧
    (let s := block.accepts (block 1 0b100) [0]
     s.Legal ∧ s.seq = Instr.send.seqField ∧ s.off.toNat < s.frameLen ∧
      exec .send s = .next { block 1 0b100 with env := { State.reset.env with attempts := 1 } }) :=
  ⟨⟨by decide, by decide, by decide, by decide, by decide, answers (by decide)⟩,
    ⟨by decide, by decide, by decide, answers (by decide)⟩⟩
theorem test_meets_HandedBytesAreNeverLost :
    let s := block.turns (block.accepts (block 1 0b100) [2]) [.sequencer]
    step s = .next (after (step s)) ∧ (after (step s)).handed = [0x41, 0x64] :=
  ⟨answers (by decide), by decide⟩
theorem test_meets_DrainIsABarrier :
    let s := { block 1 0b011 with chan := { pending := [], wire := [0x41] } }
    s.Legal ∧ s.seq = 0b011 ∧ exec .drain s = .next (after (exec .drain s)) ∧ (after (exec .drain s)).seq = 0b100 :=
  ⟨by decide, by decide, answers (by decide), by decide⟩
theorem test_meets_HostDrivesPortsInitReadsConfiguration :
    (Instr.drain ≠ .init ∧ Instr.drain ≠ .stats ∧ Instr.drain ≠ .statsRpt ∧
      exec .drain (block 1 0b011) = .next (after (exec .drain (block 1 0b011)))) ∧
    (block.turns (block 1 0b100) [.host .assertReset]).turn = .host .assertReset ∧
    (block.turns (block 1 0b000) [.host .releaseReset]).turn = .host .releaseReset ∧
    (block.turns (block 1 0b100) [.host (.setConfig 7 1)]).turn = .host (.setConfig 7 1) ∧
    (block.turns (block 1 0b101) [.host (.setTime 101)]).turn = .host (.setTime 101) :=
  ⟨⟨by decide, by decide, by decide, answers (by decide)⟩, rfl, rfl, rfl, rfl⟩
/-- The last byte of the header on offer: with the channel not ready, and with it ready for two bytes. -/
theorem test_meets_OfferedByteStaysUntilAccepted :
    (let s := block.accepts { block 1 0b100 with off := 5 } [0]
     s.Legal ∧ s.txValid = true ∧ s.txReady = false ∧ s.txData = some 0x55) ∧
    (let s := block.turns (block.accepts { block 1 0b100 with off := 5 } [2]) [.sequencer]
     s.Legal ∧ s.txValid = true ∧ s.txReady = true ∧ s.txReadyAt 1 = true ∧ s.txReadyAt 2 = false ∧
     s.turn = .sequencer ∧ s.refused = none ∧ s.ports.rst = .idle ∧ s.stg = 0) := by decide

/-- States with the invariant: in SEND with four bytes of a frame handed over. -/
theorem test_meets_EveryStepKeepsTheInvariant :
    let s := block.turns { block 1 0b100 with
      off := 4, fb := [(0, 0x20), (1, 0), (2, 0)], chan := { pending := [0x64, 0x61, 0x00], wire := [0x41] } } [.channelTx]
    s.Inv ∧ step s = .next (after (step s)) := by
  refine ⟨⟨?_, ?_, ?_, ?_, ?_, ?_, ?_, ?_, ?_, ?_, ?_, ?_⟩, answers (by decide)⟩ <;> decide
theorem test_meets_NoOperationFaultsInARun : (block 0 0b001).Inv := by
  refine ⟨?_, ?_, ?_, ?_, ?_, ?_, ?_, ?_, ?_, ?_, ?_, ?_⟩ <;> decide
theorem test_meets_OneFrameOfTheLoop :
    let s := block.turns (block.accepts (block 25 0b001) [81, 3]) (List.replicate 5 .sequencer ++ [.channelTx])
    s.Inv ∧ s.seq = 0b001 ∧ s.refused = none ∧ s.chan.pending = [] ∧
      s.env.turns = List.replicate 5 .sequencer ++ [.channelTx] ∧ s.env.accepts = 81 :: [3] ∧ s.frameLen ≤ 81 := by
  refine ⟨⟨?_, ?_, ?_, ?_, ?_, ?_, ?_, ?_, ?_, ?_, ?_, ?_⟩, ?_⟩ <;> decide

theorem test_meets_StallsAreRuns :
    (let s := { block 1 0b011 with chan := { pending := [0x41], wire := [] } }
     s.Inv ∧ s.refused = none ∧ s.seq = 0b011 ∧ s.chan.pending ≠ []) ∧
    (let s := block 1 0b100; s.Inv ∧ s.refused = none ∧ s.seq = 0b100) := by
  refine ⟨⟨⟨?_, ?_, ?_, ?_, ?_, ?_, ?_, ?_, ?_, ?_, ?_, ?_⟩, ?_⟩, ⟨?_, ?_, ?_, ?_, ?_, ?_, ?_, ?_, ?_, ?_, ?_, ?_⟩, ?_⟩ <;> decide

/-- The turns of the sequencer and the channel alternate, and every attempt is accepted for one byte. -/
def alternate (n : Nat) : Turn := if n % 2 = 0 then .sequencer else .channelTx

/-- The run under these choices. -/
def alternateRun (n : Nat) : State :=
  match n with
  | 0 => block 1 0b001
  | m + 1 => after (step ((alternateRun m).choose (alternate m) 1))

theorem test_meets_FairRunsCompleteFrames :
    IsRun alternateRun alternate (fun _ => 1) ∧ (alternateRun 0).Inv ∧ (alternateRun 0).seq ≠ 0b000 ∧
      (alternateRun 0).refused = none ∧ (∀ n, alternate n ≠ .host .assertReset) ∧ SequencerFair alternate ∧
      ChannelFair alternateRun alternate (fun _ => 1) := by
  have hstg : ∀ n, (alternateRun n).stg = 0 := by
    intro n
    induction n with
    | zero => rfl
    | succ n ih =>
      obtain ⟨t, ht, h0⟩ := step_whole ((alternateRun n).choose (alternate n) 1) ih
      show (after (step ((alternateRun n).choose (alternate n) 1))).stg = 0
      rw [ht]; exact h0
  have hseq : SequencerFair alternate := fun n => ⟨2 * n, by omega, if_pos (by omega)⟩
  refine ⟨fun n => ?_, ?_, by decide, rfl, fun n => ?_, hseq, fun n _ => ?_, fun n _ => ⟨2 * n + 1, by omega, if_neg (by omega)⟩⟩
  · obtain ⟨t, ht, _⟩ := step_whole ((alternateRun n).choose (alternate n) 1) (hstg n)
    show _ = Host.Outcome.next (after (step ((alternateRun n).choose (alternate n) 1)))
    rw [ht]; rfl
  · refine ⟨?_, ?_, ?_, ?_, ?_, ?_, ?_, ?_, ?_, ?_, ?_, ?_⟩ <;> decide
  · unfold alternate; split <;> decide
  · obtain ⟨m, hm, ht⟩ := hseq n
    exact ⟨m, hm, .inr ⟨ht, Nat.le_refl 1⟩⟩

theorem test_meets_WireIsAPrefixOfTheFrames :
    IsRun alternateRun alternate (fun _ => 1) ∧ (alternateRun 0).Inv ∧ (alternateRun 0).seq = 0b001 ∧
      (alternateRun 0).refused = none ∧ ∀ n, alternate n ≠ .host .assertReset :=
  ⟨test_meets_FairRunsCompleteFrames.1, test_meets_FairRunsCompleteFrames.2.1, rfl, rfl,
    test_meets_FairRunsCompleteFrames.2.2.2.2.1⟩

end Sys2Proof.Tests
end

section
/-! PROOF. Binary64 (spec/00_scope.md R13, R15): addition, subtraction and multiplication are correctly rounded, and the
two phase steps are the nearest values. -/

namespace Sys2Proof.Machine

/-! ## Rounding a signed magnitude -/

/-- The word made of a rounded magnitude is finite only where the rounding did not reach infinity. -/
theorem F64.finite_ofSignMag_roundMag_iff (neg : Bool) (a k : ℕ) :
    F64.finite (F64.ofSignMag neg (roundMag a k)) = true ↔ roundMag a k < 2047 * 2 ^ 52 := by
  refine ⟨fun h => (roundMag_le_inf a k).lt_of_ne fun hinf => ?_, F64.finite_ofSignMag neg _⟩
  rw [hinf, F64.finite, F64.expo_ofSignMag neg _ (by norm_num)] at h
  exact absurd h (by decide)

/-- `roundMag_finite` with its bound as the rational `F64.overflow`. -/
theorem roundMag_lt_inf_of_lt_overflow (a k : ℕ) (h : (a : ℚ) / 2 ^ k < F64.overflow) :
    roundMag a k < 2047 * 2 ^ 52 := by
  refine roundMag_finite a k ?_
  have hoverflow : F64.overflow = ((2 ^ 54 - 1 : ℕ) : ℚ) * 2 ^ 970 := by
    rw [F64.overflow, Nat.cast_sub Nat.one_le_two_pow, sub_mul, Nat.cast_pow, Nat.cast_ofNat, ← pow_add, Nat.cast_one,
      one_mul]
  rw [hoverflow, div_lt_iff₀ (pow_pos two_pos k)] at h
  have hnat : a < (2 ^ 54 - 1) * 2 ^ 970 * 2 ^ k := by exact_mod_cast h
  calc 2 * (a * 2 ^ 1074) = a * 2 ^ 1075 := by rw [pow_succ' 2 1074]; exact Nat.mul_left_comm 2 a _
    _ < (2 ^ 54 - 1) * 2 ^ 970 * 2 ^ k * 2 ^ 1075 := Nat.mul_lt_mul_of_pos_right hnat (pow_pos two_pos _)
    _ = (2 ^ 54 - 1) * 2 ^ (k + 2045) := by
      rw [mul_assoc, mul_assoc, ← pow_add, ← pow_add]
      exact congrArg (fun i : ℕ => (2 ^ 54 - 1) * 2 ^ i) (by omega)

theorem F64.abs_signed (neg : Bool) (r : ℚ) (hr : 0 ≤ r) : |(if neg then -1 else 1) * r| = r := by
  cases neg <;> simp [abs_of_nonneg hr]

/-- R15: rounding the exact result `± a / 2^k` gives what `F64.RoundsTo` asks of it, beyond the overflow threshold too. -/
theorem F64.roundsTo_ofSignMag_roundMag (neg : Bool) (a k : ℕ) {q : ℚ}
    (hq : q = (if neg then -1 else 1) * (a : ℚ) / 2 ^ k) :
    F64.RoundsTo (F64.ofSignMag neg (roundMag a k)) q := by
  subst hq
  refine ⟨fun h => ?_, fun h => ?_⟩
  · rw [mul_div_assoc, F64.abs_signed neg _ (by positivity)] at h
    exact F64.finite_ofSignMag neg _ (roundMag_lt_inf_of_lt_overflow a k h)
  · exact F64.roundMag_isRounded neg a k ((F64.finite_ofSignMag_roundMag_iff neg a k).1 h)

/-! ## The three operations -/

theorem F64.value_of_sign_eq {x y : F64} (h : F64.sign x = F64.sign y) :
    F64.value y = (if F64.sign x then -1 else 1) * (F64.mag y : ℚ) / 2 ^ 1074 := by
  rw [F64.value, h]

theorem F64.value_of_sign_ne {x y : F64} (h : F64.sign x ≠ F64.sign y) :
    F64.value y = -((if F64.sign x then -1 else 1) * (F64.mag y : ℚ) / 2 ^ 1074) := by
  rw [F64.value, Bool.eq_not.2 h.symm]
  cases F64.sign x <;> simp [neg_div]

theorem F64.add_roundsTo (x y : F64) : F64.RoundsTo (F64.add x y) (F64.value x + F64.value y) := by
  unfold F64.add
  split_ifs with hsign hlt hgt
  · refine F64.roundsTo_ofSignMag_roundMag _ _ _ ?_
    rw [F64.value_of_sign_eq hsign, F64.value, Nat.cast_add, mul_add, add_div]
  · refine F64.roundsTo_ofSignMag_roundMag _ _ _ ?_
    rw [F64.value_of_sign_ne hsign, F64.value, Nat.cast_sub hlt.le, mul_sub, sub_div, sub_eq_add_neg]
  · refine F64.roundsTo_ofSignMag_roundMag _ _ _ ?_
    rw [F64.value_of_sign_ne (Ne.symm hsign), F64.value, Nat.cast_sub hgt.le, mul_sub, sub_div, sub_eq_neg_add]
  · have hmag : F64.mag x = F64.mag y := by omega
    have hzero : (0 : F64) = F64.ofSignMag false (roundMag 0 1074) := by rw [roundMag, if_pos rfl]; rfl
    rw [hzero]
    refine F64.roundsTo_ofSignMag_roundMag _ _ _ ?_
    rw [F64.value_of_sign_ne hsign, F64.value, hmag, add_neg_cancel, Nat.cast_zero, mul_zero, zero_div]

theorem F64.toNat_neg (x : F64) : (F64.neg x).toNat = x.toNat ^^^ 2 ^ 63 := BitVec.toNat_xor ..

theorem F64.sign_neg (x : F64) : F64.sign (F64.neg x) = !F64.sign x := by
  rw [F64.sign, F64.neg, BitVec.getLsbD_xor, F64.sign, show (0x8000000000000000 : F64).getLsbD 63 = true by decide,
    Bool.xor_true]

/-- Changing the sign keeps the lower 63 bits. -/
theorem F64.toNat_neg_mod (x : F64) : (F64.neg x).toNat % 2 ^ 63 = x.toNat % 2 ^ 63 := by
  rw [F64.toNat_neg, Nat.xor_mod_two_pow, Nat.mod_self, Nat.xor_zero]

theorem F64.mag_neg (x : F64) : F64.mag (F64.neg x) = F64.mag x := by
  have hlow := F64.toNat_neg_mod x
  have hexpo : F64.expo (F64.neg x) = F64.expo x := by unfold F64.expo; omega
  have hfrac : F64.frac (F64.neg x) = F64.frac x := by unfold F64.frac; omega
  rw [F64.mag, F64.mag, hexpo, hfrac]

theorem F64.value_neg (x : F64) : F64.value (F64.neg x) = -F64.value x := by
  have hsign : F64.sign x ≠ F64.sign (F64.neg x) := by rw [F64.sign_neg]; exact (Bool.not_ne_self _).symm
  rw [F64.value_of_sign_ne hsign, F64.mag_neg, F64.value]

theorem F64.sub_roundsTo (x y : F64) : F64.RoundsTo (F64.sub x y) (F64.value x - F64.value y) := by
  rw [sub_eq_add_neg, ← F64.value_neg]
  exact F64.add_roundsTo x (F64.neg y)

theorem F64.mul_roundsTo (x y : F64) : F64.RoundsTo (F64.mul x y) (F64.value x * F64.value y) := by
  refine F64.roundsTo_ofSignMag_roundMag _ _ _ ?_
  have hsign : (if F64.sign x != F64.sign y then -1 else 1 : ℚ)
      = (if F64.sign x then -1 else 1) * (if F64.sign y then -1 else 1) := by
    cases F64.sign x <;> cases F64.sign y <;> norm_num
  rw [F64.value, F64.value, div_mul_div_comm, ← pow_add, Nat.cast_mul, hsign, mul_mul_mul_comm]

/-- Settles O21: each operation rounds a magnitude whose signed value is the exact result. Neither
operand needs to be finite for it: `F64.value` and the operations read the same `F64.mag`. -/
theorem floatOperationsAreCorrectlyRounded : Obligations.FloatOperationsAreCorrectlyRounded :=
  fun x y _ _ => ⟨F64.add_roundsTo x y, F64.sub_roundsTo x y, F64.mul_roundsTo x y⟩

/-! ## The phase steps -/

/-- Around `n` units of `2^q`, with `n` above `2^52`, the values are `2^q` apart. -/
theorem F64.two_pow_le_abs_units_sub {z w : F64} {n q : ℕ} (hz : F64.units z = n * 2 ^ q) (hn : 2 ^ 52 < n)
    (hne : F64.units w ≠ F64.units z) : (2 : ℤ) ^ q ≤ |F64.units w - F64.units z| := by
  have hpos : (0 : ℤ) < 2 ^ q := pow_pos two_pos q
  rw [hz] at hne ⊢
  rcases F64.units_grid w q with ⟨j, hj⟩ | ⟨-, hsmall⟩
  · rw [hj] at hne ⊢
    rw [← sub_mul, abs_mul, abs_of_pos hpos]
    exact le_mul_of_one_le_left hpos.le (Int.one_le_abs (sub_ne_zero.2 fun h => hne (by rw [h])))
  · have hstep : ((2 : ℤ) ^ 52 + 1) * 2 ^ q ≤ n * 2 ^ q :=
      mul_le_mul_of_nonneg_right (by exact_mod_cast hn) hpos.le
    rw [add_mul, one_mul, ← pow_add] at hstep
    have hlt := (abs_lt.1 hsmall).2
    rw [abs_sub_comm]
    exact le_trans (by linarith) (le_abs_self _)

/-- A value is `fl(r)` where it is nearer to `r` than half the distance to any other value. -/
theorem F64.isRounded_of_abs_sub_lt_half_gap {z : F64} {n q : ℕ} {r : ℚ} (hfin : F64.finite z = true)
    (hz : F64.units z = n * 2 ^ q) (hn : 2 ^ 52 < n) (hr : 2 * |F64.value z - r| < 2 ^ q / 2 ^ 1074) :
    F64.IsRounded z r := by
  refine ⟨hfin, fun w _ => ?_⟩
  rcases eq_or_ne (F64.units w) (F64.units z) with heq | hne
  · have hv : F64.value w = F64.value z := by rw [F64.value_units, F64.value_units, heq]
    exact ⟨by rw [hv], fun _ h => absurd hv h⟩
  · have hpos : (0 : ℚ) < 2 ^ 1074 := pow_pos two_pos _
    have hgap : (2 : ℚ) ^ q / 2 ^ 1074 ≤ |F64.value w - F64.value z| := by
      rw [F64.value_units, F64.value_units, ← sub_div, abs_div, abs_of_pos hpos, div_le_div_iff_of_pos_right hpos]
      exact_mod_cast F64.two_pow_le_abs_units_sub hz hn hne
    have htri := abs_sub_le (F64.value w) r (F64.value z)
    rw [abs_sub_comm r] at htri
    have hlt : |F64.value z - r| < |F64.value w - r| := by
      linarith only [hr.trans_le (hgap.trans htri)]
    exact ⟨hlt.le, fun h => absurd h hlt.ne'⟩

theorem phaseStepPixel_isRounded : F64.IsRounded phaseStepPixel (3 / 10) :=
  F64.isRounded_of_abs_sub_lt_half_gap (n := 0x13333333333333) (q := 1020)
    (by decide) (by decide +kernel) (by decide) (by decide +kernel)

theorem phaseStepFrame_isRounded : F64.IsRounded phaseStepFrame (3 / 100) :=
  F64.isRounded_of_abs_sub_lt_half_gap (n := 0x1EB851EB851EB8) (q := 1016)
    (by decide) (by decide +kernel) (by decide) (by decide +kernel)

/-- Settles O22: each step errs by less than half the distance to the values next to it. -/
theorem phaseStepsAreNearest : Obligations.PhaseStepsAreNearest :=
  ⟨phaseStepPixel_isRounded, phaseStepFrame_isRounded⟩

end Sys2Proof.Machine
end

section
/-! PROOF. The state (spec/10_state.md): what every operation answers, which state it writes and which ports it reads, the
step by the agent whose turn it is, the byte on offer, the fall of the phase, and the reset state. -/

namespace Sys2Proof.Machine

/-! ## The step of each agent -/

theorem step_of_sequencer {s : State} (h : s.turn = .sequencer) : step s = sequencerStep s.beginStep := by
  rw [step, agentStep, h]

theorem step_of_host {s : State} {c : HostStep} (h : s.turn = .host c) : step s = .next (s.beginStep.hostStep c) := by
  rw [step, agentStep, h]

/-- R205, R207: a block takes a step where it is not refused or a reset has come. -/
theorem State.halted_eq_false_iff (s : State) : s.halted = false ↔ s.refused = none ∨ s.ports.rst ≠ .idle := by
  cases hr : s.refused <;> simp [State.halted, hr]

theorem sequencerStep_of_decoded {s : State} {i : Instr} (hrun : s.halted = false)
    (hword : decodeWord s.fetchWord = .ok i) : sequencerStep s = exec i s := by
  simp [sequencerStep, hrun, hword]

/-- Settles O4: `State.fetchWord` is the word of the statement, and `State.beginStep` the state it runs the operation
on. -/
theorem stepRunsTheDecodedOperation : Obligations.StepRunsTheDecodedOperation := by
  intro s i hturn hrun hword
  exact (step_of_sequencer hturn).trans
    (sequencerStep_of_decoded ((State.halted_eq_false_iff s.beginStep).2 hrun) hword)

/-! ## What every operation answers -/

/-- R149: the state that a write attempt of SEND leaves. -/
def State.sent (s : State) : State :=
  (((s.emit (s.wireBytes s.off.toNat s.acceptCount)).setOff (s.off.toNat + s.acceptCount)).popAccept).goto
    (if s.off.toNat + s.acceptCount = s.frameLen then seqStats else seqSend)

theorem exec_send {s : State} (hlegal : s.Legal) (hopen : s.off.toNat ≠ s.frameLen) : exec .send s = .next s.sent :=
  (s.admitted_legal _ hlegal).trans (if_neg hopen)

/-- The next states of the thirteen operations, one case for each way through an operation (`exec_eq_next_iff`). -/
inductive OpAnswers (s : State) : Instr → State → Prop
  | initRefused (hcount : maxPixels < s.ports.cfgN.toNat) : OpAnswers s .init (s.initDone.refuse .pixelCount)
  | init (hcount : s.ports.cfgN.toNat ≤ maxPixels) : OpAnswers s .init s.initialised.initDone
  | refused {i : Instr} {r : RefuseReason} (hi : i ≠ .init) (hreason : s.refusalReason = some r) :
      OpAnswers s i (s.refuse r)
  | gen (hlegal : s.Legal) :
      OpAnswers s .gen ((s.setFb (Memory.writeFrame s.fb s.hueBase s.phase s.pixels)).goto seqAdv)
  | genHue (hlegal : s.Legal) : OpAnswers s .genHue (s.setStage { s.stage with hueIdx := s.stageHue })
  | genWheel (hlegal : s.Legal) : OpAnswers s .genWheel (s.setStage { s.stage with raw := wheel s.stage.hueIdx })
  | genPhase (hlegal : s.Legal) : OpAnswers s .genPhase (s.setStage { s.stage with phi := s.stagePhase })
  | genBright (hlegal : s.Legal) : OpAnswers s .genBright (s.setStage { s.stage with bright := bright s.stage.phi })
  | genScale (hlegal : s.Legal) :
      OpAnswers s .genScale
        ((s.setFb s.stageFb).setStage { s.stage with pix := nextPixel s.stage.pix s.pixels })
  | adv (hlegal : s.Legal) :
      OpAnswers s .adv ((s.setAnimation (nextHue s.hueBase) (nextPhase s.phase)).goto seqDrain)
  | drained (hlegal : s.Legal) (hidle : s.txIdle = true) : OpAnswers s .drain ((s.setOff 0).goto seqSend)
  | draining (hlegal : s.Legal) (hbusy : s.txIdle = false) : OpAnswers s .drain s
  | sendRefused (hlegal : s.Legal) (hfull : s.off.toNat = s.frameLen) : OpAnswers s .send (s.refuse .offsetRange)
  | send (hlegal : s.Legal) (hopen : s.off.toNat ≠ s.frameLen) : OpAnswers s .send s.sent
  | stats (hlegal : s.Legal) :
      OpAnswers s .stats
        (((s.setCounters s.nextFrames s.nextBytes).report s.nextFrames s.nextBytes).goto seqGen)
  | statsAcc (hlegal : s.Legal) :
      OpAnswers s .statsAcc (s.setStage { s.stage with accFrames := s.nextFrames, accBytes := s.nextBytes })
  | statsRpt (hlegal : s.Legal) :
      OpAnswers s .statsRpt ((s.report s.stage.accFrames s.stage.accBytes).setStage s.stage)

theorem State.admitted_refused {s : State} {r : RefuseReason} (h : s.refusalReason = some r) (go : Result) :
    s.admitted go = .next (s.refuse r) := by
  simp [State.admitted, h]

theorem State.not_legal_of_refusalReason {s : State} {r : RefuseReason} (h : s.refusalReason = some r) : ¬ s.Legal :=
  fun hlegal => by simp [(State.refusalReason_none s).2 hlegal] at h

/-- The operations answer as `OpAnswers` says. -/
theorem OpAnswers.exec_eq {i : Instr} {s t : State} (h : OpAnswers s i t) : exec i s = .next t := by
  cases h with
  | initRefused hcount => exact if_pos hcount
  | init hcount => exact if_neg (Nat.not_lt.2 hcount)
  | refused hi hreason =>
    obtain ⟨go, hgo⟩ := exec_admitted i s hi
    rw [hgo, State.admitted_refused hreason]
  | drained hlegal hidle => exact (s.admitted_legal _ hlegal).trans (by rw [hidle]; rfl)
  | draining hlegal hbusy => exact (s.admitted_legal _ hlegal).trans (by rw [hbusy]; rfl)
  | sendRefused hlegal hfull => exact (s.admitted_legal _ hlegal).trans (if_pos hfull)
  | send hlegal hopen => exact exec_send hlegal hopen
  | gen hlegal | genHue hlegal | genWheel hlegal | genPhase hlegal | genBright hlegal | genScale hlegal
  | adv hlegal | stats hlegal | statsAcc hlegal | statsRpt hlegal => exact s.admitted_legal _ hlegal

/-- Every operation answers a next state. -/
theorem exists_opAnswers (i : Instr) (s : State) : ∃ t, OpAnswers s i t := by
  by_cases hinit : i = .init
  · subst hinit
    rcases Nat.lt_or_ge maxPixels s.ports.cfgN.toNat with hcount | hcount
    · exact ⟨_, .initRefused hcount⟩
    · exact ⟨_, .init hcount⟩
  cases hreason : s.refusalReason with
  | some r => exact ⟨_, .refused hinit hreason⟩
  | none =>
    have hlegal := (State.refusalReason_none s).1 hreason
    cases i with
    | init => exact absurd rfl hinit
    | gen => exact ⟨_, .gen hlegal⟩
    | genHue => exact ⟨_, .genHue hlegal⟩
    | genWheel => exact ⟨_, .genWheel hlegal⟩
    | genPhase => exact ⟨_, .genPhase hlegal⟩
    | genBright => exact ⟨_, .genBright hlegal⟩
    | genScale => exact ⟨_, .genScale hlegal⟩
    | adv => exact ⟨_, .adv hlegal⟩
    | drain =>
      cases hidle : s.txIdle with
      | true => exact ⟨_, .drained hlegal hidle⟩
      | false => exact ⟨_, .draining hlegal hidle⟩
    | send =>
      by_cases hfull : s.off.toNat = s.frameLen
      · exact ⟨_, .sendRefused hlegal hfull⟩
      · exact ⟨_, .send hlegal hfull⟩
    | stats => exact ⟨_, .stats hlegal⟩
    | statsAcc => exact ⟨_, .statsAcc hlegal⟩
    | statsRpt => exact ⟨_, .statsRpt hlegal⟩

theorem exec_eq_next_iff (i : Instr) (s t : State) : exec i s = .next t ↔ OpAnswers s i t := by
  refine ⟨fun h => ?_, OpAnswers.exec_eq⟩
  obtain ⟨u, hu⟩ := exists_opAnswers i s
  obtain rfl : u = t := Host.Outcome.next.inj (hu.exec_eq.symm.trans h)
  exact hu

/-! ## Which operation writes which state (R42) -/

section
variable {i : Instr} {s t : State} (h : OpAnswers s i t)
include h

theorem OpAnswers.configuration_eq (hi : i ≠ .init) :
    t.cfgN = s.cfgN ∧ t.cfgMagic = s.cfgMagic ∧ t.hdr = s.hdr ∧ t.tStart = s.tStart ∧ t.ports = s.ports := by
  cases h with
  | initRefused | init => exact absurd rfl hi
  | stats | statsRpt => simp
  | _ => exact ⟨rfl, rfl, rfl, rfl, rfl⟩

theorem OpAnswers.animation_eq (hi : i ≠ .init) (hadv : i ≠ .adv) : t.hueBase = s.hueBase ∧ t.phase = s.phase := by
  cases h with
  | initRefused | init => exact absurd rfl hi
  | adv => exact absurd rfl hadv
  | stats | statsRpt => simp
  | _ => exact ⟨rfl, rfl⟩

theorem OpAnswers.fb_eq (hgen : i ≠ .gen) (hscale : i ≠ .genScale) : t.fb = s.fb := by
  cases h with
  | gen => exact absurd rfl hgen
  | genScale => exact absurd rfl hscale
  | stats | statsRpt => simp
  | _ => rfl

theorem OpAnswers.off_eq (hi : i ≠ .init) (hdrain : i ≠ .drain) (hsend : i ≠ .send) : t.off = s.off := by
  cases h with
  | initRefused | init => exact absurd rfl hi
  | drained | draining => exact absurd rfl hdrain
  | send | sendRefused => exact absurd rfl hsend
  | stats | statsRpt => simp
  | _ => rfl

theorem OpAnswers.counters_eq (hi : i ≠ .init) (hstats : i ≠ .stats) :
    t.statFrames = s.statFrames ∧ t.statBytes = s.statBytes := by
  cases h with
  | initRefused | init => exact absurd rfl hi
  | stats => exact absurd rfl hstats
  | statsRpt => simp
  | _ => exact ⟨rfl, rfl⟩

theorem OpAnswers.reportRegisters_eq (hi : i ≠ .init) (hstats : i ≠ .stats) (hrpt : i ≠ .statsRpt) :
    t.tLast = s.tLast ∧ t.rptFps = s.rptFps ∧ t.rptBps = s.rptBps ∧ t.rptValid = s.rptValid := by
  cases h with
  | initRefused | init => exact absurd rfl hi
  | stats => exact absurd rfl hstats
  | statsRpt => exact absurd rfl hrpt
  | _ => exact ⟨rfl, rfl, rfl, rfl⟩

theorem OpAnswers.reports_eq (hstats : i ≠ .stats) (hrpt : i ≠ .statsRpt) : t.reports = s.reports := by
  cases h with
  | stats => exact absurd rfl hstats
  | statsRpt => exact absurd rfl hrpt
  | _ => rfl

theorem OpAnswers.chan_env_eq (hsend : i ≠ .send) : t.chan = s.chan ∧ t.env = s.env := by
  cases h with
  | send | sendRefused => exact absurd rfl hsend
  | stats | statsRpt => simp
  | _ => exact ⟨rfl, rfl⟩

/-- Log 10: a whole operation keeps the stage fields. -/
theorem OpAnswers.stage_eq (hi : i ≠ .init) (hwhole : i.stgField = 0) : t.stage = s.stage := by
  cases h with
  | initRefused | init => exact absurd rfl hi
  | genHue | genWheel | genPhase | genBright | genScale | statsAcc | statsRpt => exact absurd hwhole (by decide)
  | stats => simp
  | _ => rfl

/-- Log 10: a stage keeps `SEQ`. -/
theorem OpAnswers.seq_eq (hi : i ≠ .init) (hstage : i.stgField ≠ 0) : t.seq = s.seq := by
  cases h with
  | initRefused | init => exact absurd rfl hi
  | gen | adv | drained | draining | send | sendRefused | stats => exact absurd rfl hstage
  | statsRpt => simp
  | _ => rfl

/-- R205: the mark is set only where a refusal is due. -/
theorem OpAnswers.refused_eq (hi : i ≠ .init) (hlegal : s.Legal) (hopen : i = .send → s.off.toNat < s.frameLen) :
    t.refused = s.refused := by
  cases h with
  | initRefused | init => exact absurd rfl hi
  | refused _ hreason => exact absurd hlegal (State.not_legal_of_refusalReason hreason)
  | sendRefused _ hfull => exact absurd hfull (hopen rfl).ne
  | stats | statsRpt => simp
  | _ => rfl

/-- R38: the input ports that the host drives; INIT ends a released reset (log 8) and keeps the others. -/
theorem OpAnswers.inputPorts_eq :
    t.ports.cfgN = s.ports.cfgN ∧ t.ports.cfgMagic = s.ports.cfgMagic ∧ t.ports.nowSec = s.ports.nowSec := by
  by_cases hi : i = .init
  · subst hi
    cases h with
    | initRefused | init => exact ⟨rfl, rfl, rfl⟩
    | refused hne => exact absurd rfl hne
  · obtain ⟨-, -, -, -, hports⟩ := h.configuration_eq hi
    rw [hports]
    exact ⟨rfl, rfl, rfl⟩

end

/-- Settles O47: one frame lemma over the cases of `OpAnswers` for each clause of the table. -/
theorem operationsWriteOnlyTheirState : Obligations.OperationsWriteOnlyTheirState := by
  intro i s t hexec
  have h := (exec_eq_next_iff i s t).1 hexec
  exact ⟨h.configuration_eq, h.animation_eq, fun hgen hscale a => by rw [h.fb_eq hgen hscale], h.off_eq, h.counters_eq,
    h.reportRegisters_eq, h.reports_eq, h.chan_env_eq, fun hi => ⟨h.stage_eq hi, h.seq_eq hi⟩, h.refused_eq,
    h.inputPorts_eq⟩

/-! ## Which operation reads which port (R40, R41) -/

theorem State.report_withPorts (s : State) (p : Ports) (hnow : p.nowSec = s.ports.nowSec) (f b : BitVec 64) :
    State.report { s with ports := p } f b = { s.report f b with ports := p } := by
  by_cases hdue : s.tLast < s.ports.nowSec <;> simp [State.report, State.reportDue, hnow, hdue]

/-- Apart from INIT an operation reads no port but the time, and the time only to make a report. -/
theorem OpAnswers.withPorts {i : Instr} {s t : State} (h : OpAnswers s i t) (p : Ports) (hi : i ≠ .init)
    (hnow : i = .stats ∨ i = .statsRpt → p.nowSec = s.ports.nowSec) :
    OpAnswers { s with ports := p } i { t with ports := p } := by
  cases h with
  | initRefused | init => exact absurd rfl hi
  | refused _ hreason => exact .refused hi hreason
  | gen hlegal => exact .gen hlegal
  | genHue hlegal => exact .genHue hlegal
  | genWheel hlegal => exact .genWheel hlegal
  | genPhase hlegal => exact .genPhase hlegal
  | genBright hlegal => exact .genBright hlegal
  | genScale hlegal => exact .genScale hlegal
  | adv hlegal => exact .adv hlegal
  | drained hlegal hidle => exact .drained hlegal hidle
  | draining hlegal hbusy => exact .draining hlegal hbusy
  | sendRefused hlegal hfull => exact .sendRefused hlegal hfull
  | send hlegal hopen => exact .send hlegal hopen
  | stats hlegal =>
    have hreport := State.report_withPorts (s.setCounters s.nextFrames s.nextBytes) p (hnow (.inl rfl))
      s.nextFrames s.nextBytes
    have hanswer := OpAnswers.stats (s := { s with ports := p }) hlegal
    exact (congrArg (fun u => OpAnswers { s with ports := p } .stats (u.goto seqGen)) hreport).mp hanswer
  | statsAcc hlegal => exact .statsAcc hlegal
  | statsRpt hlegal =>
    have hreport := State.report_withPorts s p (hnow (.inr rfl)) s.stage.accFrames s.stage.accBytes
    have hanswer := OpAnswers.statsRpt (s := { s with ports := p }) hlegal
    exact (congrArg (fun u => OpAnswers { s with ports := p } .statsRpt (u.setStage s.stage)) hreport).mp hanswer

/-- `OpAnswers.withPorts` in terms of `exec`. -/
theorem exec_withPorts {i : Instr} {s t : State} (hexec : exec i s = .next t) (p : Ports) (hi : i ≠ .init)
    (hnow : i = .stats ∨ i = .statsRpt → p.nowSec = s.ports.nowSec) :
    t.ports = s.ports ∧ exec i { s with ports := p } = .next { t with ports := p } := by
  have h := (exec_eq_next_iff i s t).1 hexec
  obtain ⟨-, -, -, -, hports⟩ := h.configuration_eq hi
  exact ⟨hports, (h.withPorts p hi hnow).exec_eq⟩

/-- Settles O52: the operations by `exec_withPorts`, the host's steps by `step_of_host`. -/
theorem hostDrivesPortsInitReadsConfiguration : Obligations.HostDrivesPortsInitReadsConfiguration := by
  refine ⟨fun i s t n m hi hexec => ?_, fun i s t now hi hstats hrpt hexec => ?_, fun s hturn => step_of_host hturn,
    fun s hturn => step_of_host hturn, fun s n m hturn => step_of_host hturn, fun s now hturn => step_of_host hturn⟩
  · obtain ⟨hports, hexec'⟩ := exec_withPorts hexec { s.ports with cfgN := n, cfgMagic := m } hi fun _ => rfl
    rw [hports]
    exact hexec'
  · obtain ⟨hports, hexec'⟩ := exec_withPorts hexec { s.ports with nowSec := now } hi fun h =>
      h.elim (absurd · hstats) (absurd · hrpt)
    rw [hports]
    exact hexec'

/-! ## The byte on offer (R39) -/

theorem State.txData_of_txValid {s : State} (h : s.txValid = true) : s.txData = some (s.wireByte s.off.toNat) := by
  obtain ⟨-, hopen⟩ := s.txValid_iff.1 h
  rw [State.txData, if_pos h, State.wireAt, if_pos hopen]

theorem State.off_toNat_sent {s : State} (hlegal : s.Legal) : s.sent.off.toNat = s.off.toNat + s.acceptCount := by
  obtain ⟨hpixels, -, -, hoff⟩ := hlegal
  have hle := s.off_add_acceptCount_le hoff
  have hlt := s.frameLen_lt hpixels
  simp only [State.sent, State.goto_off, State.popAccept_off, State.setOff_off, BitVec.toNat_ofNat]
  exact Nat.mod_eq_of_lt (by omega)

theorem State.pending_sent (s : State) :
    s.sent.chan.pending = s.chan.pending ++ s.wireBytes s.off.toNat s.acceptCount := rfl

/-- R149: `W(o)` is the first of the bytes from `o` on. -/
theorem State.wireBytes_succ (s : State) (o k : Nat) :
    s.wireBytes o (k + 1) = s.wireByte o :: s.wireBytes (o + 1) k := by
  rw [Nat.add_comm, State.wireBytes_add]
  rfl

/-- R39: with `tx_ready` = 1 the byte on offer is the first to move. -/
theorem State.txData_moves {s : State} (hvalid : s.txValid = true) (hready : s.txReady = true) :
    ∃ b, s.txData = some b ∧ s.chan.pending ++ [b] <+: s.sent.chan.pending := by
  obtain ⟨-, hopen⟩ := s.txValid_iff.1 hvalid
  obtain ⟨k, hk⟩ := Nat.exists_eq_succ_of_ne_zero ((s.lt_acceptCount 0).2 ⟨hopen, hready⟩).ne'
  refine ⟨_, State.txData_of_txValid hvalid, s.wireBytes (s.off.toNat + 1) k, ?_⟩
  rw [State.pending_sent, hk, State.wireBytes_succ, List.append_assoc]
  rfl

theorem State.acceptCount_eq_zero {s : State} (hready : s.txReady = false) : s.acceptCount = 0 := by
  by_contra hpos
  obtain ⟨-, h⟩ := (s.lt_acceptCount 0).1 (Nat.pos_of_ne_zero hpos)
  rw [State.txReady, h] at hready
  exact absurd hready (by decide)

/-- R39, R149: with `tx_ready` = 0 an attempt leaves the state but for the count it uses up (log 2). -/
theorem State.sent_of_not_txReady {s : State} (hvalid : s.txValid = true) (hready : s.txReady = false) :
    s.sent = { s.popAccept with stg := 0 } := by
  obtain ⟨hseq, hopen⟩ := s.txValid_iff.1 hvalid
  rw [State.sent, State.acceptCount_eq_zero hready, Nat.add_zero, if_neg hopen.ne, ← hseq]
  simp [State.emit, State.setOff, State.popAccept, State.goto, State.wireBytes]

/-- R239: a byte that is not accepted stays on offer. -/
theorem State.txData_stays {s : State} (hvalid : s.txValid = true) (hready : s.txReady = false) :
    s.sent.chan = s.chan ∧ s.sent.off = s.off ∧ s.sent.txValid = true ∧ s.sent.txData = s.txData ∧
      s.sent.txData ≠ none := by
  rw [State.sent_of_not_txReady hvalid hready]
  refine ⟨rfl, rfl, hvalid, rfl, ?_⟩
  exact fun hnone => Option.some_ne_none _ ((State.txData_of_txValid hvalid).symm.trans hnone)

/-- The sequencer's step of a block in SEND is a write attempt. -/
theorem step_send {s : State} (hlegal : s.Legal) (hvalid : s.txValid = true) (hturn : s.turn = .sequencer)
    (hmark : s.refused = none) (hrst : s.ports.rst = .idle) (hstg : s.stg = 0) : step s = .next s.beginStep.sent := by
  obtain ⟨hseq, hopen⟩ := s.txValid_iff.1 hvalid
  have hword : decodeWord (if s.ports.rst = .idle then opword s.seq s.stg else 0) = .ok .send := by
    rw [if_pos hrst, hseq, hstg]
    rfl
  exact (stepRunsTheDecodedOperation s .send hturn (.inl hmark) hword).trans
    (exec_send (s := s.beginStep) hlegal hopen.ne)

/-- Settles O53: the attempt leaves `State.sent`, whose count is the number of transfers. -/
theorem offeredByteStaysUntilAccepted : Obligations.OfferedByteStaysUntilAccepted := by
  refine ⟨State.txValid_iff, fun s => State.txData_of_txValid, fun s hlegal hvalid => ?_⟩
  obtain ⟨-, hopen⟩ := s.txValid_iff.1 hvalid
  exact ⟨s.sent, s.acceptCount, exec_send hlegal hopen.ne, s.lt_acceptCount, State.off_toNat_sent hlegal, s.pending_sent,
    State.txData_moves hvalid, State.txData_stays hvalid,
    fun hturn hmark hrst hstg => ⟨_, step_send hlegal hvalid hturn hmark hrst hstg, rfl, rfl, rfl⟩⟩

/-! ## The fall of the phase (R25, R116) -/

/-- R115: the next phase is `fl(PHASE - 0.03)`. -/
theorem nextPhase_isRounded {p : F64} (h : F64.finite p = true) :
    F64.IsRounded (nextPhase p) (F64.value p - F64.value phaseStepFrame) :=
  (F64.sub_roundsTo p phaseStepFrame).2 (nextPhase_finite p h)

theorem phaseStepFrame_pos : 0 < F64.value phaseStepFrame := by decide +kernel

/-- The phase itself is a value at the distance of one step from the exact difference. -/
theorem nextPhase_le {p : F64} (h : F64.finite p = true) : F64.value (nextPhase p) ≤ F64.value p := by
  obtain ⟨hnearest, -⟩ := (nextPhase_isRounded h).2 p h
  rw [sub_sub_cancel, abs_of_pos phaseStepFrame_pos] at hnearest
  linarith [(abs_le.1 hnearest).2]

/-- A value nearer to the exact difference than the phase itself is. -/
theorem nextPhase_lt_of_between {p w : F64} (hp : F64.finite p = true) (hw : F64.finite w = true)
    (hlow : F64.value p - 2 * F64.value phaseStepFrame < F64.value w) (hhigh : F64.value w < F64.value p) :
    F64.value (nextPhase p) < F64.value p := by
  obtain ⟨hnearest, -⟩ := (nextPhase_isRounded hp).2 w hw
  have hcloser : |F64.value w - (F64.value p - F64.value phaseStepFrame)| < F64.value phaseStepFrame :=
    abs_lt.2 ⟨by linarith, by linarith⟩
  linarith [(abs_lt.1 (hnearest.trans_lt hcloser)).2]

/-- A magnitude as `n` units of its place `2^q`, where `n` has its top bit set unless the place is the lowest. -/
theorem F64.exists_place (x : F64) : ∃ q n, F64.mag x = n * 2 ^ q ∧ n < 2 ^ 53 ∧ (q = 0 ∨ 2 ^ 52 ≤ n) := by
  have hfrac : F64.frac x < 2 ^ 52 := Nat.mod_lt _ (by norm_num)
  rw [F64.mag]
  split
  · exact ⟨0, F64.frac x, (Nat.mul_one _).symm, by omega, .inl rfl⟩
  · exact ⟨F64.expo x - 1, 2 ^ 52 + F64.frac x, rfl, by omega, .inr (by omega)⟩

/-- The place of a magnitude below 2^48 is at most 2^-5. -/
theorem F64.place_le {q n : ℕ} (hq : q = 0 ∨ 2 ^ 52 ≤ n) (h : n * 2 ^ q < 2 ^ (48 + 1074)) : q ≤ 1069 := by
  rcases hq with hq | hq
  · omega
  · have hpow : 2 ^ (52 + q) < 2 ^ (48 + 1074) := by
      rw [pow_add]
      exact (Nat.mul_le_mul_right _ hq).trans_lt h
    have := (Nat.pow_lt_pow_iff_right (by norm_num)).1 hpow
    omega

theorem F64.value_of_nonpos {x : F64} (h : F64.value x ≤ 0) : F64.value x = -((F64.mag x : ℚ) / 2 ^ 1074) := by
  have hmag : 0 ≤ (F64.mag x : ℚ) / 2 ^ 1074 := div_nonneg (Nat.cast_nonneg _) (pow_pos two_pos _).le
  rw [F64.value, mul_div_assoc] at h ⊢
  cases hsign : F64.sign x with
  | true => rw [if_pos rfl, neg_one_mul]
  | false =>
    rw [hsign, if_neg (by decide), one_mul] at h
    rw [le_antisymm h hmag, mul_zero, neg_zero]

/-- The negative value of `n + 1` units of the place `2^q` is one place below that of `n` units. -/
theorem F64.value_ofSignMag_succ {q n : ℕ} (hn : n < 2 ^ 53) (hq : q = 0 ∨ 2 ^ 52 ≤ n)
    (hfin : q * 2 ^ 52 + (n + 1) < 2047 * 2 ^ 52) :
    F64.value (F64.ofSignMag true (q * 2 ^ 52 + (n + 1))) =
      -(((n * 2 ^ q : ℕ) : ℚ) / 2 ^ 1074) - 2 ^ q / 2 ^ 1074 := by
  rw [F64.value, F64.mag_ofSignMag true q (n + 1) hn (hq.imp_right Nat.le_succ_of_le) hfin,
    F64.sign_ofSignMag true _ (by omega), if_pos rfl, Nat.succ_mul, Nat.cast_add, Nat.cast_pow, neg_one_mul, neg_add,
    add_div, neg_div, neg_div, ← sub_eq_add_neg]
  rfl

/-- Below a value in (-2^48, 0] the next one is at most 2^-5 away. -/
theorem F64.exists_just_below {x : F64} (hlow : -(2 : ℚ) ^ 48 < F64.value x) (hhigh : F64.value x ≤ 0) :
    ∃ w : F64, F64.finite w = true ∧ F64.value x - 1 / 2 ^ 5 ≤ F64.value w ∧ F64.value w < F64.value x := by
  obtain ⟨q, n, hmag, hn, hq⟩ := F64.exists_place x
  have hunit : (0 : ℚ) < 2 ^ 1074 := pow_pos two_pos _
  have hvalue := F64.value_of_nonpos hhigh
  rw [hmag] at hvalue
  have hplace : q ≤ 1069 := by
    rw [hvalue, neg_lt_neg_iff, div_lt_iff₀ hunit, ← pow_add] at hlow
    exact F64.place_le hq (by exact_mod_cast hlow)
  have hfin : q * 2 ^ 52 + (n + 1) < 2047 * 2 ^ 52 := by omega
  refine ⟨_, F64.finite_ofSignMag true _ hfin, ?_, ?_⟩ <;> rw [F64.value_ofSignMag_succ hn hq hfin, hvalue]
  · refine sub_le_sub_left ?_ _
    rw [div_le_div_iff₀ hunit (pow_pos two_pos _), one_mul, ← pow_add]
    exact pow_le_pow_right₀ one_le_two (Nat.add_le_add_right hplace 5)
  · exact sub_lt_self _ (div_pos (pow_pos two_pos q) hunit)

/-- Settles O36: above -2^48 a value nearer than the phase lies below it; at -2^48 the next value below is more than two
steps away. -/
theorem phaseFallsAndFreezes : Obligations.PhaseFallsAndFreezes := by
  refine ⟨fun p hp => ⟨nextPhase_le hp, fun hlow hhigh => ?_⟩, by decide +kernel, by decide +kernel⟩
  obtain ⟨w, hw, hwlow, hwhigh⟩ := F64.exists_just_below hlow hhigh
  have hstep : 1 / 2 ^ 5 < 2 * F64.value phaseStepFrame := by decide +kernel
  exact nextPhase_lt_of_between hp hw (by linarith only [hwlow, hstep]) hwhigh

/-! ## The reset state (R43) -/

/-- Settles O10: the literal of `State.reset` against its own ports. -/
theorem valuesAfterReset : Obligations.ValuesAfterReset := by
  unfold Obligations.ValuesAfterReset
  decide

/-- Settles O54: after reset `SEQ` is GEN with no byte of a frame handed over, so the clauses on SEND, STATS and an
asserted reset ask nothing. -/
theorem invariantHoldsAfterReset : Obligations.InvariantHoldsAfterReset where
  fbWf := by decide
  legal := by decide
  seqLegal := by decide
  wholeOp := rfl
  sendOpen := fun h => absurd h (by decide)
  statsFull := fun h => absurd h (by decide)
  header := by decide
  times := by decide
  counted := by decide
  mark := .inl rfl
  resetSeq := fun h => absurd rfl h
  delivered := fun h => absurd h (by decide)

end Sys2Proof.Machine
end

section
/-! PROOF. The memory and the channel (spec/20_memory.md): the wire view, the channel's step, and the bytes handed
over. -/

namespace Sys2Proof.Machine

/-! ## The wire view (R62) -/

theorem Header.byte_eq_getElem! (h : Header) {o : ℕ} (ho : o < 6) :
    Header.byte h o = [h.b0, h.b1, h.b2, h.b3, h.b4, h.b5][o]! := by
  interval_cases o <;> rfl

theorem State.wireByte_of_lt (s : State) {o : ℕ} (ho : o < hdrLen) : s.wireByte o = Header.byte s.hdr o := if_pos ho

theorem State.wireByte_of_le (s : State) {o : ℕ} (ho : hdrLen ≤ o) : s.wireByte o = s.fbByte (o - hdrLen) :=
  if_neg (Nat.not_lt.2 ho)

theorem State.wireAt_of_lt (s : State) {o : ℕ} (ho : o < s.frameLen) : s.wireAt o = some (s.wireByte o) := if_pos ho

theorem State.wireAt_of_le (s : State) {o : ℕ} (ho : s.frameLen ≤ o) : s.wireAt o = none := if_neg (Nat.not_lt.2 ho)

/-- Settles O38: `State.frameLen` is L, and the two parts of the wire view meet at `hdrLen`. -/
theorem wireViewJoinsHeaderAndFrame : Obligations.WireViewJoinsHeaderAndFrame := by
  refine fun s o => ⟨fun hhdr => ?_, fun hfb hend => ?_, s.wireAt_of_le⟩
  · rw [s.wireAt_of_lt (Nat.lt_add_right _ hhdr), s.wireByte_of_lt hhdr, Header.byte_eq_getElem! s.hdr hhdr]
  · rw [s.wireAt_of_lt hend, s.wireByte_of_le hfb, hdrLen]

/-! ## The channel's step (R64) -/

theorem step_of_channelTx {s : State} (h : s.turn = .channelTx) : step s = .next s.beginStep.transmit := by
  rw [step, agentStep, h]

theorem State.transmit_of_pending_nil {s : State} (h : s.chan.pending = []) : s.transmit = s := by
  rw [State.transmit, h]

theorem State.transmit_of_pending_cons {s : State} {b : Byte} {rest : List Byte} (h : s.chan.pending = b :: rest) :
    s.transmit = { s with chan := { pending := rest, wire := s.chan.wire ++ [b] } } := by
  rw [State.transmit, h]

/-- Settles O9: `State.transmit` by the pending bytes, which beginning the step leaves as they are. -/
theorem channelTransmitsTheOldestByte : Obligations.ChannelTransmitsTheOldestByte := by
  refine fun s hturn => ⟨fun b rest hpending => ?_, fun hpending => ?_⟩
  · rw [step_of_channelTx hturn, State.transmit_of_pending_cons (s := s.beginStep) hpending]
    rfl
  · rw [step_of_channelTx hturn, State.transmit_of_pending_nil (s := s.beginStep) hpending]
    rfl

/-! ## The bytes handed over (R65, R70) -/

theorem State.handed_of_chan_eq {s t : State} (h : t.chan = s.chan) : t.handed = s.handed := by
  rw [State.handed, State.handed, h]

/-- R64: the line grows at its end, by the byte that leaves CH_PENDING. -/
theorem State.wire_prefix_transmit (s : State) : s.chan.wire <+: s.transmit.chan.wire := by
  cases hpending : s.chan.pending with
  | nil => rw [State.transmit_of_pending_nil hpending]
  | cons b rest =>
    rw [State.transmit_of_pending_cons hpending]
    exact List.prefix_append _ _

/-- R64 (a), R149: from `s` to `t` the channel is handed the next bytes of the wire view, at most as many as are
left. -/
def AppendsNextBytes (s t : State) : Prop :=
  ∃ k ≤ s.remaining, t.chan = (s.emit (s.wireBytes s.off.toNat k)).chan

/-- A step that leaves the channel hands over no byte. -/
theorem AppendsNextBytes.of_chan_eq {s t : State} (h : t.chan = s.chan) : AppendsNextBytes s t :=
  ⟨0, Nat.zero_le _, by simp [h, State.wireBytes]⟩

theorem OpAnswers.appendsNextBytes {i : Instr} {s t : State} (h : OpAnswers s i t) : AppendsNextBytes s t := by
  by_cases hsend : i = .send
  · subst hsend
    cases h with
    | send => exact ⟨s.acceptCount, s.acceptCount_le, rfl⟩
    | refused | sendRefused => exact .of_chan_eq rfl
  · obtain ⟨hchan, -⟩ := h.chan_env_eq hsend
    exact .of_chan_eq hchan

theorem sequencerStep_appendsNextBytes {s t : State} (h : sequencerStep s = .next t) : AppendsNextBytes s t := by
  rcases sequencerStep_cases s with ⟨-, hstep⟩ | ⟨i, -, -, hstep⟩ | ⟨-, -, -, hstep⟩
  · obtain rfl := Host.Outcome.next.inj (hstep.symm.trans h)
    exact .of_chan_eq rfl
  · exact ((exec_eq_next_iff i s t).1 (hstep.symm.trans h)).appendsNextBytes
  · obtain rfl := Host.Outcome.next.inj (hstep.symm.trans h)
    exact .of_chan_eq rfl

/-- Settles O50: the sequencer's step emits, the channel's step transmits, and the host's leaves the channel. -/
theorem handedBytesAreNeverLost : Obligations.HandedBytesAreNeverLost := by
  intro s t h
  rcases step_cases s with ⟨hturn, hstep⟩ | ⟨-, hstep⟩ | ⟨c, -, hstep⟩
  · obtain ⟨k, hk, hchan⟩ := sequencerStep_appendsNextBytes (hstep.symm.trans h)
    have hhanded := (State.handed_of_chan_eq hchan).trans (State.handed_emit _ _)
    exact ⟨.inr ⟨hturn, k, hk, hhanded⟩, by rw [hchan]; exact List.prefix_rfl⟩
  · obtain rfl := Host.Outcome.next.inj (hstep.symm.trans h)
    exact ⟨.inl (State.handed_transmit s.beginStep), State.wire_prefix_transmit s.beginStep⟩
  · obtain rfl := Host.Outcome.next.inj (hstep.symm.trans h)
    have hchan : (s.beginStep.hostStep c).chan = s.chan := State.hostStep_chan s.beginStep c
    exact ⟨.inl (State.handed_of_chan_eq hchan), by rw [hchan]⟩

end Sys2Proof.Machine
end

section
/-! PROOF. The encoding (spec/30_encoding.md): the operation word and its two fields, the decoder against the encoder
and against the reserved words, and the pixel count in the header. -/

namespace Sys2Proof.Machine

/-! ## The two fields of an operation word (R82) -/

@[simp] theorem opwSeq_opword (seq stg : BitVec 3) : opwSeq (opword seq stg) = seq := BitVec.extractLsb'_append_eq_left

@[simp] theorem opwStg_opword (seq stg : BitVec 3) : opwStg (opword seq stg) = stg := BitVec.extractLsb'_append_eq_right

/-- The two fields are the whole word: no bit lies outside them. -/
theorem opword_opwSeq_opwStg (w : BitVec 6) : opword (opwSeq w) (opwStg w) = w :=
  BitVec.extractLsb'_append_extractLsb' (w := 3) (len := 3)

theorem eq_encode_of_fields_eq {i : Instr} {w : BitVec 6} (hseq : opwSeq w = i.seqField)
    (hstg : opwStg w = i.stgField) : w = encode i := by
  rw [← opword_opwSeq_opwStg w, hseq, hstg, encode]

/-! ## Decoding and encoding (R83) -/

theorem decodeWord_encode (i : Instr) : decodeWord (encode i) = .ok i := by
  cases i with
  | init => exact Laws.RoundTrip.init.1
  | gen => exact Laws.RoundTrip.gen.1
  | genHue => exact Laws.RoundTrip.genHue.1
  | genWheel => exact Laws.RoundTrip.genWheel.1
  | genPhase => exact Laws.RoundTrip.genPhase.1
  | genBright => exact Laws.RoundTrip.genBright.1
  | genScale => exact Laws.RoundTrip.genScale.1
  | adv => exact Laws.RoundTrip.adv.1
  | drain => exact Laws.RoundTrip.drain.1
  | send => exact Laws.RoundTrip.send.1
  | stats => exact Laws.RoundTrip.stats.1
  | statsAcc => exact Laws.RoundTrip.statsAcc.1
  | statsRpt => exact Laws.RoundTrip.statsRpt.1

/-- The row of the map that the decoder takes has the operation's own fields. -/
theorem fields_eq_of_decodeWord {i : Instr} {w : BitVec 6} (h : decodeWord w = .ok i) :
    opwSeq w = i.seqField ∧ opwStg w = i.stgField := by
  unfold decodeWord at h
  split at h
  case h_14 | h_15 | h_16 => exact absurd h (by simp)
  all_goals
    next hseq hstg =>
    obtain rfl := Except.ok.inj h
    exact ⟨BitVec.eq_of_toNat_eq hseq, BitVec.eq_of_toNat_eq hstg⟩

/-- Settles O2: an operation's word is read as it (`decodeWord_encode`), and a word read as an operation has both of its
fields, which leave no bit of the word free. -/
theorem decodeEncodeAgree : Obligations.DecodeEncodeAgree := by
  refine fun i w => ⟨fun h => ?_, fun h => h ▸ decodeWord_encode i⟩
  obtain ⟨hseq, hstg⟩ := fields_eq_of_decodeWord h
  exact eq_encode_of_fields_eq hseq hstg

/-- Settles O1: the thirteen words and the one byte are evaluated. -/
theorem operationMapIsDecoded : Obligations.OperationMapIsDecoded := by
  unfold Obligations.OperationMapIsDecoded
  decide

/-! ## The reserved words (R84) -/

/-- Settles O3, along the rows of the decoder's map: a row of R83 is outside every clause of R84, and the rows that
refuse are inside one; of the last of them it is known only that no row before it applies. -/
theorem reservedWordsAreNoOperation : Obligations.ReservedWordsAreNoOperation := by
  intro seq stg
  have hseq := seq.isLt
  unfold decodeWord
  rw [opwSeq_opword, opwStg_opword]
  split
  case h_14 | h_15 => exact iff_of_true ⟨_, rfl⟩ (by omega)
  case h_16 =>
    simp only [imp_false] at *
    exact iff_of_true ⟨_, rfl⟩ (by omega)
  all_goals exact iff_of_false (by simp) (by omega)

/-! ## The pixel count in the header (R87, R89) -/

theorem toNat_highByte_lowByte (c : BitVec 16) :
    256 * (c.extractLsb' 8 8).toNat + (c.extractLsb' 0 8).toNat = c.toNat := by
  have hc := c.isLt
  simp only [BitVec.extractLsb'_toNat, Nat.shiftRight_eq_div_pow]
  omega

theorem countField_toNat {n : BitVec 17} (hpos : 1 ≤ n.toNat) (hmax : n.toNat ≤ 65536) :
    (countField n).toNat = n.toNat - 1 := by
  rw [countField, BitVec.toNat_ofNat]
  omega

/-- Settles O14: bytes 3 and 4 are those of the count field, and that is `N - 1` where `N` is not 0. -/
theorem receiverRecoversThePixelCount : Obligations.ReceiverRecoversThePixelCount := by
  intro n m hpos hmax
  calc 256 * (buildHeader n m).b3.toNat + (buildHeader n m).b4.toNat + 1
      = (countField n).toNat + 1 := congrArg (· + 1) (toNat_highByte_lowByte (countField n))
    _ = n.toNat := by rw [countField_toNat hpos hmax, Nat.sub_add_cancel hpos]

end Sys2Proof.Machine
end

section
/-! PROOF. The generator (spec/41_generator.md): the wheel, the scaling, the phases, the brightness against the exact
cube law, the stages, the frame and the advance of the animation. -/

namespace Sys2Proof.Machine

/-! ## The wheel (R103, R105) -/

theorem sextant_eq (h : BitVec 22) : sextant h = h.toNat / 256 % 6 := by
  rw [sextant, BitVec.toNat_ushiftRight, Nat.shiftRight_eq_div_pow]

theorem rising_toNat (h : BitVec 22) : (rising h).toNat = h.toNat % 256 := BitVec.toNat_setWidth 8 h

theorem falling_toNat (h : BitVec 22) : (falling h).toNat = 255 - h.toNat % 256 := by
  have hrising := rising_toNat h
  rw [falling, BitVec.toNat_sub, hrising, show (255 : Byte).toNat = 255 from rfl]
  omega

/-- Settles O18, along the six sextants of the wheel. -/
theorem wheelColours : Obligations.WheelColours := by
  intro h
  have hsextant : sextant h < 6 := Nat.mod_lt _ (by decide)
  simp only [← sextant_eq, wheel]
  interval_cases sextant h <;> simp [rising_toNat, falling_toNat]

/-! ## The phases (R26, R107) -/

theorem roundDivEven_mul (n : ℕ) {d : ℕ} (hd : 0 < d) : roundDivEven (n * d) d = n := by
  rw [roundDivEven, Nat.mul_mod_left, if_pos hd, Nat.mul_div_cancel n hd]

theorem log2_mul_two_pow {n : ℕ} (hn : n ≠ 0) (q : ℕ) : Nat.log2 (n * 2 ^ q) = Nat.log2 n + q := by
  induction q with
  | zero => rw [pow_zero, Nat.mul_one, Nat.add_zero]
  | succ q ih =>
    rw [pow_succ, ← Nat.mul_assoc, Nat.log2_eq_log_two, Nat.log_mul_base one_lt_two (by positivity),
      ← Nat.log2_eq_log_two, ih, Nat.add_assoc]

/-- The last place of `n` units of `2^q`, with `q` the place of a binary64 magnitude, is `q` itself. -/
theorem lastPlace_units {q n : ℕ} (hn0 : n ≠ 0) (hn : n < 2 ^ 53) (hq : q = 0 ∨ 2 ^ 52 ≤ n) :
    lastPlace (n * 2 ^ q) 1074 = q := by
  have hlog : Nat.log2 n < 53 := (Nat.log2_lt hn0).2 hn
  rw [lastPlace, log2_mul_two_pow hn0]
  rcases hq with rfl | hq
  · omega
  · have := (Nat.le_log2 hn0).2 hq
    omega

/-- A magnitude of binary64 rounds to itself. -/
theorem roundMag_units {q n : ℕ} (hn : n < 2 ^ 53) (hq : q = 0 ∨ 2 ^ 52 ≤ n) (hfin : q * 2 ^ 52 + n < 2047 * 2 ^ 52) :
    roundMag (n * 2 ^ q) 1074 = q * 2 ^ 52 + n := by
  rcases Nat.eq_zero_or_pos n with rfl | hpos
  · obtain rfl : q = 0 := by omega
    rfl
  · have hscale : n * 2 ^ q * 2 ^ 1074 = n * 2 ^ (1074 + q) := by rw [mul_assoc, ← pow_add, Nat.add_comm]
    rw [roundMag, if_neg (Nat.mul_pos hpos (pow_pos two_pos q)).ne', lastPlace_units hpos.ne' hn hq, hscale,
      roundDivEven_mul n (pow_pos two_pos _), infBits]
    exact min_eq_left hfin.le

/-- R15: a finite value rounds to itself. -/
theorem F64.ofSignMag_roundMag_mag {x : F64} (h : F64.finite x = true) :
    F64.ofSignMag (F64.sign x) (roundMag (F64.mag x) 1074) = x := by
  have hexpo : F64.expo x < 2047 := by
    have hlt : F64.expo x < 2048 := Nat.mod_lt _ (by norm_num)
    rw [F64.finite, bne_iff_ne] at h
    omega
  have hfrac : F64.frac x < 2 ^ 52 := Nat.mod_lt _ (by norm_num)
  have hbits : roundMag (F64.mag x) 1074 = F64.expo x * 2 ^ 52 + F64.frac x := by
    rw [F64.mag]
    split
    · next hzero => simpa [hzero] using roundMag_units (q := 0) (hfrac.trans (by norm_num)) (.inl rfl) (by omega)
    · rw [roundMag_units (by omega) (.inr (by omega)) (by omega)]
      omega
  have hsign : F64.sign x = decide (x.toNat / 2 ^ 63 % 2 = 1) := Nat.testBit_eq_decide_div_mod_eq
  have hx := x.isLt
  refine BitVec.eq_of_toNat_eq ?_
  rw [hbits, F64.toNat_ofSignMag _ _ (by omega), hsign, F64.expo, F64.frac]
  simp only [decide_eq_true_eq]
  split <;> omega

/-- Adding +0.0 keeps every finite value but -0.0. -/
theorem F64.add_zero {x : F64} (hfin : F64.finite x = true) (hx : x ≠ 0x8000000000000000) : F64.add x 0 = x := by
  have hself := F64.ofSignMag_roundMag_mag hfin
  have hmag : F64.mag 0 = 0 := by decide
  have hsign0 : F64.sign 0 = false := by decide
  rw [F64.add, hmag, hsign0]
  cases hsign : F64.sign x with
  | false => rw [if_pos rfl, Nat.add_zero, ← hsign, hself]
  | true =>
    rw [hsign] at hself
    have hpos : 0 < F64.mag x := by
      refine Nat.pos_of_ne_zero fun hzero => hx ?_
      rw [← hself, hzero]
      rfl
    rw [if_neg (by decide), if_pos hpos, Nat.sub_zero, hself]

/-- R107: `fl(i)` of a pixel index has the value `i`. -/
theorem F64.value_ofNat {i : ℕ} (h : i < 2 ^ 53) : F64.value (F64.ofNat i) = i := by
  have hsign : F64.sign (F64.ofNat i) = false :=
    F64.sign_ofSignMag false _ ((roundMag_le_inf i 0).trans_lt (by norm_num))
  rw [F64.value, hsign, F64.mag_ofNat i h, if_neg (by decide), one_mul, Nat.cast_mul, Nat.cast_pow, Nat.cast_ofNat,
    mul_div_cancel_right₀ _ (pow_pos two_pos _).ne']

theorem F64.abs_value (x : F64) : |F64.value x| = (F64.mag x : ℚ) / 2 ^ 1074 := by
  rw [F64.value, mul_div_assoc, F64.abs_signed _ _ (div_nonneg (Nat.cast_nonneg _) (pow_pos two_pos _).le)]

/-- A rounded value is at most twice as far from 0 as the exact one. -/
theorem F64.IsRounded.abs_value_le {z : F64} {r : ℚ} (h : F64.IsRounded z r) : |F64.value z| ≤ 2 * |r| := by
  obtain ⟨-, hnearest⟩ := h
  obtain ⟨hle, -⟩ := hnearest 0 (by decide)
  rw [show F64.value 0 = 0 by decide +kernel, zero_sub, abs_neg] at hle
  linarith [abs_sub_abs_le_abs_sub (F64.value z) r]

theorem abs_pixelStep_le {i : ℕ} (hi : i < 65536) : |i * F64.value phaseStepPixel| ≤ 65536 := by
  have hstep : |F64.value phaseStepPixel| ≤ 1 := by decide +kernel
  have hcast : (i : ℚ) ≤ 65536 := by exact_mod_cast hi.le
  calc |i * F64.value phaseStepPixel| = i * |F64.value phaseStepPixel| := by rw [abs_mul, Nat.abs_cast]
    _ ≤ 65536 * 1 := mul_le_mul hcast hstep (abs_nonneg _) (by norm_num)
    _ = 65536 := mul_one _

/-- R107: the first of the two roundings. -/
theorem pixelStep_isRounded {i : ℕ} (hi : i < 65536) :
    F64.IsRounded (F64.mul (F64.ofNat i) phaseStepPixel) (i * F64.value phaseStepPixel) := by
  obtain ⟨hfinite, hrounded⟩ := F64.mul_roundsTo (F64.ofNat i) phaseStepPixel
  rw [F64.value_ofNat (hi.trans (by norm_num))] at hfinite hrounded
  have hlimit : (65536 : ℚ) < F64.overflow := by decide +kernel
  exact hrounded (hfinite ((abs_pixelStep_le hi).trans_lt hlimit))

theorem pixelStep_mag_lt {i : ℕ} (hi : i < 65536) : F64.mag (F64.mul (F64.ofNat i) phaseStepPixel) < 2 ^ 2044 := by
  have hle := (pixelStep_isRounded hi).abs_value_le.trans (mul_le_mul_of_nonneg_left (abs_pixelStep_le hi) two_pos.le)
  rw [F64.abs_value, div_le_iff₀ (pow_pos two_pos _)] at hle
  have hlimit : (2 * 65536 * 2 ^ 1074 : ℚ) < 2 ^ 2044 := by decide +kernel
  exact_mod_cast hle.trans_lt hlimit

/-- R107: the second of the two roundings. -/
theorem pixelPhase_isRounded {phase : F64} {i : ℕ} (hphase : F64.finite phase = true) (hi : i < 65536) :
    F64.IsRounded (pixelPhase phase i)
      (F64.value phase + F64.value (F64.mul (F64.ofNat i) phaseStepPixel)) :=
  (F64.add_roundsTo phase _).2 (F64.add_finite phase _ hphase (pixelStep_mag_lt hi))

theorem pixelPhase_zero {phase : F64} (hfin : F64.finite phase = true) (hphase : phase ≠ 0x8000000000000000) :
    pixelPhase phase 0 = phase := by
  rw [pixelPhase, show F64.mul (F64.ofNat 0) phaseStepPixel = 0 by decide +kernel]
  exact F64.add_zero hfin hphase

/-- Settles O23: the product and the sum are each rounded once; for pixel 0 the product is +0.0. -/
theorem pixelPhaseIsRoundedTwice : Obligations.PixelPhaseIsRoundedTwice :=
  fun _ _ hphase hi =>
    ⟨⟨_, pixelStep_isRounded hi, pixelPhase_isRounded hphase hi⟩, pixelPhase_zero hphase⟩

/-- Below -2^48 the values are 2^-4 apart. -/
theorem F64.value_le_of_lt_neg {x : F64} (h : F64.value x < -(2 : ℚ) ^ 48) :
    F64.value x ≤ -(2 : ℚ) ^ 48 - 1 / 2 ^ 4 := by
  have hunit : (0 : ℚ) < 2 ^ 1074 := pow_pos two_pos _
  rw [F64.value_units, div_lt_iff₀ hunit, neg_mul, ← pow_add] at h
  have hlow : F64.units x < -2 ^ (48 + 1074) := by exact_mod_cast h
  rcases F64.units_grid x 1070 with ⟨j, hj⟩ | ⟨-, hsmall⟩
  · rw [hj, show (2 : ℤ) ^ (48 + 1074) = 2 ^ 52 * 2 ^ 1070 from pow_add 2 52 1070, ← neg_mul] at hlow
    have hlt : j < -2 ^ 52 := lt_of_mul_lt_mul_right hlow (pow_pos two_pos _).le
    have hle : (j : ℚ) ≤ -2 ^ 52 - 1 := by exact_mod_cast Int.le_sub_one_of_lt hlt
    rw [F64.value_units, div_le_iff₀ hunit, hj, Int.cast_mul, Int.cast_pow, Int.cast_ofNat,
      show (2 : ℚ) ^ 1074 = 2 ^ 4 * 2 ^ 1070 from pow_add 2 4 1070, ← mul_assoc]
    exact mul_le_mul_of_nonneg_right (hle.trans_eq (by norm_num)) (pow_pos two_pos _).le
  · exact absurd hlow (abs_lt.1 hsmall).1.le.not_gt

/-- R26: the phase does not leave the range where it falls: between -2^48 and the value below it lies more than a
step. -/
theorem neg_two_pow_le_nextPhase {p : F64} (hp : F64.finite p = true) (hlow : -(2 : ℚ) ^ 48 ≤ F64.value p) :
    -(2 : ℚ) ^ 48 ≤ F64.value (nextPhase p) := by
  by_contra hbelow
  obtain ⟨-, hvalue⟩ := phaseFallsAndFreezes.2
  obtain ⟨hnearest, -⟩ := (nextPhase_isRounded hp).2 0xC2F0000000000000 (by decide)
  have hgap := F64.value_le_of_lt_neg (not_le.1 hbelow)
  have hstep : 2 * F64.value phaseStepFrame < 1 / 2 ^ 4 := by decide +kernel
  rw [hvalue] at hnearest
  have hcloser : |-(2 : ℚ) ^ 48 - (F64.value p - F64.value phaseStepFrame)| <
      F64.value p - F64.value phaseStepFrame + 2 ^ 48 + 1 / 2 ^ 4 :=
    abs_lt.2 ⟨by linarith, by linarith⟩
  have hfar := neg_abs_le (F64.value (nextPhase p) - (F64.value p - F64.value phaseStepFrame))
  linarith only [hnearest.trans_lt hcloser, hgap, hfar]

theorem nextPhase_neg {p : F64} (hp : F64.finite p = true) (hlow : -(2 : ℚ) ^ 48 ≤ F64.value p)
    (hhigh : F64.value p ≤ 0) : F64.value (nextPhase p) < 0 := by
  obtain ⟨hle, hlt⟩ := phaseFallsAndFreezes.1 p hp
  rcases hlow.eq_or_lt with heq | hlow
  · exact hle.trans_lt (heq ▸ by norm_num)
  · exact (hlt hlow hhigh).trans_le hhigh

/-- Settles O37: the next phase is not below -2^48, and below 0, so it is not -0.0 either. -/
theorem phaseStaysInItsRange : Obligations.PhaseStaysInItsRange := by
  refine ⟨by decide +kernel, fun p hp hlow hhigh _ => ?_⟩
  have hneg := nextPhase_neg hp hlow hhigh
  refine ⟨nextPhase_finite p hp, neg_two_pow_le_nextPhase hp hlow, hneg.le, fun hzero => ?_⟩
  rw [hzero] at hneg
  exact absurd hneg (by decide +kernel)

/-! ## The brightness (R108, R109) -/

theorem tieBand_eq : tieBand = 1 / 2 ^ 20 := by rw [tieBand, tieBandInv, Nat.cast_pow, Nat.cast_ofNat]

/-! ### Quotients of naturals as reals -/

theorem natDiv_eq_floor (n d : ℕ) : ((n / d : ℕ) : ℤ) = ⌊(n : ℝ) / d⌋ := by
  rw [← Nat.floor_div_eq_div (K := ℝ), Int.natCast_floor_eq_floor (by positivity)]

theorem roundHalfUp_eq_floor (n : ℕ) {d : ℕ} (hd : 0 < d) : (roundHalfUp n d : ℤ) = ⌊(n : ℝ) / d + 1 / 2⌋ := by
  have hdr : (d : ℝ) ≠ 0 := Nat.cast_ne_zero.2 hd.ne'
  rw [roundHalfUp, natDiv_eq_floor]
  congr 1
  push_cast
  field_simp

theorem roundHalfUp_eq_or (n : ℕ) {d : ℕ} (hd : 0 < d) : roundHalfUp n d = n / d ∨ roundHalfUp n d = n / d + 1 := by
  have hdiv := Nat.div_add_mod n d
  have hmod := Nat.mod_lt n hd
  have hlow : n / d ≤ roundHalfUp n d :=
    (Nat.le_div_iff_mul_le (by omega)).2 (by rw [mul_left_comm, mul_comm (n / d)]; omega)
  have hhigh : roundHalfUp n d < n / d + 2 :=
    (Nat.div_lt_iff_lt_mul (by omega)).2 (by rw [mul_left_comm, mul_comm (n / d + 2), Nat.mul_add]; omega)
  omega

theorem tieDistance_natDiv (n : ℕ) {d : ℕ} (hd : 0 < d) :
    tieDistance ((n : ℝ) / d) = ((max (2 * (n % d)) d - min (2 * (n % d)) d : ℕ) : ℝ) / (2 * d) := by
  have hdr : (0 : ℝ) < d := Nat.cast_pos.2 hd
  have hn : (n : ℝ) = d * (n / d : ℕ) + (n % d : ℕ) := by exact_mod_cast (Nat.div_add_mod n d).symm
  have hdist : (n : ℝ) / d - ((n / d : ℕ) + 1 / 2) = ((2 * (n % d) : ℕ) - d) / (2 * d) := by
    rw [hn]
    push_cast
    field_simp
    ring
  rw [tieDistance, ← natDiv_eq_floor, Int.cast_natCast, hdist, abs_div, abs_of_pos (mul_pos two_pos hdr),
    Nat.cast_sub min_le_max, Nat.cast_max, Nat.cast_min, max_sub_min_eq_abs']

/-- The computed test is the one for the band of R109 widened by 2^-100. -/
theorem nearTie_iff (n : ℕ) {d : ℕ} (hd : 0 < d) :
    nearTie n d = true ↔ tieDistance ((n : ℝ) / d) ≤ 1 / 2 ^ 20 + 1 / 2 ^ 100 := by
  have hdr : (0 : ℝ) < 2 * d := by positivity
  rw [nearTie, decide_eq_true_iff, tieDistance_natDiv n hd, div_le_iff₀ hdr, tieBandInv]
  generalize max (2 * (n % d)) d - min (2 * (n % d)) d = gap
  rw [← Nat.cast_le (α := ℝ)]
  push_cast
  constructor <;> intro h <;> linarith

/-! ### Rounding near a real -/

/-- Further than `δ` from a half-integer, an error of `δ` does not change the rounded value. -/
theorem floor_add_half_eq {x y δ : ℝ} (hfar : δ < tieDistance x) (hnear : |y - x| ≤ δ) :
    ⌊y + 1 / 2⌋ = ⌊x + 1 / 2⌋ := by
  have hlow := Int.floor_le x
  have hhigh := Int.lt_floor_add_one x
  obtain ⟨hnear1, hnear2⟩ := abs_le.1 hnear
  rcases lt_abs.1 hfar with habove | hbelow
  · have hx : ⌊x + 1 / 2⌋ = ⌊x⌋ + 1 := Int.floor_eq_iff.2 (by push_cast; constructor <;> linarith)
    rw [hx, Int.floor_eq_iff]
    push_cast
    constructor <;> linarith
  · have hx : ⌊x + 1 / 2⌋ = ⌊x⌋ := Int.floor_eq_iff.2 (by constructor <;> linarith)
    rw [hx, Int.floor_eq_iff]
    constructor <;> linarith

/-- Near a half-integer, a small error does not change the unit interval. -/
theorem floor_eq_of_tieDistance_le {x y δ ε : ℝ} (htie : tieDistance x ≤ δ) (hnear : |y - x| ≤ ε)
    (hsum : δ + ε < 1 / 2) :
    ⌊y⌋ = ⌊x⌋ := by
  obtain ⟨htie1, htie2⟩ := abs_le.1 htie
  obtain ⟨hnear1, hnear2⟩ := abs_le.1 hnear
  rw [Int.floor_eq_iff]
  constructor <;> linarith

theorem tieDistance_le_add {x y ε : ℝ} (hfloor : ⌊y⌋ = ⌊x⌋) (hnear : |y - x| ≤ ε) :
    tieDistance y ≤ tieDistance x + ε := by
  rw [tieDistance, tieDistance, hfloor]
  exact (abs_sub_le y x _).trans (by linarith)

/-! ### The computed cube law -/

/-- The computed sine of a finite phase, with `sinBits` fraction bits; `onePlusSin` adds 1 to it. -/
def signedSin (φ : F64) : ℤ := if F64.sign φ then -sinFixed (F64.mag φ) else sinFixed (F64.mag φ)

theorem signedSin_error (φ : F64) :
    |(signedSin φ : ℝ) / 2 ^ sinBits (F64.mag φ) - Real.sin (F64.value φ : ℝ)| ≤ 1 / 2 ^ 120 := by
  have hmag := sinFixed_error (F64.mag φ)
  have hvalue : (F64.value φ : ℝ) = (if F64.sign φ then -1 else 1) * ((F64.mag φ : ℝ) / 2 ^ 1074) := by
    rw [F64.value, mul_div_assoc, Rat.cast_mul, Rat.cast_div, Rat.cast_pow, Rat.cast_natCast, Rat.cast_ofNat]
    split <;> norm_num
  rw [signedSin, hvalue]
  cases F64.sign φ with
  | false => simpa using hmag
  | true =>
    rw [if_pos rfl, if_pos rfl, neg_one_mul, Real.sin_neg, Int.cast_neg, neg_div, ← neg_sub', abs_neg]
    exact hmag

theorem onePlusSin_error (φ : F64) :
    |(onePlusSin φ : ℝ) / 2 ^ sinBits (F64.mag φ) - (1 + Real.sin (F64.value φ : ℝ))| ≤ 1 / 2 ^ 120 := by
  have hpos : (0 : ℝ) < 2 ^ sinBits (F64.mag φ) := pow_pos two_pos _
  have hw : 0 ≤ 1 + Real.sin (F64.value φ : ℝ) := by linarith [Real.neg_one_le_sin (F64.value φ : ℝ)]
  have hcast : (onePlusSin φ : ℝ) =
      max (2 ^ sinBits (F64.mag φ) + signedSin φ : ℝ) 0 := by
    rw [onePlusSin, ← Int.cast_natCast, Int.toNat_eq_max]
    push_cast [signedSin]
    rfl
  have hdiv : (onePlusSin φ : ℝ) / 2 ^ sinBits (F64.mag φ) =
      max (1 + signedSin φ / 2 ^ sinBits (F64.mag φ) : ℝ) 0 := by
    rw [hcast, ← max_div_div_right hpos.le, zero_div, add_div, div_self hpos.ne']
  have hclip := abs_max_sub_max_le_abs (1 + signedSin φ / 2 ^ sinBits (F64.mag φ) : ℝ)
    (1 + Real.sin (F64.value φ : ℝ)) 0
  rw [max_eq_left hw, ← hdiv, add_sub_add_left_eq_sub] at hclip
  exact hclip.trans (signedSin_error φ)

/-- The cube law of R108 multiplies an error by less than 2^10 where the sine is in its range. -/
theorem cube_error {u w ε : ℝ} (hu : 0 ≤ u) (hw : 0 ≤ w) (hw2 : w ≤ 2) (huw : |u - w| ≤ ε) (hε : ε ≤ 1) :
    |(1 / 2 * u) ^ 3 * 255 - (1 / 2 * w) ^ 3 * 255| ≤ 2 ^ 10 * ε := by
  have hu3 : u ≤ 3 := by linarith [(abs_le.1 huw).2]
  have hsum : u ^ 2 + u * w + w ^ 2 ≤ 19 := by nlinarith
  have hfactor : (1 / 2 * u) ^ 3 * 255 - (1 / 2 * w) ^ 3 * 255 = (u - w) * (255 / 8 * (u ^ 2 + u * w + w ^ 2)) := by ring
  have hpos : 0 ≤ 255 / 8 * (u ^ 2 + u * w + w ^ 2) := by positivity
  rw [hfactor, abs_mul, abs_of_nonneg hpos, mul_comm]
  exact mul_le_mul (by linarith) huw (abs_nonneg _) (by norm_num)

theorem brightDen_pos (φ : F64) : 0 < brightDen φ := pow_pos two_pos _

theorem brightNum_div_brightDen (φ : F64) :
    (brightNum φ : ℝ) / brightDen φ = (1 / 2 * ((onePlusSin φ : ℝ) / 2 ^ sinBits (F64.mag φ))) ^ 3 * 255 := by
  rw [brightNum, brightDen]
  generalize sinBits (F64.mag φ) = p
  push_cast
  rw [pow_add, mul_comm 3 p, pow_mul]
  field_simp

/-- R108: the computed brightness is the exact one to within 2^-110. -/
theorem brightNum_div_error (φ : F64) : |(brightNum φ : ℝ) / brightDen φ - brightExact φ| ≤ 1 / 2 ^ 110 := by
  have hsin := Real.sin_le_one (F64.value φ : ℝ)
  have hsin' := Real.neg_one_le_sin (F64.value φ : ℝ)
  have hcube := cube_error (by positivity) (by linarith) (by linarith) (onePlusSin_error φ) (by norm_num)
  rw [brightNum_div_brightDen, brightExact, show 1 / 2 + 1 / 2 * Real.sin (F64.value φ : ℝ) =
    1 / 2 * (1 + Real.sin (F64.value φ : ℝ)) by ring]
  exact hcube.trans (by norm_num)

theorem brightExact_le (φ : F64) : brightExact φ ≤ 255 := by
  have hsin := Real.sin_le_one (F64.value φ : ℝ)
  have hsin' := Real.neg_one_le_sin (F64.value φ : ℝ)
  have hcube : (1 / 2 + 1 / 2 * Real.sin (F64.value φ : ℝ)) ^ 3 ≤ 1 := pow_le_one₀ (by linarith) (by linarith)
  rw [brightExact]
  linarith

/-! ### The brightness and its draw -/

theorem brightDrawn_toNat {φ : F64} {d : Option (TieDraw φ)} {k : ℤ}
    (hk : (roundTie (brightNum φ) (brightDen φ) (d.map TieDraw.up) : ℤ) = k) (hmax : k ≤ 255) :
    ((brightDrawn φ d).toNat : ℤ) = k := by
  rw [brightDrawn, BitVec.toNat_ofNat]
  omega

theorem brightDrawn_of_far {φ : F64} (hfar : 1 / 2 ^ 20 < tieDistance (brightExact φ)) (d : Option (TieDraw φ)) :
    ((brightDrawn φ d).toNat : ℤ) = ⌊brightExact φ + 1 / 2⌋ := by
  have hmax : ⌊brightExact φ + 1 / 2⌋ < 256 := Int.floor_lt.2 (by push_cast; linarith [brightExact_le φ])
  refine brightDrawn_toNat ?_ (Int.le_of_lt_add_one hmax)
  rw [tieDraw_none φ (tieBand_eq ▸ hfar) d, Option.map_none, roundTie_none, roundHalfUp_eq_floor _ (brightDen_pos φ)]
  exact floor_add_half_eq hfar ((brightNum_div_error φ).trans (by norm_num))

section
variable {φ : F64} (htie : tieDistance (brightExact φ) ≤ 1 / 2 ^ 20)
include htie

theorem floor_brightExact_lt : ⌊brightExact φ⌋ < 255 := by
  have hlow := (abs_le.1 htie).1
  have hlt : (⌊brightExact φ⌋ : ℝ) < 255 := by linarith [brightExact_le φ]
  exact_mod_cast hlt

theorem floor_brightNum_div : ((brightNum φ / brightDen φ : ℕ) : ℤ) = ⌊brightExact φ⌋ := by
  rw [natDiv_eq_floor]
  exact floor_eq_of_tieDistance_le htie (brightNum_div_error φ) (by norm_num)

theorem nearTie_bright : nearTie (brightNum φ) (brightDen φ) = true := by
  have hfloor := (natDiv_eq_floor _ _).symm.trans (floor_brightNum_div htie)
  have hdist := tieDistance_le_add hfloor (brightNum_div_error φ)
  rw [nearTie_iff _ (brightDen_pos φ)]
  exact hdist.trans (add_le_add htie (by norm_num))

theorem brightDrawn_some (d : TieDraw φ) : ((brightDrawn φ (some d)).toNat : ℤ) = ⌊brightExact φ⌋ + d.up.toNat := by
  have hup := d.up.toNat_le
  refine brightDrawn_toNat ?_ (by linarith [floor_brightExact_lt htie])
  rw [Option.map_some, roundTie_draw _ _ _ (nearTie_bright htie), Nat.cast_add, floor_brightNum_div htie]

theorem brightDrawn_none :
    ((brightDrawn φ none).toNat : ℤ) = ⌊brightExact φ⌋ ∨ ((brightDrawn φ none).toNat : ℤ) = ⌊brightExact φ⌋ + 1 := by
  have hfloor := floor_brightNum_div htie
  have hmax := floor_brightExact_lt htie
  rcases roundHalfUp_eq_or (brightNum φ) (brightDen_pos φ) with hdown | hup
  · refine .inl (brightDrawn_toNat ?_ hmax.le)
    rw [Option.map_none, roundTie_none, hdown, hfloor]
  · refine .inr (brightDrawn_toNat ?_ hmax)
    rw [Option.map_none, roundTie_none, hup, Nat.cast_succ, hfloor]

theorem brightDrawn_neighbour (d : Option (TieDraw φ)) :
    ((brightDrawn φ d).toNat : ℤ) = ⌊brightExact φ⌋ ∨ ((brightDrawn φ d).toNat : ℤ) = ⌊brightExact φ⌋ + 1 := by
  cases d with
  | none => exact brightDrawn_none htie
  | some d =>
    rw [brightDrawn_some htie]
    cases d.up <;> simp

end

/-- Settles O24: the computed quotient is within 2^-110 of the exact real, too near to cross an integer within
the band, or a half-integer outside it. -/
theorem brightnessFollowsTheCubeLaw : Obligations.BrightnessFollowsTheCubeLaw := by
  intro φ hφ
  have hbright : bright φ = brightDrawn φ (Config.tieDraw φ) := if_pos hφ
  rw [hbright]
  refine ⟨fun hfar => brightDrawn_of_far hfar _, fun htie => ?_⟩
  have hband : tieDistance (brightExact φ) ≤ tieBand := tieBand_eq ▸ htie
  exact ⟨brightDrawn_neighbour htie _, rfl, ⟨some ⟨false, hband⟩, (brightDrawn_some htie _).trans (add_zero _)⟩,
    ⟨some ⟨true, hband⟩, brightDrawn_some htie _⟩⟩

/-! ## Scaling (R111) -/

theorem scaleByte_toNat (raw b : Byte) : (scaleByte raw b).toNat = raw.toNat * b.toNat / 255 := by
  have hprod : raw.toNat * b.toNat ≤ 255 * 255 :=
    Nat.mul_le_mul (Nat.le_of_lt_succ raw.isLt) (Nat.le_of_lt_succ b.isLt)
  rw [scaleByte, scaleDiv, BitVec.toNat_ofNat]
  omega

theorem scaleByte_toNat_le (raw b : Byte) : (scaleByte raw b).toNat ≤ min raw.toNat b.toNat := by
  rw [scaleByte_toNat]
  refine le_min (Nat.div_le_of_le_mul ?_) (Nat.div_le_of_le_mul ?_)
  · rw [Nat.mul_comm]
    exact Nat.mul_le_mul_right _ (Nat.le_of_lt_succ b.isLt)
  · exact Nat.mul_le_mul_right _ (Nat.le_of_lt_succ raw.isLt)

theorem scaleByte_max (b : Byte) : scaleByte 255 b = b := by
  refine BitVec.eq_of_toNat_eq ?_
  rw [scaleByte_toNat]
  exact Nat.mul_div_cancel_left _ (by decide)

theorem colorByte_scaleColor (raw : Color) (b : Byte) (j : ℕ) :
    colorByte (scaleColor raw b) j = scaleByte (colorByte raw j) b := by
  unfold colorByte
  split_ifs <;> rfl

/-- Settles O27: every component is scaled by `scaleByte`. -/
theorem scalingTruncates : Obligations.ScalingTruncates := by
  intro raw b j
  rw [colorByte_scaleColor]
  exact ⟨scaleByte_toNat _ b, scaleByte_toNat_le _ b, fun hmax => by rw [hmax, scaleByte_max]⟩

/-! ## The stages of one pixel (R102 to R111) -/

/-- R102: the hue index of an admitted pixel fits its 22 bits. -/
theorem hueIndex_toNat {base : BitVec 11} {i : ℕ} (hbase : base.toNat < huePeriod) (hi : i < maxPixels) :
    (hueIndex base i).toNat = base.toNat + 40 * i := by
  rw [huePeriod] at hbase
  rw [maxPixels] at hi
  rw [hueIndex, hueStepPixel, BitVec.toNat_ofNat]
  omega

section
variable {s : State} (hlegal : s.Legal) (hpix : s.stage.pix < s.pixels)
include hlegal

theorem exec_genWheel : exec .genWheel s = .next (s.setStage { s.stage with raw := wheel s.stage.hueIdx }) :=
  (OpAnswers.genWheel hlegal).exec_eq

theorem exec_genBright : exec .genBright s = .next (s.setStage { s.stage with bright := bright s.stage.phi }) :=
  (OpAnswers.genBright hlegal).exec_eq

include hpix

theorem exec_genHue :
    exec .genHue s = .next (s.setStage { s.stage with hueIdx := hueIndex s.hueBase s.stage.pix }) := by
  obtain ⟨hhue, -, -⟩ := s.stage_of_pixel hpix
  rw [← hhue]
  exact (OpAnswers.genHue hlegal).exec_eq

theorem exec_genPhase :
    exec .genPhase s = .next (s.setStage { s.stage with phi := pixelPhase s.phase s.stage.pix }) := by
  obtain ⟨-, hphase, -⟩ := s.stage_of_pixel hpix
  rw [← hphase]
  exact (OpAnswers.genPhase hlegal).exec_eq

theorem exec_genScale :
    exec .genScale s = .next
      ((s.setFb (Memory.writePixel s.fb s.stage.pix (scaleColor s.stage.raw s.stage.bright))).setStage
        { s.stage with pix := nextPixel s.stage.pix s.pixels }) := by
  obtain ⟨-, -, hfb⟩ := s.stage_of_pixel hpix
  rw [← hfb]
  exact (OpAnswers.genScale hlegal).exec_eq

end

/-- Settles O28: one equation for each stage. -/
theorem stagesComputeTheirResults : Obligations.StagesComputeTheirResults := by
  intro s hlegal hpix
  have ⟨hpixels, hhue, _, _⟩ := hlegal
  exact ⟨⟨_, hueIndex_toNat hhue (hpix.trans_le hpixels), exec_genHue hlegal hpix⟩, exec_genWheel hlegal,
    exec_genPhase hlegal hpix, exec_genBright hlegal⟩

/-- R61: byte `j` of pixel `i` after it is written. -/
theorem Memory.read_writePixel_same (m : Memory) (i : ℕ) (c : Color) {j : ℕ} (hj : j < 3) :
    Memory.read (Memory.writePixel m i c) (3 * i + j) = some (colorByte c j) := by
  rw [Memory.read_writePixel, if_pos (by omega), Nat.mul_add_mod, Nat.mod_eq_of_lt hj]

theorem Memory.read_writePixel_other (m : Memory) (i : ℕ) (c : Color) {a : ℕ} (ha : a < 3 * i ∨ 3 * i + 3 ≤ a) :
    Memory.read (Memory.writePixel m i c) a = Memory.read m a := by
  rw [Memory.read_writePixel, if_neg (by omega)]

/-- Settles O29: GEN.SCALE writes one pixel. -/
theorem scaleStageStoresOnePixel : Obligations.ScaleStageStoresOnePixel := by
  intro s hlegal hpix
  refine ⟨_, _, exec_genScale hlegal hpix, fun j hj => ⟨_, Memory.read_writePixel_same _ _ _ hj, ?_⟩,
    fun a => Memory.read_writePixel_other _ _ _⟩
  rw [colorByte_scaleColor, scaleByte_toNat]

/-! ## The frame (R112, R113) -/

theorem exec_gen {s : State} (hlegal : s.Legal) :
    exec .gen s = .next ((s.setFb (Memory.writeFrame s.fb s.hueBase s.phase s.pixels)).goto seqAdv) :=
  (OpAnswers.gen hlegal).exec_eq

/-- R112: byte `j` of pixel `i` in a frame. -/
theorem Memory.read_writeFrame_pixel (m : Memory) (base : BitVec 11) (phase : F64) {n i j : ℕ} (hi : i < n)
    (hj : j < 3) :
    Memory.read (Memory.writeFrame m base phase n) (3 * i + j) =
      some (scaleByte (colorByte (wheel (hueIndex base i)) j) (bright (pixelPhase phase i))) := by
  have hpixel : (3 * i + j) / 3 = i := by omega
  rw [Memory.read_writeFrame, hpixel, if_pos hi, Nat.mul_add_mod, Nat.mod_eq_of_lt hj, pixelColor,
    colorByte_scaleColor]

theorem Memory.read_writeFrame_beyond (m : Memory) (base : BitVec 11) (phase : F64) {n a : ℕ} (ha : 3 * n ≤ a) :
    Memory.read (Memory.writeFrame m base phase n) a = Memory.read m a := by
  rw [Memory.read_writeFrame, if_neg (by omega)]

/-- Settles O31: what a read gives after a frame is written. -/
theorem genBuildsTheFrame : Obligations.GenBuildsTheFrame := by
  intro s hlegal
  have ⟨hpixels, hhue, _, _⟩ := hlegal
  refine ⟨_, exec_gen hlegal, fun i hi j hj => ?_, fun a => Memory.read_writeFrame_beyond _ _ _, fun hzero => ?_⟩
  · exact ⟨_, hueIndex_toNat hhue (hi.trans_le hpixels), _, Memory.read_writeFrame_pixel _ _ _ hi hj,
      scaleByte_toNat _ _⟩
  · rw [hzero]
    rfl

/-- R100: below `3n` a frame's bytes do not depend on the memory it is written to. -/
theorem Memory.read_writeFrame_congr (m m' : Memory) (base : BitVec 11) (phase : F64) {n a : ℕ} (ha : a < 3 * n) :
    Memory.read (Memory.writeFrame m base phase n) a = Memory.read (Memory.writeFrame m' base phase n) a := by
  have hpixel : a / 3 < n := by omega
  rw [Memory.read_writeFrame, Memory.read_writeFrame, if_pos hpixel, if_pos hpixel]

/-- Settles O32: both frames are written from the three registers alone. -/
theorem genDependsOnAnimationAndCountOnly : Obligations.GenDependsOnAnimationAndCountOnly := by
  intro s s' t t' hlegal hlegal' hcount hhue hphase hexec hexec'
  obtain rfl := Host.Outcome.next.inj ((exec_gen hlegal).symm.trans hexec)
  obtain rfl := Host.Outcome.next.inj ((exec_gen hlegal').symm.trans hexec')
  refine ⟨fun a ha => ?_, rfl, rfl⟩
  have hpixels : s'.pixels = s.pixels := congrArg BitVec.toNat hcount.symm
  simp only [State.goto_fb, State.setFb_fb]
  rw [hpixels, ← hhue, ← hphase]
  exact Memory.read_writeFrame_congr _ _ _ _ ha

/-! ## The stages of every pixel (R101, R112) -/

theorem runOps_cons {i : Instr} {is : List Instr} {s t : State} (h : exec i s = .next t) :
    runOps (i :: is) s = runOps is t := by
  rw [runOps, h]

theorem runOps_append {is : List Instr} (js : List Instr) {s t : State} (h : runOps is s = .next t) :
    runOps (is ++ js) s = runOps js t := by
  induction is generalizing s with
  | nil =>
    obtain rfl := Host.Outcome.next.inj h
    rfl
  | cons i is ih =>
    cases hexec : exec i s with
    | next u =>
      rw [runOps_cons hexec] at h
      rw [List.cons_append, runOps_cons hexec, ih h]
    | fault f => cases f
    | refused r =>
      rw [runOps, hexec] at h
      cases h

theorem frameStages_succ (n : ℕ) : frameStages (n + 1) = frameStages n ++ pixelStages := by
  rw [frameStages, List.replicate_succ', List.flatten_append, List.flatten_singleton, frameStages]

/-- R101: the state after the five stages of the stage's pixel. -/
def State.pixelDone (s : State) : State :=
  (s.setFb (Memory.writePixel s.fb s.stage.pix (pixelColor s.hueBase s.phase s.stage.pix))).setStage
    { s.stage with
      pix := nextPixel s.stage.pix s.pixels
      hueIdx := hueIndex s.hueBase s.stage.pix
      raw := wheel (hueIndex s.hueBase s.stage.pix)
      phi := pixelPhase s.phase s.stage.pix
      bright := bright (pixelPhase s.phase s.stage.pix) }

/-- No stage writes a register that legality or the later stages read, so each finds the state `s` was. -/
theorem runOps_pixelStages {s : State} (hlegal : s.Legal) (hpix : s.stage.pix < s.pixels) :
    runOps pixelStages s = .next s.pixelDone := by
  rw [pixelStages, runOps_cons (exec_genHue hlegal hpix), runOps_cons (exec_genWheel (by exact hlegal)),
    runOps_cons (exec_genPhase (by exact hlegal) (by exact hpix)), runOps_cons (exec_genBright (by exact hlegal)),
    runOps_cons (exec_genScale (by exact hlegal) (by exact hpix))]
  rfl

/-- R112: from `s`, `t` has the frame buffer of the first `k` pixels and the operands of the next. -/
structure PixelsDone (s : State) (k : ℕ) (t : State) : Prop where
  registers : t.cfgN = s.cfgN ∧ t.hueBase = s.hueBase ∧ t.phase = s.phase ∧ t.off = s.off
  fb : t.fb = Memory.writeFrame s.fb s.hueBase s.phase k
  pix : t.stage.pix = if k < s.pixels then k else 0

theorem PixelsDone.legal {s t : State} {k : ℕ} (h : PixelsDone s k t) (hlegal : s.Legal) : t.Legal := by
  obtain ⟨hcount, hhue, hphase, hoff⟩ := h.registers
  simpa only [State.Legal, State.frameLen, State.pixels, hcount, hhue, hphase, hoff] using hlegal

theorem PixelsDone.succ {s t : State} {k : ℕ} (h : PixelsDone s k t) (hk : k < s.pixels) :
    PixelsDone s (k + 1) t.pixelDone := by
  obtain ⟨hcount, hhue, hphase, -⟩ := h.registers
  have hpix : t.stage.pix = k := h.pix.trans (if_pos hk)
  have hpixels : t.pixels = s.pixels := congrArg BitVec.toNat hcount
  refine ⟨h.registers, ?_, ?_⟩
  · simp only [State.pixelDone, State.setStage_fb, State.setFb_fb]
    rw [hpix, hhue, hphase, h.fb, Memory.writeFrame]
  · simp only [State.pixelDone, State.setStage_stage]
    rw [hpix, hpixels, nextPixel]

theorem exists_runOps_frameStages {s : State} (hlegal : s.Legal) (hstart : s.stage.pix = 0) (k : ℕ)
    (hk : k ≤ s.pixels) : ∃ t, runOps (frameStages k) s = .next t ∧ PixelsDone s k t := by
  induction k with
  | zero => exact ⟨s, rfl, ⟨rfl, rfl, rfl, rfl⟩, rfl, by rw [hstart, ite_self]⟩
  | succ k ih =>
    obtain ⟨t, hrun, hdone⟩ := ih (Nat.le_of_succ_le hk)
    have hpix : t.stage.pix < t.pixels := by
      obtain ⟨hcount, -⟩ := hdone.registers
      rw [hdone.pix, if_pos (Nat.lt_of_succ_le hk), State.pixels, hcount]
      exact hk
    refine ⟨t.pixelDone, ?_, hdone.succ hk⟩
    rw [frameStages_succ, runOps_append _ hrun, runOps_pixelStages (hdone.legal hlegal) hpix]

/-- Settles O33: after all `N` pixels the frame buffer is the one GEN writes, and the index has begun again. -/
theorem stagesOfEveryPixelMakeTheFrame : Obligations.StagesOfEveryPixelMakeTheFrame := by
  intro s hlegal hstart
  obtain ⟨t, hrun, hdone⟩ := exists_runOps_frameStages hlegal hstart s.pixels le_rfl
  exact ⟨t, _, hrun, exec_gen hlegal, hdone.fb, hdone.pix.trans (if_neg (lt_irrefl _))⟩

/-! ## The advance of the animation (R115) -/

theorem nextHue_toNat (base : BitVec 11) : (nextHue base).toNat = (base.toNat + 5) % 1536 := by
  rw [nextHue, hueStepFrame, huePeriod, BitVec.toNat_ofNat]
  omega

/-- Settles O34: `OpAnswers` has the frame; the phase is finite on a legal state, so its difference is rounded. -/
theorem advAdvancesTheAnimation : Obligations.AdvAdvancesTheAnimation := by
  intro s hlegal
  have ⟨_, _, hfinite, _⟩ := hlegal
  exact ⟨_, _, (OpAnswers.adv hlegal).exec_eq, nextHue_toNat s.hueBase, nextPhase_isRounded hfinite⟩

end Sys2Proof.Machine
end

section
/-! PROOF. The transmitter (spec/42_transmitter.md): what every step answers, the header, DRAIN and SEND, the statistics
and their reports, and the wire stream of a run. -/

namespace Sys2Proof.Machine

/-! ## What every step answers (R8, R185) -/

/-- The next states of the machine, one case for each way through the step of an agent (`stepAnswers_of_step`). -/
inductive StepAnswers (s : State) : State → Prop
  | held (hturn : s.turn = .sequencer) (hhalted : s.halted = true) : StepAnswers s s.beginStep
  | op {i : Instr} {t : State} (hturn : s.turn = .sequencer) (hhalted : s.halted = false)
      (hword : decodeWord s.fetchWord = .ok i) (hop : OpAnswers s.beginStep i t) : StepAnswers s t
  | reserved {e : DecodeError} (hturn : s.turn = .sequencer) (hhalted : s.halted = false)
      (hword : decodeWord s.fetchWord = .error e) : StepAnswers s (s.beginStep.refuse .reservedCode)
  | channelTx (hturn : s.turn = .channelTx) : StepAnswers s s.beginStep.transmit
  | host {c : HostStep} (hturn : s.turn = .host c) : StepAnswers s (s.beginStep.hostStep c)

theorem stepAnswers_of_step {s t : State} (hstep : step s = .next t) : StepAnswers s t := by
  rcases step_cases s with ⟨hturn, h⟩ | ⟨hturn, h⟩ | ⟨c, hturn, h⟩
  · rcases sequencerStep_cases s.beginStep with ⟨hhalted, h2⟩ | ⟨i, hhalted, hword, h2⟩ | ⟨e, hhalted, hword, h2⟩
    · obtain rfl := Host.Outcome.next.inj ((h.trans h2).symm.trans hstep)
      exact .held hturn hhalted
    · exact .op hturn hhalted hword ((exec_eq_next_iff i _ t).1 ((h.trans h2).symm.trans hstep))
    · obtain rfl := Host.Outcome.next.inj ((h.trans h2).symm.trans hstep)
      exact .reserved hturn hhalted hword
  · obtain rfl := Host.Outcome.next.inj (h.symm.trans hstep)
    exact .channelTx hturn
  · obtain rfl := Host.Outcome.next.inj (h.symm.trans hstep)
    exact .host hturn

/-! ## The header (R140, R141) -/

/-- R87: the count field for every pixel count, 0 among them. -/
theorem countField_toNat_int (n : BitVec 17) : ((countField n).toNat : ℤ) = ((n.toNat : ℤ) - 1) % 65536 := by
  rw [countField, BitVec.toNat_ofNat]
  omega

/-- Settles O13: INIT leaves `buildHeader` of the ports, whose bytes 3 and 4 are those of the count field. -/
theorem initBuildsTheHeader : Obligations.InitBuildsTheHeader := by
  intro s hcount
  refine ⟨_, (OpAnswers.init hcount).exec_eq, rfl, rfl, rfl, ?_, rfl⟩
  rw [← countField_toNat_int]
  exact_mod_cast toNat_highByte_lowByte (countField s.ports.cfgN)

theorem OpAnswers.hdr_eq {i : Instr} {s t : State} (h : OpAnswers s i t) (hi : i ≠ .init) : t.hdr = s.hdr := by
  obtain ⟨-, -, hhdr, -, -⟩ := h.configuration_eq hi
  exact hhdr

/-- Settles O17: the channel and the host leave the header, and of the operations only INIT writes it. -/
theorem onlyInitWritesTheHeader : Obligations.OnlyInitWritesTheHeader := by
  refine ⟨fun i s t hi hexec => ((exec_eq_next_iff i s t).1 hexec).hdr_eq hi, fun s t hstep hne => ?_⟩
  cases stepAnswers_of_step hstep with
  | op hturn _ hword hop =>
    obtain rfl : _ = Instr.init := by_contra fun hi => hne (hop.hdr_eq hi)
    exact ⟨hturn, hword⟩
  | held | reserved => exact absurd rfl hne
  | channelTx => exact absurd s.beginStep.transmit_hdr hne
  | host => exact absurd (s.beginStep.hostStep_hdr _) hne

/-! ## DRAIN and SEND (R147, R149) -/

/-- Settles O39: `tx_idle` is 1 exactly when no byte is pending. -/
theorem drainWaitsForTheChannel : Obligations.DrainWaitsForTheChannel :=
  fun _ hlegal =>
    ⟨fun hempty => (OpAnswers.drained hlegal (List.isEmpty_iff.2 hempty)).exec_eq,
      fun hpending => (OpAnswers.draining hlegal (List.isEmpty_eq_false_iff.2 hpending)).exec_eq⟩

/-- Settles O40: the count is `State.acceptCount`, and an attempt leaves `State.sent`. -/
theorem sendHandsOverTheNextBytes : Obligations.SendHandsOverTheNextBytes :=
  fun s hlegal hopen =>
    ⟨s.acceptCount, s.sent.off, s.acceptCount_le, State.off_toNat_sent hlegal, exec_send hlegal hopen.ne⟩

theorem State.acceptCount_of_accepts {s : State} {k : ℕ} {rest : List ℕ} (h : s.env.accepts = k :: rest) :
    s.acceptCount = min k s.remaining := by
  rw [State.acceptCount, State.channelCount, h]

/-- Settles O41: the count of the attempt is the first of the list, cut to what remains. -/
theorem sendTakesTheCountFixedAhead : Obligations.SendTakesTheCountFixedAhead := by
  intro s k rest hlegal hopen haccepts
  have hoff := State.off_toNat_sent hlegal
  refine ⟨s.sent, exec_send hlegal hopen.ne, congrArg List.tail haccepts, ?_, ?_⟩
  · rw [hoff, State.acceptCount_of_accepts haccepts]
    rfl
  · rw [hoff, Nat.add_sub_cancel_left, State.pending_sent]

/-! ## The statistics (R154 to R156) -/

theorem State.nextFrames_toNat (s : State) : s.nextFrames.toNat = (s.statFrames.toNat + 1) % 2 ^ 64 :=
  BitVec.toNat_add s.statFrames 1

theorem State.nextBytes_toNat (s : State) :
    s.nextBytes.toNat = (s.statBytes.toNat + (6 + 3 * s.cfgN.toNat)) % 2 ^ 64 := by
  rw [State.nextBytes, BitVec.toNat_add, BitVec.toNat_ofNat, Nat.add_mod_mod, State.frameLen, State.pixels, hdrLen]

/-- R155: a rate is a quotient of naturals where time has passed since the start. -/
theorem reportRate_toNat (count : BitVec 64) {t tStart : BitVec 64} (h : tStart < t) :
    (reportRate count t tStart).toNat = count.toNat / (t.toNat - tStart.toNat) := by
  rw [reportRate, if_pos h, BitVec.toNat_udiv, BitVec.toNat_sub_of_le (BitVec.le_of_lt h)]

theorem State.report_of_due {s : State} (h : s.tLast < s.ports.nowSec) (f b : BitVec 64) :
    s.report f b =
      { s with rptFps := reportRate f s.ports.nowSec s.tStart, rptBps := reportRate b s.ports.nowSec s.tStart,
               tLast := s.ports.nowSec, rptValid := true,
               reports := s.reports ++
                 [{ fps := reportRate f s.ports.nowSec s.tStart, bps := reportRate b s.ports.nowSec s.tStart }] } := by
  rcases s.report_cases f b with ⟨-, heq⟩ | ⟨hnot, -⟩
  · exact heq
  · exact absurd h hnot

theorem State.report_of_not_due {s : State} (h : ¬ s.tLast < s.ports.nowSec) (f b : BitVec 64) :
    s.report f b = { s with rptValid := false } := by
  rcases s.report_cases f b with ⟨hdue, -⟩ | ⟨-, heq⟩
  · exact absurd hdue h
  · exact heq

/-- R155: the report reads neither the counters nor the stage fields: it is given the counters it reports on. -/
theorem State.report_setCounters (s : State) (m n f b : BitVec 64) :
    (s.setCounters m n).report f b = (s.report f b).setCounters m n := by
  by_cases hdue : s.tLast < s.ports.nowSec <;> simp [State.report, State.reportDue, State.setCounters, hdue]

theorem State.report_setStage (s : State) (st : Stage) (f b : BitVec 64) :
    (s.setStage st).report f b = (s.report f b).setStage st := by
  by_cases hdue : s.tLast < s.ports.nowSec <;> simp [State.report, State.reportDue, State.setStage, hdue]

/-- Settles O43: STATS reports on the counters it has just written. -/
theorem statsCountsAndReports : Obligations.StatsCountsAndReports := by
  intro s hlegal htimes
  have hexec := (OpAnswers.stats hlegal).exec_eq
  refine ⟨_, _, s.nextFrames_toNat, s.nextBytes_toNat, fun hnow => ?_, fun hdue => ?_⟩
  · rw [hexec, State.report_setCounters, State.report_of_not_due (BitVec.not_lt.2 hnow)]
    rfl
  · have hstart : s.tStart < s.ports.nowSec := Nat.lt_of_le_of_lt htimes hdue
    refine ⟨_, _, reportRate_toNat _ hstart, reportRate_toNat _ hstart, ?_⟩
    rw [hexec, State.report_setCounters, State.report_of_due hdue]
    rfl

/-- Settles O44: STATS.RPT reports on the counters of the stage fields. -/
theorem statsStagesComputeAndReport : Obligations.StatsStagesComputeAndReport := by
  intro s hlegal
  have hexec := (OpAnswers.statsRpt hlegal).exec_eq
  refine ⟨⟨_, _, s.nextFrames_toNat, s.nextBytes_toNat, (OpAnswers.statsAcc hlegal).exec_eq⟩, fun hnow => ?_,
    fun hdue htimes => ?_⟩
  · rw [hexec, State.report_of_not_due (BitVec.not_lt.2 hnow)]
    rfl
  · have hstart : s.tStart < s.ports.nowSec := Nat.lt_of_le_of_lt htimes hdue
    refine ⟨_, _, reportRate_toNat _ hstart, reportRate_toNat _ hstart, ?_⟩
    rw [hexec, State.report_of_due hdue]
    rfl

/-- Settles O45: the report of the second stage and that of STATS are due together and on the same counters. -/
theorem statsIsItsTwoStages : Obligations.StatsIsItsTwoStages := by
  intro s hlegal
  have hacc := (OpAnswers.statsAcc hlegal).exec_eq
  refine ⟨_, _, (runOps_cons hacc).trans (runOps_cons (OpAnswers.statsRpt (by exact hlegal)).exec_eq),
    (OpAnswers.stats hlegal).exec_eq, ?_⟩
  rw [State.report_setCounters, State.report_setStage, ← State.report_stage s s.nextFrames s.nextBytes]
  rfl

/-! ## The report events (R39, R158) -/

/-- R39, R158: from `s` to `t` an event is recorded exactly where `t` shows a report. -/
def RecordsReport (s t : State) : Prop :=
  t.reports = if t.rptValid then s.reports ++ [{ fps := t.rptFps, bps := t.rptBps }] else s.reports

/-- No report, and no event. -/
theorem RecordsReport.of_quiet {s t : State} (hvalid : t.rptValid = false) (hreports : t.reports = s.reports) :
    RecordsReport s t := by
  rw [RecordsReport, hvalid, hreports]
  rfl

theorem State.recordsReport_report (s : State) (f b : BitVec 64) : RecordsReport s (s.report f b) := by
  rcases s.report_cases f b with ⟨-, heq⟩ | ⟨-, heq⟩
  · rw [heq]
    rfl
  · rw [heq]
    exact .of_quiet rfl rfl

theorem OpAnswers.recordsReport {i : Instr} {s t : State} (h : OpAnswers s i t) (hquiet : s.rptValid = false) :
    RecordsReport s t := by
  cases h with
  | stats => exact State.recordsReport_report (s.setCounters _ _) _ _
  | statsRpt => exact State.recordsReport_report s _ _
  | init => exact .of_quiet rfl rfl
  | _ => exact .of_quiet hquiet rfl

/-- Settles O46: a step begins with `rpt_valid` at 0, and only `State.report` puts it to 1. -/
theorem reportsAreRecordedWhenValid : Obligations.ReportsAreRecordedWhenValid := by
  intro s t hstep
  change RecordsReport s t
  cases stepAnswers_of_step hstep with
  | op _ _ _ hop => exact hop.recordsReport rfl
  | held | reserved => exact .of_quiet rfl rfl
  | channelTx => exact .of_quiet (State.transmit_rptValid _) (State.transmit_reports _)
  | host => exact .of_quiet (State.hostStep_rptValid _ _) (State.hostStep_reports _ _)

/-! ## The wire frame (R112, R144) -/

/-- R61, R112: the payload byte by byte. -/
theorem framePayload_eq_map (base : BitVec 11) (phase : F64) (n : ℕ) :
    framePayload base phase n =
      (List.range (3 * n)).map fun a => colorByte (pixelColor base phase (a / 3)) (a % 3) := by
  induction n with
  | zero => rfl
  | succ n ih =>
    obtain ⟨hr, hg, hb⟩ : 3 * n / 3 = n ∧ (3 * n + 1) / 3 = n ∧ (3 * n + 2) / 3 = n := by omega
    rw [framePayload] at ih ⊢
    rw [List.range_succ, List.flatMap_append, ih, Nat.mul_succ, List.range_add, List.map_append]
    simp [List.range_succ, hr, hg, hb, colorByte]

/-- R62: the wire frame is the header, then the frame buffer's first 3N bytes. -/
theorem State.wireFrame_eq (s : State) :
    s.wireFrame = [s.hdr.b0, s.hdr.b1, s.hdr.b2, s.hdr.b3, s.hdr.b4, s.hdr.b5] ++
      (List.range (3 * s.pixels)).map s.fbByte := by
  rw [State.wireFrame, State.frameLen, State.wireBytes_add]
  refine congrArg₂ (· ++ ·) rfl (List.map_congr_left fun a _ => ?_)
  rw [State.wireByte_of_le s (by omega), Nat.zero_add, Nat.add_sub_cancel_left]

/-- R112, R144: the wire frame of the frame that GEN writes. -/
theorem State.wireFrame_setFb_writeFrame (s : State) :
    (s.setFb (Memory.writeFrame s.fb s.hueBase s.phase s.pixels)).wireFrame =
      [s.hdr.b0, s.hdr.b1, s.hdr.b2, s.hdr.b3, s.hdr.b4, s.hdr.b5] ++
        framePayload s.hueBase s.phase s.pixels := by
  rw [State.wireFrame_eq, framePayload_eq_map]
  refine congrArg₂ (· ++ ·) rfl (List.map_congr_left fun a ha => ?_)
  have hpix : a / 3 < s.pixels := Nat.div_lt_of_lt_mul (List.mem_range.1 ha)
  rw [State.fbByte, State.setFb_fb, Memory.read_writeFrame, if_pos hpix, Option.getD_some]

/-- R144: the first `j` wire frames that come after `s` begins to generate one. -/
def State.framesAfter (s : State) (j : ℕ) : List Byte := (List.range j).flatMap s.frameAfter

theorem State.framesAfter_succ (s : State) (j : ℕ) : s.framesAfter (j + 1) = s.framesAfter j ++ s.frameAfter j := by
  rw [State.framesAfter, List.range_succ, List.flatMap_append, List.flatMap_singleton, State.framesAfter]

theorem State.framesAfter_prefix (s : State) {j n : ℕ} (h : j ≤ n) : s.framesAfter j <+: s.framesAfter n := by
  obtain ⟨d, rfl⟩ := Nat.exists_eq_add_of_le h
  rw [State.framesAfter, State.framesAfter, List.range_add, List.flatMap_append]
  exact List.prefix_append _ _

/-! ## The point of a run in its frame (R144, R182) -/

/-- From `s` to `t` nothing has changed that the loop and its frames depend on, and no byte has been handed over. -/
structure SamePoint (s t : State) : Prop where
  seq : t.seq = s.seq
  stg : t.stg = s.stg
  off : t.off = s.off
  hueBase : t.hueBase = s.hueBase
  phase : t.phase = s.phase
  cfgN : t.cfgN = s.cfgN
  hdr : t.hdr = s.hdr
  fb : t.fb = s.fb
  rst : t.ports.rst = s.ports.rst
  handed : t.handed = s.handed

/-- R205: a refusal sets the mark and nothing else. -/
theorem SamePoint.refuse (s : State) (r : RefuseReason) : SamePoint s (s.refuse r) :=
  ⟨rfl, rfl, rfl, rfl, rfl, rfl, rfl, rfl, rfl, rfl⟩

theorem SamePoint.beginStep_choose (s : State) (t : Turn) (k : ℕ) : SamePoint s (s.choose t k).beginStep :=
  ⟨rfl, rfl, rfl, rfl, rfl, rfl, rfl, rfl, rfl, rfl⟩

theorem SamePoint.transmit (s : State) : SamePoint s s.transmit := by
  constructor <;> simp [State.handed_transmit]

/-- R185: without a reset the host drives input ports that no operation of the loop but STATS reads. -/
theorem SamePoint.hostStep {s : State} (hrst : s.ports.rst = .idle) {c : HostStep} (hc : c ≠ .assertReset) :
    SamePoint s (s.hostStep c) := by
  cases c with
  | assertReset => exact absurd rfl hc
  | releaseReset =>
    refine ⟨rfl, rfl, rfl, rfl, rfl, rfl, rfl, rfl, ?_, rfl⟩
    simp [State.hostStep, hrst]
  | setConfig | setTime => exact ⟨rfl, rfl, rfl, rfl, rfl, rfl, rfl, rfl, rfl, rfl⟩

/-- The state `s` of a run that began to generate frames in `s₀`: no reset has come since. -/
structure Running (s₀ s : State) : Prop where
  rst : s.ports.rst = .idle
  wholeOp : s.stg = 0
  cfgN : s.cfgN = s₀.cfgN
  hdr : s.hdr = s₀.hdr

/-- R115: the animation registers after `j` advances. -/
def AnimationAt (s₀ : State) (j : ℕ) (s : State) : Prop :=
  s.hueBase = nextHue^[j] s₀.hueBase ∧ s.phase = nextPhase^[j] s₀.phase

theorem AnimationAt.advance {s₀ s : State} {j : ℕ} (h : AnimationAt s₀ j s) :
    AnimationAt s₀ (j + 1) (s.setAnimation (nextHue s.hueBase) (nextPhase s.phase)) := by
  obtain ⟨hhue, hphase⟩ := h
  rw [AnimationAt, Function.iterate_succ_apply', Function.iterate_succ_apply', ← hhue, ← hphase]
  exact ⟨rfl, rfl⟩

/-- The state `s` of a run from `s₀` is in frame `j`: by the operation that comes next, which frame the animation
registers and the frame buffer hold, and which bytes have been handed over since `s₀`. -/
inductive InFrame (s₀ : State) (j : ℕ) (s : State) : Prop
  | gen (hseq : s.seq = seqGen) (hanim : AnimationAt s₀ j s) (hhanded : s.handed = s₀.handed ++ s₀.framesAfter j)
  | adv (hseq : s.seq = seqAdv) (hanim : AnimationAt s₀ j s) (hframe : s.wireFrame = s₀.frameAfter j)
      (hhanded : s.handed = s₀.handed ++ s₀.framesAfter j)
  | drain (hseq : s.seq = seqDrain) (hanim : AnimationAt s₀ (j + 1) s) (hframe : s.wireFrame = s₀.frameAfter j)
      (hhanded : s.handed = s₀.handed ++ s₀.framesAfter j)
  | send (hseq : s.seq = seqSend) (hanim : AnimationAt s₀ (j + 1) s) (hframe : s.wireFrame = s₀.frameAfter j)
      (hoff : s.off.toNat ≤ s.frameLen)
      (hhanded : s.handed = s₀.handed ++ s₀.framesAfter j ++ s.wireBytes 0 s.off.toNat)
  | stats (hseq : s.seq = seqStats) (hanim : AnimationAt s₀ (j + 1) s)
      (hhanded : s.handed = s₀.handed ++ s₀.framesAfter (j + 1))

section
variable {s₀ s t : State} {j : ℕ}

theorem SamePoint.running (h : SamePoint s t) (hrun : Running s₀ s) : Running s₀ t :=
  ⟨h.rst.trans hrun.rst, h.stg.trans hrun.wholeOp, h.cfgN.trans hrun.cfgN, h.hdr.trans hrun.hdr⟩

theorem SamePoint.inFrame (h : SamePoint s t) (hin : InFrame s₀ j s) : InFrame s₀ j t := by
  have hlen : t.frameLen = s.frameLen := by rw [State.frameLen, State.pixels, h.cfgN]; rfl
  have hbytes : ∀ o k, t.wireBytes o k = s.wireBytes o k := fun o k => s.wireBytes_congr t o k h.hdr h.fb
  have hwire : t.wireFrame = s.wireFrame := by rw [State.wireFrame, hlen, hbytes, State.wireFrame]
  have hanim : ∀ j, AnimationAt s₀ j s → AnimationAt s₀ j t := fun j ha => by
    rwa [AnimationAt, h.hueBase, h.phase]
  cases hin with
  | gen hseq ha hh => exact .gen (h.seq.trans hseq) (hanim _ ha) (h.handed.trans hh)
  | adv hseq ha hf hh => exact .adv (h.seq.trans hseq) (hanim _ ha) (hwire.trans hf) (h.handed.trans hh)
  | drain hseq ha hf hh => exact .drain (h.seq.trans hseq) (hanim _ ha) (hwire.trans hf) (h.handed.trans hh)
  | send hseq ha hf hoff hh =>
    refine .send (h.seq.trans hseq) (hanim _ ha) (hwire.trans hf) (by rwa [h.off, hlen]) ?_
    rw [h.handed, hh, h.off, hbytes]
  | stats hseq ha hh => exact .stats (h.seq.trans hseq) (hanim _ ha) (h.handed.trans hh)

/-- R149: the bytes of the frame handed over after an attempt of SEND are those of the larger offset. -/
theorem State.handed_sent {pre : List Byte} (h : s.handed = pre ++ s.wireBytes 0 s.off.toNat) :
    s.sent.handed = pre ++ s.wireBytes 0 (s.off.toNat + s.acceptCount) := by
  have hemit : s.sent.handed = s.handed ++ s.wireBytes s.off.toNat s.acceptCount := State.handed_emit _ _
  rw [hemit, h, State.wireBytes_add, Nat.zero_add, List.append_assoc]

/-- R149: a write attempt stays in SEND, or completes the frame. -/
theorem InFrame.after_sent (hlegal : s.Legal) (hanim : AnimationAt s₀ (j + 1) s)
    (hframe : s.wireFrame = s₀.frameAfter j)
    (hhanded : s.handed = s₀.handed ++ s₀.framesAfter j ++ s.wireBytes 0 s.off.toNat) : InFrame s₀ j s.sent := by
  have ⟨_, _, _, hle⟩ := hlegal
  have hoff := State.off_toNat_sent hlegal
  have hsent := State.handed_sent hhanded
  by_cases hfull : s.off.toNat + s.acceptCount = s.frameLen
  · refine .stats (if_pos hfull) hanim ?_
    rw [hsent, hfull, State.framesAfter_succ, ← hframe, State.wireFrame, List.append_assoc]
  · refine .send (if_neg hfull) hanim hframe (hoff ▸ s.off_add_acceptCount_le hle) ?_
    rw [hsent, hoff]
    rfl

/-- R182: the operation of the loop that comes next leaves the run in its frame, or at the next one. -/
theorem InFrame.after_exec {i : Instr} (hin : InFrame s₀ j s) (hrun : Running s₀ s)
    (hword : decodeWord (opword s.seq 0) = .ok i) (hop : OpAnswers s i t) :
    InFrame s₀ j t ∨ InFrame s₀ (j + 1) t := by
  cases hin with
  | gen hseq hanim hhanded =>
    rw [hseq] at hword
    obtain rfl : Instr.gen = i := Except.ok.inj hword
    refine .inl ?_
    cases hop with
    | refused => exact (SamePoint.refuse s _).inFrame (.gen hseq hanim hhanded)
    | gen =>
      refine .adv rfl hanim ((State.wireFrame_setFb_writeFrame s).trans ?_) hhanded
      obtain ⟨hhue, hphase⟩ := hanim
      rw [hhue, hphase, hrun.hdr, State.pixels, hrun.cfgN]
      rfl
  | adv hseq hanim hframe hhanded =>
    rw [hseq] at hword
    obtain rfl : Instr.adv = i := Except.ok.inj hword
    refine .inl ?_
    cases hop with
    | refused => exact (SamePoint.refuse s _).inFrame (.adv hseq hanim hframe hhanded)
    | adv => exact .drain rfl hanim.advance hframe hhanded
  | drain hseq hanim hframe hhanded =>
    rw [hseq] at hword
    obtain rfl : Instr.drain = i := Except.ok.inj hword
    refine .inl ?_
    cases hop with
    | refused => exact (SamePoint.refuse s _).inFrame (.drain hseq hanim hframe hhanded)
    | draining => exact .drain hseq hanim hframe hhanded
    | drained => exact .send rfl hanim hframe (Nat.zero_le _) (hhanded.trans (List.append_nil _).symm)
  | send hseq hanim hframe hoff hhanded =>
    rw [hseq] at hword
    obtain rfl : Instr.send = i := Except.ok.inj hword
    refine .inl ?_
    cases hop with
    | refused | sendRefused => exact (SamePoint.refuse s _).inFrame (.send hseq hanim hframe hoff hhanded)
    | send hlegal => exact .after_sent hlegal hanim hframe hhanded
  | stats hseq hanim hhanded =>
    rw [hseq] at hword
    obtain rfl : Instr.stats = i := Except.ok.inj hword
    cases hop with
    | refused => exact .inl ((SamePoint.refuse s _).inFrame (.stats hseq hanim hhanded))
    | stats =>
      refine .inr (.gen rfl ?_ ?_)
      · rwa [AnimationAt, State.goto_hueBase, State.goto_phase, State.report_hueBase, State.report_phase]
      · exact (State.handed_of_chan_eq (State.report_chan _ _ _)).trans hhanded

theorem InFrame.seq_ne_init (hin : InFrame s₀ j s) : s.seq ≠ seqInit := by
  cases hin with
  | gen hseq | adv hseq | drain hseq | send hseq | stats hseq => exact hseq ▸ by decide

theorem Running.fetchWord_eq (hrun : Running s₀ s) : s.fetchWord = opword s.seq 0 := by
  rw [State.fetchWord, if_pos hrun.rst, hrun.wholeOp, opword]

/-- R141: a whole operation other than INIT keeps the configuration and is followed by a whole operation. -/
theorem Running.after_exec {i : Instr} (hrun : Running s₀ s) (hi : i ≠ .init) (hwhole : i.stgField = 0)
    (hop : OpAnswers s i t) : Running s₀ t := by
  obtain ⟨hcount, -, hhdr, -, hports⟩ := hop.configuration_eq hi
  obtain ⟨u, hu, hstg⟩ := exec_whole i s hwhole hrun.wholeOp
  obtain rfl := Host.Outcome.next.inj (hu.symm.trans hop.exec_eq)
  exact ⟨hports ▸ hrun.rst, hstg, hcount.trans hrun.cfgN, hhdr.trans hrun.hdr⟩

/-- A run from `s₀` has come to `s`, in frame `n` or one before it. -/
def RunReaches (s₀ : State) (n : ℕ) (s : State) : Prop := Running s₀ s ∧ ∃ j ≤ n, InFrame s₀ j s

theorem RunReaches.of_samePoint {n : ℕ} (h : RunReaches s₀ n s) (hsame : SamePoint s t) : RunReaches s₀ n t := by
  obtain ⟨hrun, j, hj, hin⟩ := h
  exact ⟨hsame.running hrun, j, hj, hsame.inFrame hin⟩

theorem RunReaches.succ {n : ℕ} (h : RunReaches s₀ n s) : RunReaches s₀ (n + 1) s := by
  obtain ⟨hrun, j, hj, hin⟩ := h
  exact ⟨hrun, j, Nat.le_succ_of_le hj, hin⟩

theorem RunReaches.after_op {n : ℕ} {i : Instr} (h : RunReaches s₀ n s) (hword : decodeWord s.fetchWord = .ok i)
    (hop : OpAnswers s i t) : RunReaches s₀ (n + 1) t := by
  obtain ⟨hrun, j, hj, hin⟩ := h
  rw [hrun.fetchWord_eq] at hword
  obtain ⟨hseq, hstg⟩ := fields_eq_of_decodeWord hword
  rw [opwSeq_opword] at hseq
  rw [opwStg_opword] at hstg
  have hi : i ≠ .init := fun hinit => hin.seq_ne_init (by rw [hseq, hinit]; rfl)
  refine ⟨hrun.after_exec hi hstg.symm hop, ?_⟩
  rcases hin.after_exec hrun hword hop with hsame | hnext
  · exact ⟨j, Nat.le_succ_of_le hj, hsame⟩
  · exact ⟨j + 1, Nat.succ_le_succ hj, hnext⟩

/-- R185: the step of any agent, while no reset is asserted. -/
theorem RunReaches.after_step {n k : ℕ} {c : Turn} (h : RunReaches s₀ n s) (hc : c ≠ .host .assertReset)
    (hstep : step (s.choose c k) = .next t) : RunReaches s₀ (n + 1) t := by
  have hbegin := h.of_samePoint (.beginStep_choose s c k)
  cases stepAnswers_of_step hstep with
  | held => exact hbegin.succ
  | op _ _ hword hop => exact hbegin.after_op hword hop
  | reserved => exact (hbegin.of_samePoint (.refuse _ _)).succ
  | channelTx => exact (hbegin.of_samePoint (.transmit _)).succ
  | host hturn =>
    obtain rfl : c = .host _ := hturn
    have ⟨hrun, _⟩ := hbegin
    exact (hbegin.of_samePoint (.hostStep hrun.rst fun hd => hc (congrArg _ hd))).succ

/-- R144: in frame `j` at most `j + 1` frames have been handed over. -/
theorem InFrame.handed_prefix (hin : InFrame s₀ j s) : s.handed <+: s₀.handed ++ s₀.framesAfter (j + 1) := by
  cases hin with
  | gen _ _ hhanded | adv _ _ _ hhanded | drain _ _ _ hhanded =>
    rw [hhanded, List.prefix_append_right_inj]
    exact s₀.framesAfter_prefix (Nat.le_succ j)
  | send _ _ hframe hoff hhanded =>
    obtain ⟨k, hk⟩ := Nat.exists_eq_add_of_le hoff
    rw [hhanded, State.framesAfter_succ, ← hframe, State.wireFrame, hk, State.wireBytes_add, ← List.append_assoc,
      ← List.append_assoc]
    exact List.prefix_append _ _
  | stats _ _ hhanded => rw [hhanded]

end

theorem runReaches_start {s : State} (hinv : s.Inv) (hseq : s.seq = seqGen) : RunReaches s 0 s := by
  have hrst : s.ports.rst = .idle := by_contra fun h => absurd (hseq.symm.trans (hinv.resetSeq h)) (by decide)
  exact ⟨⟨hrst, hinv.wholeOp, rfl, rfl⟩, 0, le_rfl, .gen hseq ⟨rfl, rfl⟩ (List.append_nil _).symm⟩

theorem IsRun.runReaches {r : ℕ → State} {t : ℕ → Turn} {k : ℕ → ℕ} (hrun : IsRun r t k) (hinv : (r 0).Inv)
    (hseq : (r 0).seq = seqGen) (hreset : ∀ n, t n ≠ .host .assertReset) (n : ℕ) : RunReaches (r 0) n (r n) := by
  induction n with
  | zero => exact runReaches_start hinv hseq
  | succ n ih => exact ih.after_step (hreset n) (hrun n)

/-- Settles O60, by induction on the steps: a run is always in some frame, no further than one a step. A refused block
hands over no byte, so the mark plays no part. -/
theorem wireIsAPrefixOfTheFrames : Obligations.WireIsAPrefixOfTheFrames := by
  intro r t k hrun hinv hseq _ hreset n
  obtain ⟨-, j, hj, hin⟩ := hrun.runReaches hinv hseq hreset n
  exact hin.handed_prefix.trans
    ((List.prefix_append_right_inj _).2 ((r 0).framesAfter_prefix (Nat.succ_le_succ hj)))

end Sys2Proof.Machine
end

section
/-! PROOF. The loop (spec/43_loop.md): the successor of every operation, that no operation faults, one whole frame, and
the frames of a fair run. -/

namespace Sys2Proof.Machine

/-! ## The successor of every operation (R181) -/

/-- R149: SEND is followed by STATS exactly when every byte has been accepted. -/
theorem State.seq_sent {s : State} (hlegal : s.Legal) :
    s.sent.seq = if s.sent.off.toNat = s.frameLen then seqStats else seqSend := by
  rw [State.off_toNat_sent hlegal]
  rfl

/-- Settles O48: each operation answers as `OpAnswers` says on a legal state. -/
theorem successorOfEveryOperation : Obligations.SuccessorOfEveryOperation := by
  intro s hlegal
  refine ⟨fun hrst hcount => ⟨_, (OpAnswers.init hcount).exec_eq, if_neg hrst⟩, ⟨_, exec_gen hlegal, rfl⟩,
    ⟨_, (OpAnswers.adv hlegal).exec_eq, rfl⟩,
    fun hseq hbusy => ⟨s, (OpAnswers.draining hlegal (List.isEmpty_eq_false_iff.2 hbusy)).exec_eq, hseq⟩,
    fun hidle => ⟨_, (OpAnswers.drained hlegal (List.isEmpty_iff.2 hidle)).exec_eq, rfl⟩,
    fun hopen => ⟨s.sent, exec_send hlegal hopen.ne, fun hrest => ?_, fun hfull => ?_⟩,
    ⟨_, (OpAnswers.stats hlegal).exec_eq, rfl⟩⟩
  · exact (State.seq_sent hlegal).trans (if_neg (Nat.ne_of_lt hrest))
  · exact (State.seq_sent hlegal).trans (if_pos hfull)

/-! ## The marks that arise in a run (R200, R205) -/

/-- R230: the invariant has `SEQ` at INIT wherever a reset has its INIT to execute. -/
theorem State.Inv.fetchWord_eq {s : State} (h : s.Inv) : s.fetchWord = opword s.seq 0 := by
  rw [State.fetchWord]
  split
  case isTrue => rw [h.wholeOp, opword]
  case isFalse hrst => rw [h.resetSeq hrst]; rfl

/-- R84: the word of a whole operation is not reserved. -/
theorem decodeWord_whole_ne_error {q : BitVec 3} (hq : q.toNat < 6) (e : DecodeError) :
    decodeWord (opword q 0) ≠ .error e := by
  intro h
  have hreserved := (reservedWordsAreNoOperation q 0).1 ⟨e, h⟩
  have hzero : (0 : BitVec 3).toNat = 0 := rfl
  omega

/-- The operation that a word of a whole operation names. -/
theorem fields_of_decodeWord_whole {q : BitVec 3} {i : Instr} (h : decodeWord (opword q 0) = .ok i) :
    q = i.seqField ∧ i.stgField = 0 := by
  obtain ⟨hseq, hstg⟩ := fields_eq_of_decodeWord h
  rw [opwSeq_opword] at hseq
  rw [opwStg_opword] at hstg
  exact ⟨hseq, hstg.symm⟩

/-- R205, R231: INIT clears the mark, or refuses a pixel count. -/
theorem OpAnswers.mark_of_init {s t : State} (h : OpAnswers s .init t) :
    t.refused = none ∨ t.refused = some .pixelCount := by
  cases h with
  | initRefused => exact .inr rfl
  | init => exact .inl rfl
  | refused hi => exact absurd rfl hi

/-- R205: where the invariant holds, the operation of the loop that comes next refuses a pixel count or nothing. -/
theorem State.Inv.mark_after_op {s t : State} {i : Instr} (hinv : s.Inv) (hseq : s.seq = i.seqField)
    (hop : OpAnswers s.beginStep i t) : t.refused = none ∨ t.refused = some .pixelCount := by
  by_cases hi : i = .init
  · subst hi
    exact hop.mark_of_init
  · have hopen : i = .send → s.off.toNat < s.frameLen := fun hsend => hinv.sendOpen (by rw [hseq, hsend]; rfl)
    have hmark : t.refused = s.refused := hop.refused_eq hi hinv.legal hopen
    exact hmark ▸ hinv.mark

/-- Settles O56: every operation answers (`exists_opAnswers`); of the ways through a step, the one that meets a reserved
word does not arise under the invariant, and only an operation sets the mark. -/
theorem noOperationFaultsInARun : Obligations.NoOperationFaultsInARun := by
  refine ⟨fun i s => ?_, fun s hinv => ?_⟩
  · obtain ⟨t, hop⟩ := exists_opAnswers i s
    exact ⟨t, hop.exec_eq⟩
  · obtain ⟨t, hstep, -⟩ := step_whole s hinv.wholeOp
    refine ⟨t, hstep, ?_⟩
    cases stepAnswers_of_step hstep with
    | op _ _ hword hop =>
      rw [hinv.fetchWord_eq] at hword
      obtain ⟨hseq, -⟩ := fields_of_decodeWord_whole hword
      exact hinv.mark_after_op hseq hop
    | reserved _ _ hword =>
      rw [hinv.fetchWord_eq] at hword
      exact absurd hword (decodeWord_whole_ne_error hinv.seqLegal _)
    | held => exact hinv.mark
    | channelTx => exact (State.transmit_refused _).symm ▸ hinv.mark
    | host => exact (State.hostStep_refused _ _).symm ▸ hinv.mark

/-! ## A block in the loop (R182, R183) -/

/-- R182: the block goes round the loop: no reset is asserted or waits for its INIT, nothing has been refused, and on
the registers no operation of the loop refuses. -/
structure State.InLoop (s : State) : Prop where
  legal : s.Legal
  wholeOp : s.stg = 0
  rst : s.ports.rst = .idle
  mark : s.refused = none
  seqLoop : s.seq = seqGen ∨ s.seq = seqAdv ∨ s.seq = seqDrain ∨ s.seq = seqSend ∨ s.seq = seqStats
  sendOpen : s.seq = seqSend → s.off.toNat < s.frameLen

/-- R29, R81: the whole operations but INIT are the five of the loop. -/
theorem seq_loop_of_lt {q : BitVec 3} (hq : q.toNat < 6) (hinit : q ≠ seqInit) :
    q = seqGen ∨ q = seqAdv ∨ q = seqDrain ∨ q = seqSend ∨ q = seqStats := by
  revert q
  decide

theorem State.Inv.inLoop {s : State} (hinv : s.Inv) (hseq : s.seq ≠ seqInit) (hmark : s.refused = none) : s.InLoop where
  legal := hinv.legal
  wholeOp := hinv.wholeOp
  rst := by_contra fun hrst => hseq (hinv.resetSeq hrst)
  mark := hmark
  seqLoop := seq_loop_of_lt hinv.seqLegal hseq
  sendOpen := hinv.sendOpen

/-- R21, R24, R26, R30: every operation but INIT leaves a legal state legal. -/
theorem OpAnswers.legal {i : Instr} {s t : State} (h : OpAnswers s i t) (hi : i ≠ .init) (hlegal : s.Legal) :
    t.Legal := by
  have ⟨hpixels, hhue, hfinite, hoff⟩ := hlegal
  cases h with
  | initRefused | init => exact absurd rfl hi
  | adv =>
    refine ⟨hpixels, ?_, nextPhase_finite _ hfinite, hoff⟩
    rw [State.goto_hueBase, State.setAnimation_hueBase, nextHue_toNat]
    exact Nat.mod_lt _ (by decide)
  | drained => exact ⟨hpixels, hhue, hfinite, Nat.zero_le _⟩
  | send =>
    refine ⟨hpixels, hhue, hfinite, ?_⟩
    rw [State.off_toNat_sent hlegal]
    exact s.off_add_acceptCount_le hoff
  | stats | statsRpt => simpa [State.Legal] using hlegal
  | _ => exact hlegal

section
variable {s t : State} {i : Instr}

theorem State.InLoop.seq_lt (h : s.InLoop) : s.seq.toNat < 6 := by
  rcases h.seqLoop with hseq | hseq | hseq | hseq | hseq <;> rw [hseq] <;> decide

theorem State.InLoop.seq_ne_init (h : s.InLoop) : s.seq ≠ seqInit := by
  rcases h.seqLoop with hseq | hseq | hseq | hseq | hseq <;> rw [hseq] <;> decide

theorem State.InLoop.op_ne_init (h : s.InLoop) (hseq : s.seq = i.seqField) : i ≠ .init :=
  fun hi => h.seq_ne_init (by rw [hseq, hi]; rfl)

theorem State.InLoop.fetchWord_eq (h : s.InLoop) : s.fetchWord = opword s.seq 0 := by
  rw [State.fetchWord, if_pos h.rst, h.wholeOp, opword]

theorem State.InLoop.halted_eq (h : s.InLoop) : s.halted = false := s.halted_eq_false_iff.2 (.inl h.mark)

/-- A step of another agent that leaves the mark keeps the block in the loop. -/
theorem SamePoint.inLoop (hsame : SamePoint s t) (hmark : t.refused = s.refused) (h : s.InLoop) : t.InLoop := by
  have hpixels : t.pixels = s.pixels := congrArg BitVec.toNat hsame.cfgN
  have hlen : t.frameLen = s.frameLen := congrArg (fun n => hdrLen + 3 * n) hpixels
  refine ⟨?_, hsame.stg.trans h.wholeOp, hsame.rst.trans h.rst, hmark.trans h.mark, ?_, ?_⟩
  · rw [State.Legal, hpixels, hsame.hueBase, hsame.phase, hsame.off, hlen]
    exact h.legal
  · rw [hsame.seq]
    exact h.seqLoop
  · rw [hsame.seq, hsame.off, hlen]
    exact h.sendOpen

/-- R181: after an operation of the loop comes an operation of the loop, and SEND only with bytes left to offer. -/
theorem OpAnswers.seq_loop (hop : OpAnswers s i t) (h : s.InLoop) (hseq : s.seq = i.seqField)
    (hwhole : i.stgField = 0) :
    (t.seq = seqGen ∨ t.seq = seqAdv ∨ t.seq = seqDrain ∨ t.seq = seqSend ∨ t.seq = seqStats) ∧
      (t.seq = seqSend → t.off.toNat < t.frameLen) := by
  cases hop with
  | initRefused | init => exact absurd rfl (h.op_ne_init hseq)
  | genHue | genWheel | genPhase | genBright | genScale | statsAcc | statsRpt => exact absurd hwhole (by decide)
  | refused | draining | sendRefused => exact ⟨h.seqLoop, h.sendOpen⟩
  | gen => exact ⟨.inr (.inl rfl), fun hsend => absurd hsend (show seqAdv ≠ seqSend by decide)⟩
  | adv => exact ⟨.inr (.inr (.inl rfl)), fun hsend => absurd hsend (show seqDrain ≠ seqSend by decide)⟩
  | drained => exact ⟨.inr (.inr (.inr (.inl rfl))), fun _ => Nat.lt_add_right _ (show 0 < hdrLen by decide)⟩
  | stats => exact ⟨.inl rfl, fun hsend => absurd hsend (show seqGen ≠ seqSend by decide)⟩
  | send hlegal hrest =>
    obtain ⟨-, -, -, hle⟩ := (OpAnswers.send hlegal hrest).legal (by decide) hlegal
    rw [State.seq_sent hlegal]
    split
    case isTrue => exact ⟨.inr (.inr (.inr (.inr rfl))), fun hsend => absurd hsend (by decide)⟩
    case isFalse hrest => exact ⟨.inr (.inr (.inr (.inl rfl))), fun _ => lt_of_le_of_ne hle hrest⟩

/-- R182: an operation of the loop keeps the block in the loop. -/
theorem State.InLoop.after_op (h : s.InLoop) (hseq : s.seq = i.seqField) (hwhole : i.stgField = 0)
    (hop : OpAnswers s i t) : t.InLoop := by
  have hi := h.op_ne_init hseq
  have hrun : Running s t := (⟨h.rst, h.wholeOp, rfl, rfl⟩ : Running s s).after_exec hi hwhole hop
  have hmark := hop.refused_eq hi h.legal fun hsend => h.sendOpen (by rw [hseq, hsend]; rfl)
  obtain ⟨hnext, hopen⟩ := hop.seq_loop h hseq hwhole
  exact ⟨hop.legal hi h.legal, hrun.wholeOp, hrun.rst, hmark.trans h.mark, hnext, hopen⟩

theorem SamePoint.beginStep (s : State) : SamePoint s s.beginStep := ⟨rfl, rfl, rfl, rfl, rfl, rfl, rfl, rfl, rfl, rfl⟩

theorem State.InLoop.beginStep (h : s.InLoop) : s.beginStep.InLoop := (SamePoint.beginStep s).inLoop rfl h

/-- R29, R182: the sequencer's turn executes the operation that `SEQ` names. -/
theorem State.InLoop.step_op (h : s.InLoop) (hturn : s.turn = .sequencer) (hseq : s.seq = i.seqField)
    (hwhole : i.stgField = 0) (hop : OpAnswers s.beginStep i t) : step s = .next t ∧ t.InLoop := by
  refine ⟨?_, h.beginStep.after_op hseq hwhole hop⟩
  have hword : decodeWord s.beginStep.fetchWord = .ok i := by
    rw [h.beginStep.fetchWord_eq, State.beginStep_seq, hseq, ← hwhole]
    exact decodeWord_encode i
  rw [step_of_sequencer hturn, sequencerStep_of_decoded h.beginStep.halted_eq hword, hop.exec_eq]

end

/-! ## The sequencer's turn at each operation of the loop -/

/-- The state that the sequencer's turn leaves at GEN. -/
@[simp] def State.generated (s : State) : State :=
  (s.beginStep.setFb (Memory.writeFrame s.fb s.hueBase s.phase s.pixels)).goto seqAdv

/-- The state that the sequencer's turn leaves at ADV. -/
@[simp] def State.advanced (s : State) : State :=
  (s.beginStep.setAnimation (nextHue s.hueBase) (nextPhase s.phase)).goto seqDrain

/-- The state that the sequencer's turn leaves at DRAIN with the channel idle. -/
@[simp] def State.drained (s : State) : State := (s.beginStep.setOff 0).goto seqSend

/-- The state that the sequencer's turn leaves at STATS. -/
@[simp] def State.counted (s : State) : State :=
  ((s.beginStep.setCounters s.nextFrames s.nextBytes).report s.nextFrames s.nextBytes).goto seqGen

section
variable {s : State} (h : s.InLoop) (hturn : s.turn = .sequencer)
include h hturn

theorem State.InLoop.step_gen (hseq : s.seq = seqGen) : step s = .next s.generated ∧ s.generated.InLoop :=
  h.step_op (i := .gen) hturn hseq rfl (.gen h.beginStep.legal)

theorem State.InLoop.step_adv (hseq : s.seq = seqAdv) : step s = .next s.advanced ∧ s.advanced.InLoop :=
  h.step_op (i := .adv) hturn hseq rfl (.adv h.beginStep.legal)

theorem State.InLoop.step_drain_idle (hseq : s.seq = seqDrain) (hidle : s.chan.pending = []) :
    step s = .next s.drained ∧ s.drained.InLoop :=
  h.step_op (i := .drain) hturn hseq rfl (.drained h.beginStep.legal (List.isEmpty_iff.2 hidle))

theorem State.InLoop.step_drain_busy (hseq : s.seq = seqDrain) (hbusy : s.chan.pending ≠ []) :
    step s = .next s.beginStep ∧ s.beginStep.InLoop :=
  h.step_op (i := .drain) hturn hseq rfl (.draining h.beginStep.legal (List.isEmpty_eq_false_iff.2 hbusy))

theorem State.InLoop.step_send (hseq : s.seq = seqSend) :
    step s = .next s.beginStep.sent ∧ s.beginStep.sent.InLoop :=
  h.step_op (i := .send) hturn hseq rfl (.send h.beginStep.legal (h.sendOpen hseq).ne)

theorem State.InLoop.step_stats (hseq : s.seq = seqStats) : step s = .next s.counted ∧ s.counted.InLoop :=
  h.step_op (i := .stats) hturn hseq rfl (.stats h.beginStep.legal)

end

/-! ## One whole frame (R183) -/

theorem State.turn_of_turns {s : State} {c : Turn} {rest : List Turn} (h : s.env.turns = c :: rest) : s.turn = c := by
  rw [State.turn, h]

theorem core_run_succ {s t : State} (n : ℕ) (h : step s = .next t) :
    Sys2Proof.core.run (n + 1) s = Sys2Proof.core.run n t := by
  have hcore : Sys2Proof.core.step s = .next t := h
  simp only [Host.Core.run, hcore]

/-- The state in which SEND begins, where GEN, ADV and DRAIN each had their turn at once. -/
@[simp] def State.frameReady (s : State) : State := s.generated.advanced.drained

theorem State.wireFrame_congr (s t : State) (hcount : t.cfgN = s.cfgN) (hhdr : t.hdr = s.hdr) (hfb : t.fb = s.fb) :
    t.wireFrame = s.wireFrame := by
  rw [State.wireFrame, s.wireBytes_congr t _ _ hhdr hfb, State.frameLen, State.pixels, hcount]
  rfl

/-- R112, R144: the frame that SEND begins to hand over. -/
theorem State.wireFrame_frameReady (s : State) :
    s.frameReady.wireFrame = [s.hdr.b0, s.hdr.b1, s.hdr.b2, s.hdr.b3, s.hdr.b4, s.hdr.b5] ++
      framePayload s.hueBase s.phase s.pixels := by
  rw [← State.wireFrame_setFb_writeFrame]
  exact State.wireFrame_congr _ _ rfl rfl rfl

/-- GEN, ADV, and DRAIN of an idle channel. -/
theorem State.InLoop.run_frameReady {s : State} {ts : List Turn} (h : s.InLoop) (hseq : s.seq = seqGen)
    (hidle : s.chan.pending = []) (hturns : s.env.turns = .sequencer :: .sequencer :: .sequencer :: ts) (n : ℕ) :
    Sys2Proof.core.run (n + 3) s = Sys2Proof.core.run n s.frameReady ∧ s.frameReady.InLoop := by
  obtain ⟨hgen, h1⟩ := h.step_gen (State.turn_of_turns hturns) hseq
  have hturns1 : s.generated.env.turns = .sequencer :: .sequencer :: ts := congrArg List.tail hturns
  obtain ⟨hadv, h2⟩ := h1.step_adv (State.turn_of_turns hturns1) rfl
  have hturns2 : s.generated.advanced.env.turns = .sequencer :: ts := congrArg List.tail hturns1
  obtain ⟨hdrain, h3⟩ := h2.step_drain_idle (State.turn_of_turns hturns2) rfl hidle
  exact ⟨(core_run_succ _ hgen).trans ((core_run_succ _ hadv).trans (core_run_succ n hdrain)), h3⟩

/-- R144, R149: an attempt from the start of a frame that is accepted for all its bytes hands over the wire frame, and
STATS comes next. -/
theorem State.sent_whole {s : State} {k : ℕ} {ks : List ℕ} (hoff : s.off.toNat = 0)
    (haccepts : s.env.accepts = k :: ks) (hcount : s.frameLen ≤ k) :
    s.sent.chan.pending = s.chan.pending ++ s.wireFrame ∧ s.sent.seq = seqStats := by
  have haccept : s.acceptCount = s.frameLen := by
    rw [State.acceptCount_of_accepts haccepts, State.remaining, hoff, Nat.sub_zero, Nat.min_eq_right hcount]
  refine ⟨?_, if_pos ?_⟩
  · rw [State.pending_sent, haccept, hoff, State.wireFrame]
  · rw [haccept, hoff, Nat.zero_add]

/-- SEND of a whole frame, and STATS. -/
theorem State.InLoop.run_frameSent {s : State} {k : ℕ} {ks : List ℕ} {ts : List Turn} (h : s.InLoop)
    (hseq : s.seq = seqSend) (hoff : s.off.toNat = 0) (haccepts : s.env.accepts = k :: ks) (hcount : s.frameLen ≤ k)
    (hturns : s.env.turns = .sequencer :: .sequencer :: ts) (n : ℕ) :
    Sys2Proof.core.run (n + 2) s = Sys2Proof.core.run n s.beginStep.sent.counted ∧
      s.beginStep.sent.counted.InLoop ∧ s.beginStep.sent.chan.pending = s.chan.pending ++ s.wireFrame := by
  obtain ⟨hpending, hstats⟩ := State.sent_whole (s := s.beginStep) hoff haccepts hcount
  obtain ⟨hsend, h1⟩ := h.step_send (State.turn_of_turns hturns) hseq
  have hturns1 : s.beginStep.sent.env.turns = .sequencer :: ts := congrArg List.tail hturns
  obtain ⟨hcounted, h2⟩ := h1.step_stats (State.turn_of_turns hturns1) hstats
  exact ⟨(core_run_succ _ hsend).trans (core_run_succ n hcounted), h2, hpending⟩

/-- Settles O57: `frameReady` after three turns and `counted` after two more; what the operations between write is read
off the rules for their updates. -/
theorem oneFrameOfTheLoop : Obligations.OneFrameOfTheLoop := by
  intro s k ks ts hinv hseq hmark hidle hturns haccepts hcount
  have h : s.InLoop := hinv.inLoop (by rw [hseq]; decide) hmark
  have hlen : s.frameReady.frameLen = s.frameLen := by simp
  have hsendTurns : s.frameReady.env.turns = .sequencer :: .sequencer :: ts := congrArg (·.tail.tail.tail) hturns
  obtain ⟨hgenerate, hready⟩ := h.run_frameReady hseq hidle hturns 2
  obtain ⟨hsend, hdone, hpending⟩ := hready.run_frameSent rfl rfl haccepts (hlen.trans_le hcount) hsendTurns 0
  rw [State.wireFrame_frameReady] at hpending
  refine ⟨_, hgenerate.trans hsend, rfl, hdone.mark, ?wire, ?pending, ?registers⟩
  case wire => simp [State.sent]
  case pending => simpa [hidle] using hpending
  case registers =>
    simp [State.sent, State.nextFrames, State.nextBytes, State.frameLen, State.pixels, hdrLen, nextHue_toNat, hturns,
      haccepts]

/-! ## A run of the loop (R185) -/

theorem SamePoint.trans {s t u : State} (h₁ : SamePoint s t) (h₂ : SamePoint t u) : SamePoint s u :=
  ⟨h₂.seq.trans h₁.seq, h₂.stg.trans h₁.stg, h₂.off.trans h₁.off, h₂.hueBase.trans h₁.hueBase,
    h₂.phase.trans h₁.phase, h₂.cfgN.trans h₁.cfgN, h₂.hdr.trans h₁.hdr, h₂.fb.trans h₁.fb, h₂.rst.trans h₁.rst,
    h₂.handed.trans h₁.handed⟩

theorem SamePoint.remaining {s t : State} (h : SamePoint s t) : t.remaining = s.remaining := by
  rw [State.remaining, State.frameLen, State.pixels, h.cfgN, h.off]
  rfl

theorem SamePoint.choose (s : State) (c : Turn) (k : ℕ) : SamePoint s (s.choose c k) :=
  ⟨rfl, rfl, rfl, rfl, rfl, rfl, rfl, rfl, rfl, rfl⟩

theorem State.InLoop.choose {s : State} (h : s.InLoop) (c : Turn) (k : ℕ) : (s.choose c k).InLoop :=
  (SamePoint.choose s c k).inLoop rfl h

/-- R64: the channel's step takes a byte from CH_PENDING, if there is one. -/
theorem State.length_pending_transmit (s : State) :
    s.transmit.chan.pending.length = s.chan.pending.length - 1 := by
  cases hpending : s.chan.pending with
  | nil => rw [State.transmit_of_pending_nil hpending, hpending]; rfl
  | cons b rest => rw [State.transmit_of_pending_cons hpending]; rfl

/-- R185: the step of another agent than the sequencer leaves the block where it is, and adds nothing to CH_PENDING. -/
theorem step_of_other_agent {s t : State} {c : Turn} {k : ℕ} (hrst : s.ports.rst = .idle) (hc : c ≠ .sequencer)
    (hreset : c ≠ .host .assertReset) (hstep : step (s.choose c k) = .next t) :
    SamePoint s t ∧ t.refused = s.refused ∧ t.chan.pending.length ≤ s.chan.pending.length := by
  cases stepAnswers_of_step hstep with
  | held hturn | op hturn | reserved hturn => exact absurd hturn hc
  | channelTx =>
    refine ⟨(SamePoint.beginStep_choose s c k).trans (.transmit _), State.transmit_refused _, ?_⟩
    rw [State.length_pending_transmit]
    exact Nat.sub_le _ _
  | @host d hturn =>
    obtain rfl : c = .host d := hturn
    have hbegin := SamePoint.beginStep_choose s (.host d) k
    refine ⟨hbegin.trans (.hostStep (hbegin.rst.trans hrst) fun hd => hreset (congrArg _ hd)),
      State.hostStep_refused _ _, ?_⟩
    rw [State.hostStep_chan]
    exact le_rfl

/-- R182: no step of any agent but a reset takes the block out of the loop. -/
theorem State.InLoop.after_step {s t : State} {c : Turn} {k : ℕ} (h : s.InLoop) (hreset : c ≠ .host .assertReset)
    (hstep : step (s.choose c k) = .next t) : t.InLoop := by
  by_cases hc : c = .sequencer
  · have hbegin := (h.choose c k).beginStep
    cases stepAnswers_of_step hstep with
    | held => exact hbegin
    | op _ _ hword hop =>
      rw [(h.choose c k).fetchWord_eq] at hword
      obtain ⟨hseq, hwhole⟩ := fields_of_decodeWord_whole hword
      exact hbegin.after_op hseq hwhole hop
    | reserved _ _ hword =>
      rw [(h.choose c k).fetchWord_eq] at hword
      exact absurd hword (decodeWord_whole_ne_error h.seq_lt _)
    | channelTx hturn | host hturn => exact absurd (hc.symm.trans hturn) (by simp)
  · obtain ⟨hsame, hmark, -⟩ := step_of_other_agent h.rst hc hreset hstep
    exact hsame.inLoop hmark h

/-- A run whose block goes round the loop, with no reset to come. -/
structure LoopRun (r : ℕ → State) (c : ℕ → Turn) (k : ℕ → ℕ) : Prop where
  isRun : IsRun r c k
  noReset : ∀ n, c n ≠ .host .assertReset
  inLoop : ∀ n, (r n).InLoop

theorem IsRun.loopRun {r : ℕ → State} {c : ℕ → Turn} {k : ℕ → ℕ} (hrun : IsRun r c k)
    (hreset : ∀ n, c n ≠ .host .assertReset) (hstart : (r 0).InLoop) : LoopRun r c k := by
  refine ⟨hrun, hreset, fun n => ?_⟩
  induction n with
  | zero => exact hstart
  | succ n ih => exact ih.after_step (hreset n) (hrun n)

/-! ## What comes about in the end -/

/-- A condition that every step keeps, unless `Q` holds of it, ends with `Q` where a measure never grows and, from every
point, `Q` holds or the measure falls in the end. -/
theorem exists_exit_of_measure {P Q : ℕ → Prop} (μ : ℕ → ℕ)
    (hstep : ∀ n, P n → Q n ∨ P (n + 1) ∧ μ (n + 1) ≤ μ n)
    (hfall : ∀ n, P n → ∃ m, n ≤ m ∧ (P m → μ m ≤ μ n → Q m ∨ μ (m + 1) < μ n)) (n : ℕ) (hn : P n) :
    ∃ m, n ≤ m ∧ P m ∧ Q m := by
  induction hμ : μ n using Nat.strong_induction_on generalizing n with
  | _ v ih =>
    subst hμ
    have hkeep : ∀ d, (∃ m, n ≤ m ∧ P m ∧ Q m) ∨ P (n + d) ∧ μ (n + d) ≤ μ n := by
      intro d
      induction d with
      | zero => exact .inr ⟨hn, le_rfl⟩
      | succ d ihd =>
        rcases ihd with hexit | ⟨hP, hle⟩
        · exact .inl hexit
        · rcases hstep _ hP with hQ | ⟨hP', hle'⟩
          · exact .inl ⟨_, Nat.le_add_right n d, hP, hQ⟩
          · exact .inr ⟨hP', hle'.trans hle⟩
    obtain ⟨m, hnm, hm⟩ := hfall n hn
    obtain ⟨d, rfl⟩ := Nat.exists_eq_add_of_le hnm
    rcases hkeep d with hexit | ⟨hP, hle⟩
    · exact hexit
    · rcases hkeep (d + 1) with hexit | ⟨hP', -⟩
      · exact hexit
      · rcases hm hP hle with hQ | hlt
        · exact ⟨_, hnm, hP, hQ⟩
        · obtain ⟨m', hm', hPQ⟩ := ih _ hlt _ hP' rfl
          exact ⟨m', (Nat.le_succ_of_le hnm).trans hm', hPQ⟩

/-! ## The progress of a fair run (R181, R212) -/

/-- From every point of the run with `SEQ` = `q` comes a step from `q` to `q'`. -/
def StepsTo (r : ℕ → State) (q q' : BitVec 3) : Prop :=
  ∀ n, (r n).seq = q → ∃ m, n ≤ m ∧ (r m).seq = q ∧ (r (m + 1)).seq = q'

theorem StepsTo.reaches {r : ℕ → State} {q q' : BitVec 3} (h : StepsTo r q q') {n : ℕ}
    (hq : ∃ m, n ≤ m ∧ (r m).seq = q) : ∃ m, n ≤ m ∧ (r m).seq = q' := by
  obtain ⟨m, hm, hseq⟩ := hq
  obtain ⟨l, hl, -, hnext⟩ := h m hseq
  exact ⟨l + 1, Nat.le_succ_of_le (hm.trans hl), hnext⟩

/-- R149: an attempt takes the bytes it hands over from those that remain. -/
theorem State.remaining_sent {s : State} (hlegal : s.Legal) : s.sent.remaining = s.remaining - s.acceptCount := by
  rw [State.remaining, State.off_toNat_sent hlegal, ← Nat.sub_sub]
  rfl

theorem State.seq_sent_cases (s : State) : s.sent.seq = seqStats ∨ s.sent.seq = seqSend := ite_eq_or_eq ..

section
variable {r : ℕ → State} {c : ℕ → Turn} {k : ℕ → ℕ} (h : LoopRun r c k)
include h

theorem LoopRun.succ_eq {n : ℕ} {t : State} (hstep : step ((r n).choose (c n) (k n)) = .next t) : r (n + 1) = t :=
  Host.Outcome.next.inj ((h.isRun n).symm.trans hstep)

theorem LoopRun.other_agent {n : ℕ} (hc : c n ≠ .sequencer) :
    SamePoint (r n) (r (n + 1)) ∧ (r (n + 1)).chan.pending.length ≤ (r n).chan.pending.length := by
  obtain ⟨hsame, -, hpending⟩ := step_of_other_agent (h.inLoop n).rst hc (h.noReset n) (h.isRun n)
  exact ⟨hsame, hpending⟩

/-- R181, R212: an operation that every turn of the sequencer completes is completed. -/
theorem LoopRun.completes {q : BitVec 3} {Q : ℕ → Prop} (hfair : SequencerFair c)
    (hturn : ∀ n, c n = .sequencer → (r n).seq = q → Q n) (n : ℕ) (hseq : (r n).seq = q) :
    ∃ m, n ≤ m ∧ (r m).seq = q ∧ Q m := by
  refine exists_exit_of_measure (P := fun n => (r n).seq = q) (fun _ => 0) (fun n hn => ?_) (fun n _ => ?_) n hseq
  · by_cases hc : c n = .sequencer
    · exact .inl (hturn n hc hn)
    · obtain ⟨hsame, -⟩ := h.other_agent hc
      exact .inr ⟨hsame.seq.trans hn, le_rfl⟩
  · obtain ⟨m, hm, hc⟩ := hfair n
    exact ⟨m, hm, fun hP _ => .inl (hturn m hc hP)⟩

theorem LoopRun.after_gen {n : ℕ} (hc : c n = .sequencer) (hseq : (r n).seq = seqGen) : (r (n + 1)).seq = seqAdv := by
  obtain ⟨hstep, -⟩ := ((h.inLoop n).choose (c n) (k n)).step_gen hc hseq
  rw [h.succ_eq hstep]
  rfl

theorem LoopRun.after_adv {n : ℕ} (hc : c n = .sequencer) (hseq : (r n).seq = seqAdv) : (r (n + 1)).seq = seqDrain := by
  obtain ⟨hstep, -⟩ := ((h.inLoop n).choose (c n) (k n)).step_adv hc hseq
  rw [h.succ_eq hstep]
  rfl

theorem LoopRun.after_drain_idle {n : ℕ} (hc : c n = .sequencer) (hseq : (r n).seq = seqDrain)
    (hidle : (r n).chan.pending = []) : (r (n + 1)).seq = seqSend := by
  obtain ⟨hstep, -⟩ := ((h.inLoop n).choose (c n) (k n)).step_drain_idle hc hseq hidle
  rw [h.succ_eq hstep]
  rfl

/-- R149: a write attempt takes the block to STATS, or takes the bytes accepted from those that remain. -/
theorem LoopRun.after_send {n : ℕ} (hc : c n = .sequencer) (hseq : (r n).seq = seqSend) :
    (r (n + 1)).seq = seqStats ∨
      (r (n + 1)).seq = seqSend ∧ (r (n + 1)).remaining = (r n).remaining - min (k n) (r n).remaining := by
  have hloop := (h.inLoop n).choose (c n) (k n)
  obtain ⟨hstep, -⟩ := hloop.step_send hc hseq
  rw [h.succ_eq hstep]
  exact (State.seq_sent_cases _).imp_right fun hsend => ⟨hsend, State.remaining_sent hloop.beginStep.legal⟩

theorem LoopRun.after_stats {n : ℕ} (hc : c n = .sequencer) (hseq : (r n).seq = seqStats) :
    (r (n + 1)).statFrames = (r n).statFrames + 1 ∧ (r (n + 1)).seq = seqGen := by
  obtain ⟨hstep, -⟩ := ((h.inLoop n).choose (c n) (k n)).step_stats hc hseq
  rw [h.succ_eq hstep]
  refine ⟨?_, rfl⟩
  rw [State.counted, State.goto_statFrames, State.report_statFrames, State.setCounters_statFrames]
  rfl

/-- R147: a step in DRAIN leaves the block there, with nothing added to CH_PENDING, or takes it to SEND. -/
theorem LoopRun.drain_step {n : ℕ} (hseq : (r n).seq = seqDrain) :
    (r (n + 1)).seq = seqSend ∨
      (r (n + 1)).seq = seqDrain ∧ (r (n + 1)).chan.pending.length ≤ (r n).chan.pending.length := by
  by_cases hc : c n = .sequencer
  · by_cases hidle : (r n).chan.pending = []
    · exact .inl (h.after_drain_idle hc hseq hidle)
    · obtain ⟨hstep, -⟩ := ((h.inLoop n).choose (c n) (k n)).step_drain_busy hc hseq hidle
      rw [h.succ_eq hstep]
      exact .inr ⟨hseq, le_rfl⟩
  · obtain ⟨hsame, hpending⟩ := h.other_agent hc
    exact .inr ⟨hsame.seq.trans hseq, hpending⟩

/-- R149: a step in SEND leaves the block there, with no more bytes remaining, or takes it to STATS. -/
theorem LoopRun.send_step {n : ℕ} (hseq : (r n).seq = seqSend) :
    (r (n + 1)).seq = seqStats ∨ (r (n + 1)).seq = seqSend ∧ (r (n + 1)).remaining ≤ (r n).remaining := by
  by_cases hc : c n = .sequencer
  · exact (h.after_send hc hseq).imp_right fun ⟨hsend, hrest⟩ => ⟨hsend, hrest.trans_le (Nat.sub_le _ _)⟩
  · obtain ⟨hsame, -⟩ := h.other_agent hc
    exact .inr ⟨hsame.seq.trans hseq, hsame.remaining.le⟩

/-- R147, R212 (b): the channel transmits what is pending, and the next turn of the sequencer completes DRAIN. -/
theorem LoopRun.drain_stepsTo_send (hfair : SequencerFair c) (hchan : ChannelFair r c k) :
    StepsTo r seqDrain seqSend := by
  refine exists_exit_of_measure (fun n => (r n).chan.pending.length) (fun n => h.drain_step) (fun n _ => ?_)
  by_cases hidle : (r n).chan.pending = []
  · obtain ⟨m, hm, hc⟩ := hfair n
    exact ⟨m, hm, fun hq hle => .inl (h.after_drain_idle hc hq (by simpa [hidle] using hle))⟩
  · obtain ⟨-, htransmits⟩ := hchan
    obtain ⟨m, hm, hc⟩ := htransmits n hidle
    refine ⟨m, hm, fun _ hle => .inr ?_⟩
    have hlen : (r (m + 1)).chan.pending.length = (r m).chan.pending.length - 1 := by
      rw [h.succ_eq (step_of_channelTx hc)]
      exact State.length_pending_transmit _
    have hpos := List.length_pos_iff.2 hidle
    omega

/-- R149, R212 (a): attempts of one byte or more hand over the whole frame. -/
theorem LoopRun.send_stepsTo_stats (hchan : ChannelFair r c k) : StepsTo r seqSend seqStats := by
  refine exists_exit_of_measure (fun n => (r n).remaining) (fun n => h.send_step) (fun n hseq => ?_)
  obtain ⟨hattempts, -⟩ := hchan
  obtain ⟨m, hm, hend⟩ := hattempts n hseq
  refine ⟨m, hm, fun hsend hle => ?_⟩
  rcases hend with hend | ⟨hc, hcount⟩
  · exact absurd hsend hend
  · refine (h.after_send hc hsend).imp_right fun ⟨_, hrest⟩ => ?_
    have hopen : 0 < (r m).remaining := Nat.sub_pos_of_lt ((h.inLoop m).sendOpen hsend)
    omega

/-- R181, R212: wherever the block is in the loop, it comes to STATS. -/
theorem LoopRun.reaches_stats (hfair : SequencerFair c) (hchan : ChannelFair r c k) (n : ℕ) :
    ∃ m, n ≤ m ∧ (r m).seq = seqStats := by
  have hgen : StepsTo r seqGen seqAdv := h.completes hfair fun n => h.after_gen
  have hadv : StepsTo r seqAdv seqDrain := h.completes hfair fun n => h.after_adv
  have hdrain := h.drain_stepsTo_send hfair hchan
  have hsend := h.send_stepsTo_stats hchan
  rcases (h.inLoop n).seqLoop with hseq | hseq | hseq | hseq | hseq
  · exact hsend.reaches (hdrain.reaches (hadv.reaches (hgen.reaches ⟨n, le_rfl, hseq⟩)))
  · exact hsend.reaches (hdrain.reaches (hadv.reaches ⟨n, le_rfl, hseq⟩))
  · exact hsend.reaches (hdrain.reaches ⟨n, le_rfl, hseq⟩)
  · exact hsend.reaches ⟨n, le_rfl, hseq⟩
  · exact ⟨n, le_rfl, hseq⟩

end

/-- Settles O59: the run stays in the loop (`IsRun.loopRun`), from every point it comes to STATS, and the sequencer's
turn there counts the frame. -/
theorem fairRunsCompleteFrames : Obligations.FairRunsCompleteFrames := by
  intro r c k hrun hinv hseq hmark hreset hfair hchan n
  have h := hrun.loopRun hreset (hinv.inLoop hseq hmark)
  obtain ⟨m, hm, hstats⟩ := h.reaches_stats hfair hchan n
  obtain ⟨l, hl, hcount⟩ := h.completes hfair (fun n => h.after_stats) m hstats
  exact ⟨l, hm.trans hl, hcount⟩

end Sys2Proof.Machine
end

section
/-! PROOF. Exceptions (spec/60_exceptions.md): the invariant under every step, the refusals and what follows them, the
priority of a reset, the stages without a pixel, and the stalls. -/

namespace Sys2Proof.Machine

/-! ## The invariant under the updates of the state -/

section
variable {s : State} (h : s.Inv)
include h

/-- R230: where `SEQ` is not INIT no reset is under way. -/
theorem State.Inv.rst_idle (hseq : s.seq ≠ seqInit) : s.ports.rst = .idle :=
  by_contra fun hrst => hseq (h.resetSeq hrst)

theorem State.Inv.beginStep : s.beginStep.Inv := { h with }

/-- R64: what the channel transmits stays among the bytes handed over. -/
theorem State.Inv.transmit : s.transmit.Inv := by
  have hhanded := s.handed_transmit
  cases hpending : s.chan.pending with
  | nil => rwa [State.transmit_of_pending_nil hpending]
  | cons b rest =>
    rw [State.transmit_of_pending_cons hpending] at hhanded ⊢
    exact { h with delivered := fun hseq => hhanded ▸ h.delivered hseq }

/-- R182: the operations before SEND ask nothing of `OFF` or of the bytes handed over. -/
theorem State.Inv.goto {q : BitVec 3} (hq : q.toNat < 4) (hrst : s.ports.rst = .idle ∨ q = seqInit) :
    (s.goto q).Inv := by
  have hsend : q ≠ seqSend := by rintro rfl; exact absurd hq (by decide)
  have hstats : q ≠ seqStats := by rintro rfl; exact absurd hq (by decide)
  exact { h with
    seqLegal := hq.trans (by decide)
    wholeOp := rfl
    sendOpen := fun hseq => absurd hseq hsend
    statsFull := fun hseq => absurd hseq hstats
    resetSeq := fun hreset => hrst.resolve_left hreset
    delivered := fun hseq => absurd hseq (not_or.2 ⟨hsend, hstats⟩) }

theorem State.Inv.hostStep (c : HostStep) : (s.hostStep c).Inv := by
  cases c with
  | assertReset =>
    have hinit : (s.goto seqInit).Inv := h.goto (by decide) (.inr rfl)
    exact { hinit with resetSeq := fun _ => rfl }
  | releaseReset =>
    refine { h with resetSeq := fun hreset => h.resetSeq fun hidle => hreset ?_ }
    simp [State.hostStep, hidle]
  | setConfig | setTime => exact { h with }

/-- R154: a frame more, and its L bytes more. -/
theorem State.Inv.setCounters : (s.setCounters s.nextFrames s.nextBytes).Inv := by
  refine { h with counted := ?_ }
  simp [State.nextFrames, State.nextBytes, h.counted, BitVec.add_mul]

/-- R159: a report puts `T_LAST` to a later time. -/
theorem State.Inv.report (f b : BitVec 64) : (s.report f b).Inv := by
  rcases s.report_cases f b with ⟨hdue, heq⟩ | ⟨-, heq⟩ <;> rw [heq]
  · exact { h with times := BitVec.le_trans h.times (BitVec.le_of_lt hdue) }
  · exact { h with }

end

/-! ## The invariant under the operations of the loop -/

/-- R231: the reset step needs of the state before it the frame buffer's form alone. -/
theorem State.inv_initialised {s : State} (hfb : Memory.wf s.fb) (hcount : s.ports.cfgN.toNat ≤ maxPixels) :
    s.initialised.initDone.Inv := by
  have hcases : s.initialised.seq = seqInit ∨ s.initialised.seq = seqGen := ite_eq_or_eq ..
  have hsent : ¬ (s.initialised.seq = seqSend ∨ s.initialised.seq = seqStats) := by
    rcases hcases with hq | hq <;> rw [hq] <;> decide
  exact {
    fbWf := hfb
    legal := ⟨hcount, show 0 < huePeriod by decide, show F64.finite 0 = true by decide, Nat.zero_le _⟩
    seqLegal := by rcases hcases with hq | hq <;> exact hq ▸ by decide
    wholeOp := rfl
    sendOpen := fun hseq => absurd (.inl hseq) hsent
    statsFull := fun hseq => absurd (.inr hseq) hsent
    header := rfl
    times := BitVec.le_refl _
    counted := BitVec.zero_mul.symm
    mark := .inl rfl
    resetSeq := by cases hrst : s.ports.rst <;> simp [hrst]
    delivered := fun hseq => absurd hseq hsent }

section
variable {s t : State} (h : s.Inv)
include h

/-- R112: GEN keeps the form of the frame buffer, and no byte of it has been handed over yet. -/
theorem State.Inv.after_gen (hseq : s.seq = seqGen) :
    ((s.setFb (Memory.writeFrame s.fb s.hueBase s.phase s.pixels)).goto seqAdv).Inv := by
  have hidle : s.ports.rst = .idle := h.rst_idle (hseq ▸ by decide)
  have ⟨hpixels, _⟩ := h.legal
  have hadv : (s.goto seqAdv).Inv := h.goto (by decide) (.inl hidle)
  exact { hadv with
    fbWf := Memory.writeFrame_wf _ _ _ _ hpixels h.fbWf
    delivered := fun hsent => absurd hsent (show ¬ (seqAdv = seqSend ∨ seqAdv = seqStats) by decide) }

/-- R147: DRAIN begins a frame, of which no byte has been handed over. -/
theorem State.Inv.after_drain (hseq : s.seq = seqDrain) : ((s.setOff 0).goto seqSend).Inv := by
  have hidle : s.ports.rst = .idle := h.rst_idle (hseq ▸ by decide)
  have ⟨hpixels, hhue, hfinite, _⟩ := h.legal
  exact { h with
    legal := ⟨hpixels, hhue, hfinite, Nat.zero_le _⟩
    seqLegal := show seqSend.toNat < 6 by decide
    wholeOp := rfl
    sendOpen := fun _ => Nat.lt_add_right _ (show 0 < hdrLen by decide)
    statsFull := fun hstats => absurd hstats (show seqSend ≠ seqStats by decide)
    resetSeq := fun hreset => absurd hidle hreset
    delivered := fun _ => List.nil_suffix }

/-- R149, R151: an attempt hands over the next bytes of the frame, and goes on to STATS after the last of them. -/
theorem State.Inv.after_send (hseq : s.seq = seqSend) : s.sent.Inv := by
  have hidle : s.ports.rst = .idle := h.rst_idle (hseq ▸ by decide)
  have hlegal : s.sent.Legal := (OpAnswers.send h.legal (h.sendOpen hseq).ne).legal (by decide) h.legal
  have hnext : s.sent.seq = if s.sent.off.toNat = s.sent.frameLen then seqStats else seqSend := State.seq_sent h.legal
  obtain ⟨pre, hpre⟩ := h.delivered (.inl hseq)
  refine { h with
    legal := hlegal
    seqLegal := ?_
    wholeOp := rfl
    sendOpen := fun hsend => ?_
    statsFull := fun hstats => ?_
    resetSeq := fun hreset => absurd hidle hreset
    delivered := fun _ => ⟨pre, ?_⟩ }
  · rcases s.seq_sent_cases with hq | hq <;> rw [hq] <;> decide
  · obtain ⟨-, -, -, hle⟩ := hlegal
    refine lt_of_le_of_ne hle fun hfull => ?_
    rw [hsend, if_pos hfull] at hnext
    exact absurd hnext (by decide)
  · by_contra hrest
    rw [hstats, if_neg hrest] at hnext
    exact absurd hnext (by decide)
  · rw [State.handed_sent hpre.symm, State.off_toNat_sent h.legal]
    rfl

/-- R181: the operation that `SEQ` names keeps the invariant. -/
theorem State.Inv.after_op {i : Instr} (hseq : s.seq = i.seqField) (hwhole : i.stgField = 0) (hop : OpAnswers s i t) :
    t.Inv := by
  cases hop with
  | genHue | genWheel | genPhase | genBright | genScale | statsAcc | statsRpt => exact absurd hwhole (by decide)
  | refused _ hreason => exact absurd h.legal (State.not_legal_of_refusalReason hreason)
  | sendRefused _ hfull => exact absurd hfull (h.sendOpen hseq).ne
  | initRefused => exact { h with mark := .inr rfl, resetSeq := fun _ => hseq }
  | init hcount => exact State.inv_initialised h.fbWf hcount
  | gen => exact h.after_gen hseq
  | adv hlegal =>
    have hdrain : (s.goto seqDrain).Inv := h.goto (by decide) (.inl (h.rst_idle (hseq ▸ by decide)))
    exact { hdrain with legal := (OpAnswers.adv hlegal).legal (by decide) hlegal }
  | drained => exact h.after_drain hseq
  | draining => exact h
  | send => exact h.after_send hseq
  | stats =>
    have hidle : s.ports.rst = .idle := h.rst_idle (hseq ▸ by decide)
    exact (h.setCounters.report _ _).goto (by decide) (.inl (by simpa using hidle))

end

/-- Settles O55: every way through a step (`StepAnswers`) is an update under which the invariant is kept, and a reserved
word does not arise. -/
theorem everyStepKeepsTheInvariant : Obligations.EveryStepKeepsTheInvariant := by
  intro s t h hstep
  cases stepAnswers_of_step hstep with
  | held => exact h.beginStep
  | op _ _ hword hop =>
    rw [h.fetchWord_eq] at hword
    obtain ⟨hseq, hwhole⟩ := fields_of_decodeWord_whole hword
    exact h.beginStep.after_op hseq hwhole hop
  | reserved _ _ hword =>
    rw [h.fetchWord_eq] at hword
    exact absurd hword (decodeWord_whole_ne_error h.seqLegal _)
  | channelTx => exact h.beginStep.transmit
  | host => exact h.beginStep.hostStep _

/-! ## Refusals (R205) -/

theorem State.halted_eq_true {s : State} (hmark : s.refused ≠ none) (hrst : s.ports.rst = .idle) :
    s.halted = true := by
  simp [State.halted, Option.isSome_iff_ne_none, hmark, hrst]

theorem sequencerStep_of_halted {s : State} (h : s.halted = true) : sequencerStep s = .next s := if_pos h

theorem sequencerStep_of_reserved {s : State} {e : DecodeError} (hrun : s.halted = false)
    (hword : decodeWord s.fetchWord = .error e) : sequencerStep s = .next (s.refuse .reservedCode) := by
  simp [sequencerStep, hrun, hword]

/-- Settles O6: the sequencer of a refused block holds. -/
theorem refusedBlockTakesNoStep : Obligations.RefusedBlockTakesNoStep := by
  intro s hturn hmark hrst
  have hhalted : s.beginStep.halted = true := State.halted_eq_true hmark hrst
  exact (step_of_sequencer hturn).trans (sequencerStep_of_halted hhalted)

/-- Settles O5: without a reset the word is `{SEQ, STG}`, and a reserved one is refused. -/
theorem reservedCodeIsRefused : Obligations.ReservedCodeIsRefused := by
  intro s e hturn hmark hrst hword
  have hrun : s.beginStep.halted = false := s.beginStep.halted_eq_false_iff.2 (.inl hmark)
  have hfetch : s.beginStep.fetchWord = opword s.seq s.stg := if_pos hrst
  exact (step_of_sequencer hturn).trans (sequencerStep_of_reserved hrun (hfetch ▸ hword))

/-- R26: the exponent of an infinity or of a value that is not a number. -/
theorem F64.finite_eq_false_iff (x : F64) : F64.finite x = false ↔ F64.expo x = 2047 := by simp [F64.finite]

/-! The reasons 1 and 3 to 5, in the rule's order. -/

section
variable {s : State}

theorem State.refusalReason_of_pixels (h : maxPixels < s.pixels) : s.refusalReason = some .pixelCount := if_pos h

variable (hpixels : s.pixels ≤ maxPixels)
include hpixels

theorem State.refusalReason_of_hueBase (h : huePeriod ≤ s.hueBase.toNat) : s.refusalReason = some .hueRange :=
  (if_neg (Nat.not_lt.2 hpixels)).trans (if_pos h)

variable (hhue : s.hueBase.toNat < huePeriod)
include hhue

theorem State.refusalReason_of_phase (h : F64.expo s.phase = 2047) : s.refusalReason = some .phaseNotFinite :=
  (if_neg (Nat.not_lt.2 hpixels)).trans
    ((if_neg (Nat.not_le.2 hhue)).trans (if_pos ((F64.finite_eq_false_iff _).2 h)))

theorem State.refusalReason_of_off (hphase : F64.expo s.phase ≠ 2047) (h : s.frameLen < s.off.toNat) :
    s.refusalReason = some .offsetRange :=
  (if_neg (Nat.not_lt.2 hpixels)).trans
    ((if_neg (Nat.not_le.2 hhue)).trans ((if_neg (mt (F64.finite_eq_false_iff _).1 hphase)).trans (if_pos h)))

end

/-- Settles O7: every operation but INIT refuses by `State.refusalReason`; SEND also where no byte is left. -/
theorem statesWithoutMeaningAreRefused : Obligations.StatesWithoutMeaningAreRefused := by
  intro i s hi
  have hrefuses {r : RefuseReason} (hreason : s.refusalReason = some r) : exec i s = .next (s.refuse r) :=
    (OpAnswers.refused hi hreason).exec_eq
  refine ⟨fun hpixels => hrefuses (State.refusalReason_of_pixels hpixels),
    fun hpixels hhue => hrefuses (State.refusalReason_of_hueBase hpixels hhue),
    fun hpixels hhue hphase => hrefuses (State.refusalReason_of_phase hpixels hhue hphase),
    fun hpixels hhue hphase hoff => hrefuses (State.refusalReason_of_off hpixels hhue hphase hoff),
    fun hsend hlegal hfull => ?_⟩
  subst hsend
  exact (OpAnswers.sendRefused hlegal hfull).exec_eq

/-! ## Reset (R207, R230, R231) -/

/-- R207: while a reset has its INIT to execute, the sequencer executes INIT. -/
theorem step_of_reset {s : State} (hturn : s.turn = .sequencer) (hrst : s.ports.rst ≠ .idle) :
    step s = exec .init s.beginStep :=
  stepRunsTheDecodedOperation s .init hturn (.inr hrst) (by rw [if_neg hrst]; rfl)

/-- R230: INIT ends a released reset, and an asserted one goes on. -/
theorem State.initDone_of_reset {s : State} (hrst : s.ports.rst ≠ .idle) :
    s.initDone = { s with ports := { s.ports with rst := if s.ports.rst = .asserted then .asserted else .idle } } := by
  cases hline : s.ports.rst with
  | idle => exact absurd hline hrst
  | asserted | released => simp [State.initDone, hline]

/-- Settles O8: a reset executes INIT, which loads the configuration or refuses its pixel count; asserting it is a step
of the host. -/
theorem resetTakesPriority : Obligations.ResetTakesPriority := by
  refine ⟨fun s hturn hrst hcount => ?_, fun s hturn hrst hcount => ?_, fun s hturn => step_of_host hturn⟩
  · have hinit := (OpAnswers.init (s := s.beginStep) hcount).exec_eq
    rw [step_of_reset hturn hrst, hinit, State.initDone_of_reset (s := s.beginStep.initialised) hrst]
    rfl
  · have hinit := (OpAnswers.initRefused (s := s.beginStep) hcount).exec_eq
    rw [step_of_reset hturn hrst, hinit, State.initDone_of_reset (s := s.beginStep) hrst]
    rfl

/-! ## The stages without a pixel (R61, R102, R107, R111) -/

/-- Log 11: without a pixel GEN.SCALE stores no byte, and the index begins again. -/
theorem exec_genScale_without_pixel {s : State} (hlegal : s.Legal) (hpix : s.pixels ≤ s.stage.pix) :
    exec .genScale s = .next (s.setStage { s.stage with pix := 0 }) := by
  obtain ⟨-, -, hfb⟩ := s.stage_without_pixel hpix
  rw [(OpAnswers.genScale hlegal).exec_eq, hfb, nextPixel_of_le _ _ (Nat.le_succ_of_le hpix)]
  rfl

/-- Settles O30: GEN.HUE and GEN.PHASE write their free values, GEN.SCALE has no pixel to store, and the other two read
no index. -/
theorem stageWithoutAPixelRuns : Obligations.StageWithoutAPixelRuns :=
  fun _ hlegal hpix =>
    ⟨⟨_, (OpAnswers.genHue hlegal).exec_eq⟩, ⟨_, (OpAnswers.genPhase hlegal).exec_eq⟩,
      exec_genScale_without_pixel hlegal hpix, exec_genWheel hlegal, exec_genBright hlegal⟩

/-! ## Stalls (R150, R202) -/

/-- The state with another environment and another `rpt_valid`: what a stall leaves of a state. -/
def State.withEnv (s : State) (valid : Bool) (x : Env) : State := { s with rptValid := valid, env := x }

/-- A run that stalls in `s`, where the environment and `rpt_valid` decide what the next environment is. -/
def State.stallRun (s : State) (next : Bool → Env → Env) : ℕ → State
  | 0 => s
  | n + 1 => s.withEnv false (next (s.stallRun next n).rptValid (s.stallRun next n).env)

theorem State.stallRun_eq_withEnv (s : State) (next : Bool → Env → Env) (n : ℕ) :
    s.stallRun next n = s.withEnv (s.stallRun next n).rptValid (s.stallRun next n).env := by
  cases n <;> rfl

/-- R202: a sequencer that leaves the block as it is, whatever the environment, is on an infinite run. -/
theorem exists_stall {s : State} {k : ℕ}
    (h : ∀ valid x, ∃ y, step ((s.withEnv valid x).choose .sequencer k) = .next (s.withEnv false y)) :
    ∃ r : ℕ → State, r 0 = s ∧ IsRun r (fun _ => .sequencer) (fun _ => k) ∧
      ∀ n, r (n + 1) = { s with rptValid := false, env := (r (n + 1)).env } := by
  choose next hnext using h
  refine ⟨s.stallRun next, rfl, fun n => ?_, fun n => rfl⟩
  rw [State.stallRun_eq_withEnv]
  exact hnext _ _

section
variable {s : State} (h : s.InLoop) (valid : Bool) (x : Env)
include h

theorem State.InLoop.withEnv : (s.withEnv valid x).InLoop := { h with }

/-- R147: a busy channel holds DRAIN. -/
theorem State.InLoop.drain_holds (hseq : s.seq = seqDrain) (hbusy : s.chan.pending ≠ []) :
    ∃ y, step ((s.withEnv valid x).choose .sequencer 1) = .next (s.withEnv false y) := by
  obtain ⟨hstep, -⟩ := ((h.withEnv valid x).choose .sequencer 1).step_drain_busy rfl hseq hbusy
  exact ⟨_, hstep⟩

/-- R149: an attempt accepted for no byte only uses up its count. -/
theorem State.InLoop.sent_of_not_txReady (hseq : s.seq = seqSend) (hready : s.txReady = false) :
    s.sent = s.popAccept := by
  rw [State.sent_of_not_txReady (s.txValid_iff.2 ⟨hseq, h.sendOpen hseq⟩) hready, ← h.wholeOp]
  rfl

/-- R150: a channel that accepts no byte holds SEND. -/
theorem State.InLoop.send_holds (hseq : s.seq = seqSend) :
    ∃ y, step ((s.withEnv valid x).choose .sequencer 0) = .next (s.withEnv false y) := by
  have hloop := (h.withEnv valid x).choose .sequencer 0
  obtain ⟨hstep, -⟩ := hloop.step_send rfl hseq
  rw [hstep, hloop.beginStep.sent_of_not_txReady hseq rfl]
  exact ⟨_, rfl⟩

end

/-- Settles O58: each of the two operations holds, whatever the environment has become. -/
theorem stallsAreRuns : Obligations.StallsAreRuns := by
  intro s hinv hmark
  have hloop (hseq : s.seq ≠ seqInit) : s.InLoop := hinv.inLoop hseq hmark
  exact ⟨fun hseq hbusy => exists_stall fun valid x => (hloop (hseq ▸ by decide)).drain_holds valid x hseq hbusy,
    fun hseq => exists_stall fun valid x => (hloop (hseq ▸ by decide)).send_holds valid x hseq⟩

end Sys2Proof.Machine
end

section
/-! PROOF. Reset (spec/70_reset_and_hazards.md, 1): what INIT leaves, from every state and from one with the reset
state's surroundings. -/

namespace Sys2Proof.Machine

/-- R66: a clean channel is the reset state's. -/
theorem chan_eq_reset_of_clean {s : State} (hclean : ChannelCleanAtStart s) : s.chan = State.reset.chan :=
  congrArg₂ Channel.mk hclean.1 hclean.2

/-- R231: INIT overwrites every register, so what it leaves depends on the rest of the state only. -/
theorem State.initialised_congr {s t : State} (hports : s.ports = t.ports) (hfb : s.fb = t.fb)
    (hreports : s.reports = t.reports) (hchan : s.chan = t.chan) (henv : s.env = t.env) :
    s.initialised = t.initialised := by
  simp only [State.initialised, hports, hfb, hreports, hchan, henv]

/-- The reset state while the INIT of a released reset is still to come (log 8). -/
def State.resetReleased : State := { State.reset with ports := { State.reset.ports with rst := .released } }

theorem State.initDone_initialised_resetReleased : State.resetReleased.initialised.initDone = State.reset := by decide

/-- Settles O11: by `State.initialised_congr` INIT leaves what it leaves from the reset state itself. -/
theorem resetIsWhatInitLeaves : Obligations.ResetIsWhatInitLeaves := by
  intro s hports hfb hreports hclean henv
  have hinit : s.initialised = State.resetReleased.initialised :=
    State.initialised_congr hports hfb hreports (chan_eq_reset_of_clean hclean) henv
  have hcount : s.ports.cfgN.toNat ≤ maxPixels := by rw [hports]; decide
  rw [(OpAnswers.init hcount).exec_eq, hinit, State.initDone_initialised_resetReleased]

/-- Settles O12: a refused count leaves `State.refuse`, an admitted one `State.initialised`, whose field lemmas are the
values of the statement; the reset line decides `SEQ` and what becomes of the line. -/
theorem initLoadsAndResets : Obligations.InitLoadsAndResets := by
  refine ⟨fun s hcount => (OpAnswers.initRefused hcount).exec_eq, fun s hcount => ?_⟩
  refine ⟨_, (OpAnswers.init hcount).exec_eq, ?_⟩
  cases hline : s.ports.rst with
  | idle | asserted | released => simp [hline, seqInit, seqGen]

end Sys2Proof.Machine
end

section
/-! PROOF. The laws the spec draws from its rules: which headers coincide and what the checksum misses, the wheel as a
closed table, the bounds and the growth of the brightness, the hues of a run, the barrier of DRAIN, the operations that
hold, and the delivery of a frame under every schedule. -/

namespace Sys2Proof.Machine

/-! ## The header (R142, R143) -/

theorem countField_of_buildHeader_eq {n k : BitVec 17} {m : BitVec 24} (h : buildHeader n m = buildHeader k m) :
    countField n = countField k := by
  obtain ⟨-, -, -, hhigh, hlow, -⟩ := Header.mk.inj h
  refine BitVec.eq_of_toNat_eq ?_
  rw [← toNat_highByte_lowByte, hhigh, hlow, toNat_highByte_lowByte]

/-- R140: of the pixel count the header depends on the count field alone. -/
theorem buildHeader_eq_iff (n k : BitVec 17) (m : BitVec 24) :
    buildHeader n m = buildHeader k m ↔ countField n = countField k :=
  ⟨countField_of_buildHeader_eq, fun h => by rw [buildHeader, h, buildHeader]⟩

/-- Settles O15: the count field is `N - 1` modulo 65536, and two admitted counts are congruent only as 0 and 65536. -/
theorem headerOfNoPixelsIsThatOfTheMost : Obligations.HeaderOfNoPixelsIsThatOfTheMost := by
  refine ⟨fun n k m hn hk => ?_, fun m => by simp [buildHeader, countField, ckConst]⟩
  rw [buildHeader_eq_iff, ← BitVec.toNat_inj, ← BitVec.toNat_inj, countField, countField, BitVec.toNat_ofNat,
    BitVec.toNat_ofNat]
  omega

/-- Bytes 3 and 4 each stand in the received sum twice: the errors and the constant remain. -/
theorem received_sum (b3 b4 c e3 e4 e5 : Byte) :
    b3 ^^^ e3 ^^^ (b4 ^^^ e4) ^^^ (b3 ^^^ b4 ^^^ c ^^^ e5) = e3 ^^^ e4 ^^^ e5 ^^^ c :=
  calc b3 ^^^ e3 ^^^ (b4 ^^^ e4) ^^^ (b3 ^^^ b4 ^^^ c ^^^ e5)
      = (b3 ^^^ b3) ^^^ (b4 ^^^ b4) ^^^ (e3 ^^^ e4 ^^^ e5 ^^^ c) := by ac_rfl
    _ = e3 ^^^ e4 ^^^ e5 ^^^ c := by rw [BitVec.xor_self, BitVec.xor_self, BitVec.zero_xor, BitVec.zero_xor]

/-- Settles O16: the receiver's sum is the constant exactly where the errors add up to 0. -/
theorem checksumMissesExactlyCancellingErrors : Obligations.ChecksumMissesExactlyCancellingErrors := by
  intro n m e3 e4 e5
  rw [receiverAccepts, buildHeader, received_sum, ckConst]
  exact BitVec.xor_left_inj (x := e3 ^^^ e4 ^^^ e5) (y := 0) 0x55

/-! ## The wheel (R104, R106) -/

theorem toNat_ofNat_hue {k : ℕ} (hk : k < 2 ^ 22) : (BitVec.ofNat 22 k).toNat = k := by
  rw [BitVec.toNat_ofNat, Nat.mod_eq_of_lt hk]

/-- R104: the wheel is a function of the hue index modulo 1536. -/
theorem wheel_congr {h g : BitVec 22} (hmod : h.toNat % 1536 = g.toNat % 1536) : wheel h = wheel g := by
  have hsextant : sextant h = sextant g := by
    rw [sextant_eq, sextant_eq]
    omega
  have hrising : rising h = rising g := by
    refine BitVec.eq_of_toNat_eq ?_
    rw [rising_toNat, rising_toNat]
    omega
  rw [wheel, wheel, falling, falling, hsextant, hrising]

theorem iterate_add_mod {m b : ℕ} (hb : b < m) (c i : ℕ) : (fun h : ℕ => (h + c) % m)^[i] b = (b + c * i) % m := by
  induction i with
  | zero => exact (Nat.mod_eq_of_lt hb).symm
  | succ i ih => rw [Function.iterate_succ_apply', ih, Nat.mod_add_mod, Nat.mul_succ, Nat.add_assoc]

/-- Settles O19: the incremental hue is the hue index of the pixel, reduced modulo 1536. -/
theorem wheelHasPeriod1536 : Obligations.WheelHasPeriod1536 := by
  refine ⟨fun h => by omega, fun h => wheel_congr ?_, fun base i hbase hi => wheel_congr ?_⟩
  · rw [toNat_ofNat_hue (by omega), Nat.mod_mod]
  · rw [iterate_add_mod hbase, hueIndex, hueStepPixel, toNat_ofNat_hue (by omega), toNat_ofNat_hue (by omega),
      Nat.mod_mod]

/-- R105: `c` is the raw colour of the fraction `lo` in sextant `sx`. -/
def WheelEntry (sx lo : ℕ) (c : Color) : Prop :=
  (sx = 0 ∧ c.r.toNat = 255 ∧ c.g.toNat = lo ∧ c.b.toNat = 0) ∨
  (sx = 1 ∧ c.r.toNat = 255 - lo ∧ c.g.toNat = 255 ∧ c.b.toNat = 0) ∨
  (sx = 2 ∧ c.r.toNat = 0 ∧ c.g.toNat = 255 ∧ c.b.toNat = lo) ∨
  (sx = 3 ∧ c.r.toNat = 0 ∧ c.g.toNat = 255 - lo ∧ c.b.toNat = 255) ∨
  (sx = 4 ∧ c.r.toNat = lo ∧ c.g.toNat = 0 ∧ c.b.toNat = 255) ∨
  (sx = 5 ∧ c.r.toNat = 255 ∧ c.g.toNat = 0 ∧ c.b.toNat = 255 - lo)

/-- R106: the wheel as a table, six sextants of 256 entries. -/
theorem wheelEntry_wheel {k : ℕ} (hk : k < 1536) : WheelEntry (k / 256) (k % 256) (wheel (BitVec.ofNat 22 k)) := by
  have hcolour := wheelColours (BitVec.ofNat 22 k)
  have hsextant : k / 256 < 6 := by omega
  rw [toNat_ofNat_hue (by omega), Nat.mod_eq_of_lt hsextant] at hcolour
  rw [WheelEntry]
  interval_cases k / 256 <;> simpa using hcolour

/-- R106 (a): full saturation and value. -/
theorem wheel_saturated (h : BitVec 22) :
    ((wheel h).r = 255 ∨ (wheel h).g = 255 ∨ (wheel h).b = 255) ∧
      ((wheel h).r = 0 ∨ (wheel h).g = 0 ∨ (wheel h).b = 0) := by
  rw [wheel]
  split <;> simp

/-- R106 (b): the end of a sextant is the start of the next one. -/
theorem wheel_sextant_edge {h : ℕ} (hh : h < 1536) (hedge : h % 256 = 255) :
    wheel (BitVec.ofNat 22 ((h + 1) % 1536)) = wheel (BitVec.ofNat 22 h) := by
  obtain ⟨sx, hsx, rfl⟩ : ∃ sx < 6, h = 256 * sx + 255 := ⟨h / 256, by omega, by omega⟩
  interval_cases sx <;> rfl

/-- R106 (b): within a sextant one component moves, by 1: both colours are of one row of the table. -/
theorem WheelEntry.step {sx lo : ℕ} {c d : Color} (hlo : lo < 255) (hc : WheelEntry sx lo c)
    (hd : WheelEntry sx (lo + 1) d) :
    |(d.r.toNat : ℤ) - c.r.toNat| + |(d.g.toNat : ℤ) - c.g.toNat| + |(d.b.toNat : ℤ) - c.b.toNat| = 1 := by
  rw [WheelEntry] at hc hd
  simp only [Int.abs_eq_natAbs]
  omega

/-- R106: the place of a colour on the circle of the 1530 saturated ones, whose six corners are 255 places apart. -/
def hexagonPlace (c : Color) : ℕ :=
  if c.b.toNat = 0 then if c.r.toNat = 255 then c.g.toNat else 510 - c.r.toNat
  else if c.r.toNat = 0 then if c.g.toNat = 255 then 510 + c.b.toNat else 1020 - c.g.toNat
  else if c.b.toNat = 255 then 1020 + c.r.toNat else 1530 - c.b.toNat

/-- The places go on by 1 within a sextant, and not at its edge. -/
theorem WheelEntry.hexagonPlace_eq {sx lo : ℕ} {c : Color} (hlo : lo < 256) (hc : WheelEntry sx lo c) :
    hexagonPlace c = (255 * sx + lo) % 1530 := by
  rw [WheelEntry] at hc
  rw [hexagonPlace]
  split_ifs <;> omega

/-- R106 (b): two entries are equal only across a sextant edge. -/
theorem eq_or_edge_of_wheel_eq {g h : ℕ} (hg : g < 1536) (hh : h < 1536)
    (heq : wheel (BitVec.ofNat 22 g) = wheel (BitVec.ofNat 22 h)) :
    g = h ∨ (h % 256 = 255 ∧ g = (h + 1) % 1536) ∨ (g % 256 = 255 ∧ h = (g + 1) % 1536) := by
  have hplace := congrArg hexagonPlace heq
  rw [(wheelEntry_wheel hg).hexagonPlace_eq (by omega), (wheelEntry_wheel hh).hexagonPlace_eq (by omega)] at hplace
  have hsame : g - g / 256 = h - h / 256 ∨ (g = 0 ∧ h = 1535) ∨ (g = 1535 ∧ h = 0) := by omega
  omega

/-- Settles O20: the entries at the sextant starts are evaluated. -/
theorem wheelIsSaturatedAndContinuous : Obligations.WheelIsSaturatedAndContinuous := by
  refine ⟨fun h hh => ?_, by decide⟩
  obtain ⟨hfull, hzero⟩ := wheel_saturated (BitVec.ofNat 22 h)
  refine ⟨hfull, hzero, wheel_sextant_edge hh, fun hinner => ?_, fun g hg => eq_or_edge_of_wheel_eq hg hh⟩
  have hnext := wheelEntry_wheel (k := h + 1) (by omega)
  rw [show (h + 1) / 256 = h / 256 by omega, show (h + 1) % 256 = h % 256 + 1 by omega] at hnext
  exact (wheelEntry_wheel hh).step (by omega) hnext

/-! ## The brightness (R110) -/

/-- R108: the cube law does not fall. -/
theorem cubeLaw_mono {u w : ℝ} (hu : -1 ≤ u) (h : u ≤ w) :
    (1 / 2 + 1 / 2 * u) ^ 3 * 255 ≤ (1 / 2 + 1 / 2 * w) ^ 3 * 255 := by
  have hbase : 1 / 2 + 1 / 2 * u ≤ 1 / 2 + 1 / 2 * w := by linarith
  exact mul_le_mul_of_nonneg_right (pow_le_pow_left₀ (by linarith) hbase 3) (by norm_num)

/-- Further than `δ` from a half-integer, a real is nearer than `1/2 - δ` to the integer it rounds to. -/
theorem abs_floor_add_half_sub_lt {x δ : ℝ} (hδ : 0 ≤ δ) (hfar : δ < tieDistance x) :
    |(⌊x + 1 / 2⌋ : ℝ) - x| < 1 / 2 - δ := by
  have hlow := Int.floor_le x
  have hhigh := Int.lt_floor_add_one x
  rcases lt_abs.1 hfar with habove | hbelow
  · have hx : ⌊x + 1 / 2⌋ = ⌊x⌋ + 1 := Int.floor_eq_iff.2 (by push_cast; constructor <;> linarith)
    rw [hx, abs_lt]
    push_cast
    constructor <;> linarith
  · have hx : ⌊x + 1 / 2⌋ = ⌊x⌋ := Int.floor_eq_iff.2 (by constructor <;> linarith)
    rw [hx, abs_lt]
    constructor <;> linarith

section
variable {φ : F64} (hφ : F64.finite φ = true)
include hφ

/-- R109: outside the band the brightness is nearer to the exact real than half a unit, by more than the band. -/
theorem abs_bright_sub_lt (hfar : 1 / 2 ^ 20 < tieDistance (brightExact φ)) :
    |((bright φ).toNat : ℝ) - brightExact φ| < 1 / 2 - 1 / 2 ^ 20 := by
  obtain ⟨hround, -⟩ := brightnessFollowsTheCubeLaw φ hφ
  have hcast : ((bright φ).toNat : ℝ) = ⌊brightExact φ + 1 / 2⌋ := by exact_mod_cast hround hfar
  rw [hcast]
  exact abs_floor_add_half_sub_lt (by norm_num) hfar

/-- R109: within the band or not, the brightness is no further from the exact real than half a unit and the band. -/
theorem abs_bright_sub_le : |((bright φ).toNat : ℝ) - brightExact φ| ≤ 1 / 2 + 1 / 2 ^ 20 := by
  rcases lt_or_ge (1 / 2 ^ 20) (tieDistance (brightExact φ)) with hfar | htie
  · exact (abs_bright_sub_lt hφ hfar).le.trans (by norm_num)
  · obtain ⟨-, hdraw⟩ := brightnessFollowsTheCubeLaw φ hφ
    obtain ⟨hneighbour, -⟩ := hdraw htie
    obtain ⟨hlow, hhigh⟩ := abs_le.1 htie
    rw [abs_le]
    rcases hneighbour with hdown | hup
    · have hcast : ((bright φ).toNat : ℝ) = ⌊brightExact φ⌋ := by exact_mod_cast hdown
      constructor <;> linarith
    · have hcast : ((bright φ).toNat : ℝ) = ⌊brightExact φ⌋ + 1 := by exact_mod_cast hup
      constructor <;> linarith

/-- R110: a byte that the exact real is near enough to is the brightness, whatever the draw. -/
theorem bright_eq_of_near {k : ℕ} (hnear : |brightExact φ - k| < 1 / 2 - 1 / 2 ^ 20) :
    bright φ = BitVec.ofNat 8 k := by
  have hdist : |((bright φ).toNat : ℝ) - k| < 1 := by
    linarith [abs_sub_le ((bright φ).toNat : ℝ) (brightExact φ) k, abs_bright_sub_le hφ]
  have hint : |((bright φ).toNat : ℤ) - k| < 1 := by exact_mod_cast hdist
  have hk : (bright φ).toNat = k := by exact_mod_cast sub_eq_zero.1 (Int.abs_lt_one_iff.1 hint)
  rw [← hk, BitVec.ofNat_toNat, BitVec.setWidth_eq]

end

/-- Settles O25: the cube law at the bounds of the sine is nearer to 255, to 0 and to 32 than half a unit. -/
theorem brightnessExtremes : Obligations.BrightnessExtremes := by
  intro φ hφ
  have hmax := brightExact_le φ
  have hsin := Real.neg_one_le_sin (F64.value φ : ℝ)
  refine ⟨fun hhigh => bright_eq_of_near hφ (k := 255) (abs_lt.2 ?_),
    fun hlow => bright_eq_of_near hφ (k := 0) (abs_lt.2 ?_), fun hzero => bright_eq_of_near hφ (k := 32) ?_⟩
  · have hcube : _ ≤ brightExact φ := cubeLaw_mono (by norm_num) hhigh
    norm_num at hcube ⊢
    constructor <;> linarith
  · have hcube : brightExact φ ≤ _ := cubeLaw_mono hsin hlow
    have hcube0 : _ ≤ brightExact φ := cubeLaw_mono le_rfl hsin
    norm_num at hcube hcube0 ⊢
    constructor <;> linarith
  · rw [brightExact, hzero, abs_lt]
    norm_num

/-- Settles O26: the two brightnesses are less than 1 further apart downwards than the exact reals are, of which the
band takes away at the one phase what it may add at the other. -/
theorem brightnessIsMonotone : Obligations.BrightnessIsMonotone := by
  intro φ ψ hφ hψ hsin hfar
  have hexact : brightExact φ ≤ brightExact ψ := cubeLaw_mono (Real.neg_one_le_sin _) hsin
  have hdist : ((bright φ).toNat : ℝ) < (bright ψ).toNat + 1 := by
    obtain ⟨-, hφ2⟩ := abs_le.1 (abs_bright_sub_le hφ)
    obtain ⟨hψ1, -⟩ := abs_le.1 (abs_bright_sub_le hψ)
    rcases hfar with hfar | hfar
    · obtain ⟨-, hφ3⟩ := abs_lt.1 (abs_bright_sub_lt hφ hfar)
      linarith
    · obtain ⟨hψ3, -⟩ := abs_lt.1 (abs_bright_sub_lt hψ hfar)
      linarith
  exact Nat.lt_succ_iff.1 (by exact_mod_cast hdist)

/-! ## The hues of a run (R116) -/

theorem iterate_nextHue_toNat (k : ℕ) : (nextHue^[k] 0).toNat = 5 * k % 1536 := by
  have hstep : Function.Semiconj BitVec.toNat nextHue fun h => (h + 5) % 1536 := nextHue_toNat
  calc (nextHue^[k] 0).toNat = (fun h => (h + 5) % 1536)^[k] 0 := hstep.iterate_right k 0
    _ = 5 * k % 1536 := by rw [iterate_add_mod (by decide), Nat.zero_add]

/-- Settles O35: 5 and 1536 have no common divisor. -/
theorem hueVisitsTheWholeWheel : Obligations.HueVisitsTheWholeWheel := by
  intro k
  refine ⟨iterate_nextHue_toNat k, ?_⟩
  rw [← BitVec.toNat_inj, iterate_nextHue_toNat]
  exact Nat.dvd_iff_mod_eq_zero.symm.trans (Nat.Coprime.dvd_mul_left (by decide))

/-! ## DRAIN as a barrier, and the operations that hold (R71, R186) -/

/-- Settles O51: DRAIN goes on only where `tx_idle` is 1, and then no byte is pending. -/
theorem drainIsABarrier : Obligations.DrainIsABarrier := by
  intro s t hlegal hseq hexec hnext
  cases (exec_eq_next_iff .drain s t).1 hexec with
  | drained _ hidle =>
    have hempty : s.chan.pending = [] := List.isEmpty_iff.1 hidle
    simp [State.handed, hempty]
  | draining => exact absurd (hseq.symm.trans hnext) (by decide)
  | refused _ hreason => exact absurd hlegal (State.not_legal_of_refusalReason hreason)

/-- R149: an attempt that leaves `OFF` leaves all else but the count it used up (log 2). -/
theorem State.sent_of_off_eq {s : State} (hlegal : s.Legal) (hvalid : s.txValid = true) (hoff : s.sent.off = s.off) :
    s.sent = { s.popAccept with stg := 0 } := by
  have hcount := State.off_toNat_sent hlegal
  obtain ⟨-, hopen⟩ := s.txValid_iff.1 hvalid
  refine State.sent_of_not_txReady hvalid (Bool.eq_false_iff.2 fun hready => ?_)
  have hpos := (s.lt_acceptCount 0).2 ⟨hopen, hready⟩
  rw [hoff] at hcount
  omega

/-- Settles O49: GEN, ADV, STATS and DRAIN of an idle channel answer a state with another `SEQ`. -/
theorem onlyDrainAndSendHold : Obligations.OnlyDrainAndSendHold := by
  intro i s t hlegal hseq hwhole hstg hi hopen hexec hhold
  cases (exec_eq_next_iff i s t).1 hexec with
  | initRefused | init => exact absurd rfl hi
  | genHue | genWheel | genPhase | genBright | genScale | statsAcc | statsRpt => exact absurd hwhole (by decide)
  | refused _ hreason => exact absurd hlegal (State.not_legal_of_refusalReason hreason)
  | gen => exact absurd (hhold.trans hseq) (show seqAdv ≠ seqGen by decide)
  | adv => exact absurd (hhold.trans hseq) (show seqDrain ≠ seqAdv by decide)
  | drained => exact absurd (hhold.trans hseq) (show seqSend ≠ seqDrain by decide)
  | stats => exact absurd (hhold.trans hseq) (show seqGen ≠ seqStats by decide)
  | draining _ hbusy => exact .inl ⟨rfl, List.isEmpty_eq_false_iff.1 hbusy, rfl⟩
  | sendRefused _ hfull => exact absurd hfull (hopen rfl).ne
  | send =>
    refine .inr ⟨rfl, fun hoff => ?_⟩
    rw [State.sent_of_off_eq hlegal (s.txValid_iff.2 ⟨hseq, hopen rfl⟩) hoff, ← hstg]
    rfl

/-! ## The delivery of a frame (R151) -/

/-- From `s` to `t` the next `k` bytes of the wire view have been handed to the channel, and the frame is the same. -/
structure Delivers (s : State) (k : ℕ) (t : State) : Prop where
  legal : t.Legal
  off : t.off.toNat = s.off.toNat + k
  pending : t.chan.pending = s.chan.pending ++ s.wireBytes s.off.toNat k
  wire : t.chan.wire = s.chan.wire
  cfgN : t.cfgN = s.cfgN
  hdr : t.hdr = s.hdr
  fb : t.fb = s.fb

theorem Delivers.frameLen_eq {s t : State} {k : ℕ} (h : Delivers s k t) : t.frameLen = s.frameLen := by
  rw [State.frameLen, State.pixels, h.cfgN, State.frameLen, State.pixels]

theorem Delivers.refl {s : State} (hlegal : s.Legal) : Delivers s 0 s :=
  ⟨hlegal, rfl, (List.append_nil _).symm, rfl, rfl, rfl, rfl⟩

theorem Delivers.trans {s t u : State} {j k : ℕ} (h₁ : Delivers s j t) (h₂ : Delivers t k u) :
    Delivers s (j + k) u where
  legal := h₂.legal
  off := by rw [h₂.off, h₁.off, Nat.add_assoc]
  pending := by
    rw [h₂.pending, h₁.pending, h₁.off, State.wireBytes_congr s t _ _ h₁.hdr h₁.fb, State.wireBytes_add,
      List.append_assoc]
  wire := h₂.wire.trans h₁.wire
  cfgN := h₂.cfgN.trans h₁.cfgN
  hdr := h₂.hdr.trans h₁.hdr
  fb := h₂.fb.trans h₁.fb

/-- R149: an attempt hands over the count fixed ahead, where so many bytes are left. -/
theorem State.sent_delivers {s : State} {k : ℕ} {rest : List ℕ} (hlegal : s.Legal) (hopen : s.off.toNat < s.frameLen)
    (haccepts : s.env.accepts = k :: rest) (hk : s.off.toNat + k ≤ s.frameLen) : Delivers s k s.sent := by
  have hcount : s.acceptCount = k := by
    rw [State.acceptCount_of_accepts haccepts, State.remaining]
    omega
  refine ⟨(OpAnswers.send hlegal hopen.ne).legal (by decide) hlegal, ?_, ?_, rfl, rfl, rfl, rfl⟩
  · rw [State.off_toNat_sent hlegal, hcount]
  · rw [State.pending_sent, hcount]

/-- R151: attempts that leave bytes of the frame hand over the sum of their counts. -/
theorem exists_runOps_send {s : State} {ks rest : List ℕ} (hlegal : s.Legal) (haccepts : s.env.accepts = ks ++ rest)
    (hopen : s.off.toNat + ks.sum < s.frameLen) :
    ∃ t, runOps (List.replicate ks.length .send) s = .next t ∧ Delivers s ks.sum t ∧ t.env.accepts = rest := by
  induction ks generalizing s with
  | nil => exact ⟨s, rfl, .refl hlegal, haccepts⟩
  | cons k ks ih =>
    rw [List.sum_cons] at hopen ⊢
    have hfirst := State.sent_delivers hlegal (by omega) haccepts (by omega)
    obtain ⟨t, hrun, hrest, hleft⟩ := ih hfirst.legal (congrArg List.tail haccepts)
      (by rw [hfirst.off, hfirst.frameLen_eq]; omega)
    refine ⟨t, ?_, hfirst.trans hrest, hleft⟩
    exact (runOps_cons (exec_send hlegal (by omega))).trans hrun

/-- R151: an attempt that is not zero takes a byte or more. -/
theorem length_filter_ne_zero_le_sum (ks : List ℕ) : (ks.filter (· ≠ 0)).length ≤ ks.sum := by
  induction ks with
  | nil => exact le_rfl
  | cons k ks ih =>
    rw [List.filter_cons, List.sum_cons]
    split
    case isTrue hk =>
      have hpos := Nat.pos_of_ne_zero (of_decide_eq_true hk)
      rw [List.length_cons]
      omega
    case isFalse => exact Nat.le_add_left_of_le ih

/-- Settles O42: all attempts but the last leave a byte of the frame, and the last one takes what is left. -/
theorem everyScheduleDeliversTheFrame : Obligations.EveryScheduleDeliversTheFrame := by
  intro s ks rest k hlegal _ hoff haccepts hk hsum
  have hstart : s.off.toNat = 0 := by rw [hoff]; rfl
  rw [List.append_assoc] at haccepts
  obtain ⟨t, hrun, hsent, hleft⟩ := exists_runOps_send hlegal haccepts (by omega)
  have htoff := hsent.off
  have htlen := hsent.frameLen_eq
  have hlast := State.sent_delivers hsent.legal (by omega) hleft (by omega)
  have hall := hsent.trans hlast
  rw [hsum] at hall
  have hfull : t.sent.off.toNat = s.frameLen := by rw [hall.off, hstart, Nat.zero_add]
  refine ⟨?_, ?_, t.sent, ?_, ?_, hall.wire, hfull, ?_, hall.hdr, hall.fb⟩
  · have hmem : k ∈ ks ++ [k] := List.mem_append_right ks (List.mem_singleton.2 rfl)
    exact List.length_pos_of_mem (List.mem_filter.2 ⟨hmem, decide_eq_true hk.ne'⟩)
  · exact (length_filter_ne_zero_le_sum _).trans (by rw [List.sum_append, List.sum_singleton, hsum])
  · rw [List.replicate_succ', runOps_append _ hrun]
    exact runOps_cons (exec_send hsent.legal (by omega))
  · rw [hall.pending, hstart, State.wireBytes]
    simp only [Nat.zero_add]
    rfl
  · exact (State.seq_sent hsent.legal).trans (if_pos (hfull.trans htlen.symm))

end Sys2Proof.Machine
end
